-- ==== Sys2Proof/Word.lean ====
section
/-! DEFINITION. The word types of BIGINT-CORE and the digit base (spec 00_scope.md R6, R8). -/

namespace Sys2Proof

/-- One byte lane of the bus (20_memory.md R54). -/
abbrev Byte := BitVec 8

/-- A word is 32 bits, and a limb is one word (00_scope.md R8, R9). -/
abbrev Word := BitVec 32

/-- The digit base `BETA = 2^32` (00_scope.md R6). -/
def BETA : Nat := 4294967296

/-- A BigInt register index, `B0` to `B7` (10_state.md R20: `NREG = 8`). -/
abbrev Reg := Fin 8

end Sys2Proof
end

