-- ==== Sys2Proof/Config.lean ====
section
/-! DEFINITION. What an implementation fixes (00_scope.md R6: the capacity `L`) and the one free value of the spec
(93_implementation_defined.md V1: OPBUF after a hardware reset). -/

namespace Sys2Proof

/-- The capacity parameter `L` in limbs, with the range the spec gives it, `1 <= L <= 1024` (00_scope.md R6). -/
abbrev Capacity := { limbs : Nat // 1 ≤ limbs ∧ limbs ≤ 1024 }

/-- The default capacity, `L = 128` (00_scope.md R6). It is the capacity of `State.reset` and of `decodeTableWord`; every
other definition takes `L` from the state (log 1). -/
def Config.defaultCapacity : Capacity := ⟨128, by decide⟩

/-- FREE VALUE (log 4). What the byte at offset `addr` of the block reads as after the `epoch`-th hardware reset, until it is
written: 10_state.md R39, "each word holds an arbitrary 32-bit value, the same on every read until written". It has no body:
nothing can be proved about its value. -/
opaque Config.opbufAfterReset (epoch addr : Nat) : Byte

end Sys2Proof
end

