-- ==== Sys2Proof/Syntax.lean ====
section
/-! DEFINITION. The eleven commands, one constructor per row of spec/opcode_table.json (30_encoding.md R84). -/

namespace Sys2Proof

/-- A command of BIGINT-CORE, operands in the order of 30_encoding.md R87. -/
inductive Instr where
  /-- `NOP` (46_data_movement.md R160). -/
  | nop
  /-- `LDI rd, imm16` (46_data_movement.md R161). -/
  | ldi (rd : Reg) (imm16 : BitVec 16)
  /-- `LD rd, n` (46_data_movement.md R162); `n` is the 12-bit limb count. -/
  | ld (rd : Reg) (n : BitVec 12)
  /-- `ST ra` (46_data_movement.md R163). -/
  | st (ra : Reg)
  /-- `MOV rd, ra` (46_data_movement.md R164). -/
  | mov (rd ra : Reg)
  /-- `ADD rd, ra, rb` (40_adder.md R100). -/
  | add (rd ra rb : Reg)
  /-- `SUB rd, ra, rb` (41_subtractor.md R110). -/
  | sub (rd ra rb : Reg)
  /-- `MUL rd, ra, rb` (42_multiplier.md R120). -/
  | mul (rd ra rb : Reg)
  /-- `DIVMOD rq, rr, ra, rb` (43_divider.md R130). -/
  | divmod (rq rr ra rb : Reg)
  /-- `CMP ra, rb` (44_compare.md R140). -/
  | cmp (ra rb : Reg)
  /-- `MODEXP rd, ra, rb, rc`: base `ra`, exponent `rb`, modulus `rc` (45_modexp.md R150). -/
  | modexp (rd ra rb rc : Reg)
  deriving DecidableEq, Repr

end Sys2Proof
end

