-- ==== Sys2Proof/WellFormed.lean ====
section
/-! DEFINITION. Which terms of `Instr` are commands of a core of capacity `L`: the extra constraints of 30_encoding.md R84.
Every other condition of R84 (register indices below 8, field widths) is carried by the types of the operands. -/

namespace Sys2Proof

/-- The extra constraints of 30_encoding.md R84: `1 <= n <= L` for LD, and different destinations for DIVMOD. -/
def Instr.wellFormed (L : Nat) : Instr → Bool
  | .nop => true
  | .ldi _ _ => true
  | .ld _ n => decide (1 ≤ n.toNat ∧ n.toNat ≤ L)
  | .st _ => true
  | .mov _ _ => true
  | .add _ _ _ => true
  | .sub _ _ _ => true
  | .mul _ _ _ => true
  | .divmod rq rr _ _ => decide (rq ≠ rr)
  | .cmp _ _ => true
  | .modexp _ _ _ _ => true

end Sys2Proof
end

