-- ==== Sys2Proof/Decode.lean ====
section
/-! DEFINITION. The decoder of 30_encoding.md R86, total on 32-bit words, the opcode map of R84, and an encoder written from
the same formats (R81). Words are passed by value to CMD, so no byte order enters here (20_memory.md R54, R65). -/

namespace Sys2Proof

/-- Why a word selects no row of 30_encoding.md R84: the five kinds of illegal command that R85 lists. The core raises
`IllegalCommand` for each of them alike. -/
inductive DecodeError where
  /-- An opcode other than the eleven listed. -/
  | unknownOpcode
  /-- A non-zero reserved bit. -/
  | reservedBits
  /-- A register field of 8 to 15. -/
  | registerIndex
  /-- LD with `n = 0` or `n > L`. -/
  | limbCount
  /-- DIVMOD with `rq = rr`. -/
  | sameDestination
  deriving DecidableEq, Repr

/-- `w[hi:lo]` as 00_scope.md R8 defines it: `(w div 2^lo) mod 2^(hi-lo+1)`. -/
def field (w : Word) (hi lo : Nat) : Nat := w.toNat / 2 ^ lo % 2 ^ (hi - lo + 1)

/-- A 4-bit register field holds a register index; only `0..7` are legal (30_encoding.md R82). -/
def regField (w : Word) (hi lo : Nat) : Except DecodeError Reg :=
  if h : field w hi lo < 8 then .ok ⟨field w hi lo, h⟩ else .error .registerIndex

/-- Every bit that a format does not assign to a field must be zero (30_encoding.md R80). -/
def zeroBits (w : Word) (hi lo : Nat) : Except DecodeError Unit :=
  if field w hi lo = 0 then .ok () else .error .reservedBits

/-- The limb count of LD is legal for `1 <= n <= L` (30_encoding.md R83). -/
def limbCount (L : Nat) (w : Word) : Except DecodeError (BitVec 12) :=
  if 1 ≤ field w 11 0 ∧ field w 11 0 ≤ L then .ok (BitVec.ofNat 12 (field w 11 0)) else .error .limbCount

/-- The two destinations of DIVMOD differ (43_divider.md R130). -/
def distinctDests (rq rr : Reg) : Except DecodeError Unit :=
  if rq ≠ rr then .ok () else .error .sameDestination

/-! The formats of 30_encoding.md R81: their fields, with every bit below the opcode that is in no field zero. -/

/-- Format Z (NOP). -/
def formatZ (i : Instr) (w : Word) : Except DecodeError Instr := do
  zeroBits w 23 0
  return i

/-- Format I (LDI): `rd` and `imm16 = w[15:0]`. -/
def formatI (make : Reg → BitVec 16 → Instr) (w : Word) : Except DecodeError Instr := do
  zeroBits w 19 16
  let rd ← regField w 23 20
  return make rd (BitVec.ofNat 16 (field w 15 0))

/-- Format L (LD): `rd` and `n = w[11:0]`. -/
def formatL (L : Nat) (make : Reg → BitVec 12 → Instr) (w : Word) : Except DecodeError Instr := do
  zeroBits w 19 12
  let rd ← regField w 23 20
  let n ← limbCount L w
  return make rd n

/-- Format S (ST): `ra` alone. -/
def formatS (make : Reg → Instr) (w : Word) : Except DecodeError Instr := do
  zeroBits w 23 20
  zeroBits w 15 0
  let ra ← regField w 19 16
  return make ra

/-- Format R2 (MOV): `rd`, `ra`. -/
def formatR2 (make : Reg → Reg → Instr) (w : Word) : Except DecodeError Instr := do
  zeroBits w 15 0
  let rd ← regField w 23 20
  let ra ← regField w 19 16
  return make rd ra

/-- Format C (CMP): `ra`, `rb`. -/
def formatC (make : Reg → Reg → Instr) (w : Word) : Except DecodeError Instr := do
  zeroBits w 23 20
  zeroBits w 11 0
  let ra ← regField w 19 16
  let rb ← regField w 15 12
  return make ra rb

/-- Format R3 (ADD, SUB, MUL): `rd`, `ra`, `rb`. -/
def formatR3 (make : Reg → Reg → Reg → Instr) (w : Word) : Except DecodeError Instr := do
  zeroBits w 11 0
  let rd ← regField w 23 20
  let ra ← regField w 19 16
  let rb ← regField w 15 12
  return make rd ra rb

/-- Format R4 (MODEXP), fields `f1` to `f4`. -/
def formatR4 (make : Reg → Reg → Reg → Reg → Instr) (w : Word) : Except DecodeError Instr := do
  zeroBits w 7 0
  let f1 ← regField w 23 20
  let f2 ← regField w 19 16
  let f3 ← regField w 15 12
  let f4 ← regField w 11 8
  return make f1 f2 f3 f4

/-- Format R4 with two destinations `f1`, `f2` (DIVMOD), which must differ. -/
def formatR4Distinct (make : Reg → Reg → Reg → Reg → Instr) (w : Word) : Except DecodeError Instr := do
  zeroBits w 7 0
  let f1 ← regField w 23 20
  let f2 ← regField w 19 16
  let f3 ← regField w 15 12
  let f4 ← regField w 11 8
  distinctDests f1 f2
  return make f1 f2 f3 f4

/-- `decode(w, L)`, the procedure of 30_encoding.md R86: the opcode chooses the format. -/
def decode (L : Nat) (w : Word) : Except DecodeError Instr :=
  if field w 31 24 = 0x00 then formatZ .nop w
  else if field w 31 24 = 0x01 then formatI .ldi w
  else if field w 31 24 = 0x02 then formatL L .ld w
  else if field w 31 24 = 0x03 then formatS .st w
  else if field w 31 24 = 0x04 then formatR2 .mov w
  else if field w 31 24 = 0x10 then formatR3 .add w
  else if field w 31 24 = 0x11 then formatR3 .sub w
  else if field w 31 24 = 0x12 then formatR3 .mul w
  else if field w 31 24 = 0x13 then formatR4Distinct .divmod w
  else if field w 31 24 = 0x14 then formatC .cmp w
  else if field w 31 24 = 0x20 then formatR4 .modexp w
  else .error .unknownOpcode

/-- A word of 30_encoding.md R81 from its fields: the opcode in 31:24, four nibbles in 23:20, 19:16, 15:12 and 11:8, and what
stands at bit 0 upwards. -/
def wordOf (op f1 f2 f3 f4 low : Nat) : Word :=
  BitVec.ofNat 32 (op * 2 ^ 24 + f1 * 2 ^ 20 + f2 * 2 ^ 16 + f3 * 2 ^ 12 + f4 * 2 ^ 8 + low)

/-- The command word of an instruction (30_encoding.md R81, R84). -/
def encode : Instr → Word
  | .nop => wordOf 0x00 0 0 0 0 0
  | .ldi rd imm16 => wordOf 0x01 rd.val 0 0 0 imm16.toNat
  | .ld rd n => wordOf 0x02 rd.val 0 0 0 n.toNat
  | .st ra => wordOf 0x03 0 ra.val 0 0 0
  | .mov rd ra => wordOf 0x04 rd.val ra.val 0 0 0
  | .add rd ra rb => wordOf 0x10 rd.val ra.val rb.val 0 0
  | .sub rd ra rb => wordOf 0x11 rd.val ra.val rb.val 0 0
  | .mul rd ra rb => wordOf 0x12 rd.val ra.val rb.val 0 0
  | .divmod rq rr ra rb => wordOf 0x13 rq.val rr.val ra.val rb.val 0
  | .cmp ra rb => wordOf 0x14 0 ra.val rb.val 0 0
  | .modexp rd ra rb rc => wordOf 0x20 rd.val ra.val rb.val rc.val 0

/-- The extra constraint of a row of 30_encoding.md R84. -/
inductive RowConstraint where
  /-- No constraint beyond the mask. -/
  | none
  /-- `1 <= n <= L`, with `n = w[11:0]` (LD). -/
  | limbCount
  /-- `f1 != f2`, with `f1 = w[23:20]` and `f2 = w[19:16]` (DIVMOD). -/
  | distinctDests
  deriving DecidableEq, Repr

/-- Whether a word meets a row's extra constraint on a core of capacity `L`. -/
def RowConstraint.holds (L : Nat) (w : Word) (c : RowConstraint) : Bool :=
  match c with
  | .none => true
  | .limbCount => decide (1 ≤ field w 11 0 ∧ field w 11 0 ≤ L)
  | .distinctDests => decide (field w 23 20 ≠ field w 19 16)

/-- One row of the opcode map (30_encoding.md R84). -/
structure OpcodeRow where
  /-- The row's mnemonic. -/
  mnemonic : String
  /-- The row's `match` column. -/
  pattern : Word
  /-- The row's `mask` column. -/
  mask : Word
  /-- The row's extra constraint. -/
  extra : RowConstraint
  deriving DecidableEq, Repr

/-- A word selects a row iff `(w & mask) == match` and the row's extra constraint holds (30_encoding.md R84). -/
def OpcodeRow.selects (L : Nat) (w : Word) (row : OpcodeRow) : Bool :=
  w &&& row.mask == row.pattern && row.extra.holds L w

/-- The opcode map of 30_encoding.md R84, row for row. -/
def opcodeTable : List OpcodeRow :=
  [⟨"NOP", 0x00000000, 0xFFFFFFFF, .none⟩,
   ⟨"LDI", 0x01000000, 0xFF8F0000, .none⟩,
   ⟨"LD", 0x02000000, 0xFF8FF000, .limbCount⟩,
   ⟨"ST", 0x03000000, 0xFFF8FFFF, .none⟩,
   ⟨"MOV", 0x04000000, 0xFF88FFFF, .none⟩,
   ⟨"ADD", 0x10000000, 0xFF888FFF, .none⟩,
   ⟨"SUB", 0x11000000, 0xFF888FFF, .none⟩,
   ⟨"MUL", 0x12000000, 0xFF888FFF, .none⟩,
   ⟨"DIVMOD", 0x13000000, 0xFF8888FF, .distinctDests⟩,
   ⟨"CMP", 0x14000000, 0xFFF88FFF, .none⟩,
   ⟨"MODEXP", 0x20000000, 0xFF8888FF, .none⟩]

/-- The mnemonic of an instruction (30_encoding.md R84). -/
def Instr.mnemonic : Instr → String
  | .nop => "NOP"
  | .ldi _ _ => "LDI"
  | .ld _ _ => "LD"
  | .st _ => "ST"
  | .mov _ _ => "MOV"
  | .add _ _ _ => "ADD"
  | .sub _ _ _ => "SUB"
  | .mul _ _ _ => "MUL"
  | .divmod _ _ _ _ => "DIVMOD"
  | .cmp _ _ => "CMP"
  | .modexp _ _ _ _ => "MODEXP"

/-- The instruction the decoder reads from a table word of `nbits` bits, at the default capacity. A command is one 32-bit word
(30_encoding.md R80), so every bit above `nbits` is zero and the word goes to the decoder as it is. -/
def decodeTableWord (nbits w : Nat) : Option Instr :=
  match decode Config.defaultCapacity.val (BitVec.ofNat 32 (w % 2 ^ nbits)) with
  | .ok i => some i
  | .error _ => none

end Sys2Proof
end

