-- ==== Sys2Proof/Machine/State.lean ====
section
/-! DEFINITION. The state of BIGINT-CORE (10_state.md), with the bus's answer and the environment's moves beside it, and the
state after a hardware reset (R39). -/

namespace Sys2Proof.Machine

/-- The faults of 60_exceptions.md R201. A command that raises one is answered by a NEXT state that records it (R203); the
value never stops the machine. -/
inductive FaultCode where
  /-- Code 1: the word does not decode (R205). -/
  | illegalCommand
  /-- Code 2: a source register has `valid = 0` (R206). -/
  | unwrittenOperand
  /-- Code 3: divisor or modulus is zero (R207). -/
  | divisionByZero
  /-- Code 4: SUB with `a < b` (R208). -/
  | arithmeticUnderflow
  /-- Code 5: the exact result of ADD or MUL is `>= BETA^L` (R209). -/
  | capacityOverflow
  deriving DecidableEq, Repr

/-- The compare flags `CMPF` (10_state.md R28). -/
inductive CmpFlag where
  /-- 0: no CMP has executed since reset. -/
  | none
  /-- 1. -/
  | lt
  /-- 2. -/
  | eq
  /-- 3. -/
  | gt
  deriving DecidableEq, Repr

/-- The width of a bus access (20_memory.md R55); only `word` is ever permitted. -/
inductive Width where
  | byte
  | half
  | word
  /-- A burst wider than one word. -/
  | burst
  deriving DecidableEq, Repr

/-- What the bus answers to a transaction (20_memory.md R50). -/
inductive Answer where
  /-- A write was performed. -/
  | ok
  /-- A read was performed and returned a word. -/
  | okData (data : Word)
  /-- The transaction was not permitted: it changed no state and returned no data (60_exceptions.md R214). -/
  | busError
  deriving DecidableEq, Repr

/-- One action of the host (20_memory.md R50): a transaction at byte offset `off` from `BASE`, `0 <= off < 8192`, or the reset
input. -/
inductive HostAction where
  /-- Hardware `Reset`. -/
  | reset
  /-- `BusRead(off)`. -/
  | read (width : Width) (off : BitVec 13)
  /-- `BusWrite(off, w)`. -/
  | write (width : Width) (off : BitVec 13) (w : Word)
  deriving DecidableEq, Repr

/-- One move of the schedule (70_reset_and_hazards.md R234): the core may step, or the host acts. -/
inductive Move where
  | core
  | host (a : HostAction)
  deriving DecidableEq, Repr

/-- Data memory: bytes by their offset in the block, in strictly rising order. An offset that is not listed has not been
written since the last hardware reset. -/
abbrev Memory := List Host.Cell

/-- The canonical form: offsets strictly rising. An unlisted offset reads as no byte at all (`Memory.read` gives `none`), so
no entry can equal what an unlisted offset reads as. -/
abbrev Memory.wf (m : Memory) : Prop := m.Pairwise (fun x y => x.1 < y.1)

/-- The state: the tuple of 10_state.md, the constant field `L` of CAP (R33), and three fields of the model's own (`epoch`,
`moves`, `answer`). -/
structure State where
  /-- `L`, the capacity in limbs, as CAP reports it (R33). No step changes it (log 1). -/
  cap : Capacity
  /-- `B0` to `B7` (R20, R21): `none` when `valid = 0`, else the natural number the register holds. -/
  regs : Vector (Option Nat) 8
  /-- OPBUF (R37): what has been written since the last hardware reset. -/
  mem : Memory
  /-- MODEL'S OWN (log 4): how many hardware resets have happened since power-up. The free value that an unwritten byte of
  OPBUF reads as is applied to it. -/
  epoch : Nat
  /-- `RLEN`, bits 10:0 (R34). -/
  rlen : BitVec 11
  /-- `CMDR`, the last accepted command word (R30). -/
  cmdr : Word
  /-- `PEND`, seen as STATUS.BUSY (R35). -/
  pend : Bool
  /-- `ERR` (R36): `none` is code 0. -/
  err : Option FaultCode
  /-- `CMPF` (R28). -/
  cmpf : CmpFlag
  /-- MODEL'S OWN (log 7): the bus's answer to the latest transaction. -/
  answer : Option Answer
  /-- MODEL'S OWN (log 6): the moves still to come, in order. -/
  moves : List Move
  deriving DecidableEq, Repr

/-- Reasons for the machine itself to stop. BIGINT-CORE has none, so the type has no constructor and no step can answer with
one: a core fault is a next state (60_exceptions.md R203), and so is a refused bus transaction (R214). -/
inductive Fault where
  deriving DecidableEq, Repr

/-- Reasons to give an instruction no meaning. -/
inductive Refusal where
  /-- Raised only by an arm of `exec` whose instruction has no meaning yet; no arm does. Safe: the machine stops. -/
  | notModelled (mnemonic : String)
  deriving DecidableEq, Repr

/-- The state right after a hardware reset at power-up (10_state.md R39, 70_reset_and_hazards.md R230): every register invalid,
no byte of OPBUF written, RLEN, CMDR, PEND, ERR and CMPF zero. `L` is the default capacity of 00_scope.md R6; the three fields
of the model's own are DESIGN CHOICES (log 4, 6, 7). -/
def State.reset : State where
  cap := Config.defaultCapacity
  regs := Vector.replicate 8 none
  mem := []
  epoch := 0
  rlen := 0
  cmdr := 0
  pend := false
  err := none
  cmpf := .none
  answer := none
  moves := []

end Sys2Proof.Machine
end

