-- ==== Sys2Proof/Machine/Ops.lean ====
section
/-! DEFINITION. The named operations over limbs, memory and registers: limbs and values (00_scope.md R9), OPBUF (10_state.md
R37, 20_memory.md R52, R54), register read and write (R22, R23), the core's registers, entering a fault (60_exceptions.md
R203), and the two resets that are the only way out of one (R213; 70_reset_and_hazards.md R230, R231). -/

namespace Sys2Proof.Machine

/-! ## Limbs and values -/

/-- `limb(v, i) = (v div BETA^i) mod BETA` (00_scope.md R9). -/
def limb (v i : Nat) : Nat := v / BETA ^ i % BETA

/-- The limb as the 32-bit word it is. -/
def limbWord (v i : Nat) : Word := BitVec.ofNat 32 (limb v i)

/-- `nlimbs(v)` (00_scope.md R9): 1 for zero, else the `k` with `BETA^(k-1) <= v < BETA^k`, that is, the bit length of `v` in
units of 32 bits, rounded up. -/
def nlimbs (v : Nat) : Nat := v.log2 / 32 + 1

/-- `val(d, k)` (00_scope.md R9): the value of a limb sequence, least significant limb first. -/
def val : List Word → Nat
  | [] => 0
  | d :: ds => d.toNat + BETA * val ds

/-! ## Memory -/

/-- The byte written at an offset, if one has been. -/
def Memory.read : Memory → Nat → Option Byte
  | [], _ => none
  | (k, b) :: m, a => if k = a then some b else Memory.read m a

/-- Bytes as cells at consecutive offsets. -/
def Memory.cells : Nat → List Byte → Memory
  | _, [] => []
  | a, b :: bs => (a, b) :: Memory.cells (a + 1) bs

/-- Write consecutive bytes from an offset, keeping the list in rising order. -/
def Memory.writeBytes (m : Memory) (base : Nat) (bs : List Byte) : Memory :=
  m.filter (fun c => decide (c.1 < base)) ++ Memory.cells base bs ++
    m.filter (fun c => decide (base + bs.length ≤ c.1))

/-- The four bytes of a word in little-endian byte lanes (20_memory.md R54). -/
def wordBytes (w : Word) : List Byte :=
  [w.extractLsb' 0 8, w.extractLsb' 8 8, w.extractLsb' 16 8, w.extractLsb' 24 8]

/-! ## OPBUF -/

/-- `L` of the state (00_scope.md R6). -/
abbrev State.L (s : State) : Nat := s.cap.val

/-- The offset of OPBUF word `i` in the block (10_state.md R29). -/
def opbufOffset (i : Nat) : Nat := 0x1000 + 4 * i

/-- One byte of OPBUF: what was written there since the last hardware reset, else the free value (10_state.md R39). -/
def State.opbufByte (s : State) (a : Nat) : Byte :=
  (Memory.read s.mem a).getD (Config.opbufAfterReset s.epoch a)

/-- `OPBUF[i]` (00_scope.md R10), its four byte lanes put together (20_memory.md R54). -/
def State.opbufWord (s : State) (i : Nat) : Word :=
  s.opbufByte (opbufOffset i + 3) ++ s.opbufByte (opbufOffset i + 2) ++ s.opbufByte (opbufOffset i + 1) ++
    s.opbufByte (opbufOffset i)

/-- `val(OPBUF, n)`, the value of the first `n` words (46_data_movement.md R162). -/
def State.opbufValue (s : State) (n : Nat) : Nat := val ((List.range n).map s.opbufWord)

/-- `OPBUF[i] <- w` (00_scope.md R10). -/
def State.writeOpbufWord (s : State) (i : Nat) (w : Word) : State :=
  { s with mem := s.mem.writeBytes (opbufOffset i) (wordBytes w) }

/-- The bytes of all `L` words `limb(v, 0) .. limb(v, L-1)`, in the order of their offsets. -/
def valueBytes (L v : Nat) : List Byte := (List.range L).flatMap fun i => wordBytes (limbWord v i)

/-- `for i = 0 to L-1: OPBUF[i] <- limb(v, i)` (46_data_movement.md R163): the whole buffer is written. -/
def State.writeOpbufValue (s : State) (v : Nat) : State :=
  { s with mem := s.mem.writeBytes (opbufOffset 0) (valueBytes s.L v) }

/-! ## Registers -/

/-- The content of a BigInt register: `none` when its valid bit is 0 (10_state.md R20). -/
def State.readReg (s : State) (r : Reg) : Option Nat := s.regs[r]

/-- `B[r] <- v` (10_state.md R23): the register becomes valid and holds `v`, whose `len` and limbs are `nlimbs v` and
`limb v`. -/
def State.writeReg (s : State) (r : Reg) (v : Nat) : State := { s with regs := s.regs.set r (some v) }

/-- `RLEN <- n` (10_state.md R34). -/
def State.writeRlen (s : State) (n : Nat) : State := { s with rlen := BitVec.ofNat 11 n }

/-- `CMPF <- c` (10_state.md R28). -/
def State.writeCmpf (s : State) (c : CmpFlag) : State := { s with cmpf := c }

/-- An accepted CMD write: `CMDR <- w`, `PEND <- 1` and nothing else (10_state.md R30). -/
def State.accept (s : State) (w : Word) : State := { s with cmdr := w, pend := true }

/-- What the bus answered. -/
def State.answering (s : State) (a : Option Answer) : State := { s with answer := a }

/-- The schedule after a move has been taken from it. -/
def State.withMoves (s : State) (ms : List Move) : State := { s with moves := ms }

/-! ## Ending a command -/

/-- Phase 5, retire: `PEND <- 0` (60_exceptions.md R202). -/
def State.retire (s : State) : State := { s with pend := false }

/-- ENTERING A FAULT (60_exceptions.md R203): `ERR <- code(F)`, `PEND <- 0` and nothing else. -/
def State.raise (s : State) (f : FaultCode) : State := { s with err := some f, pend := false }

/-- The end of a command that started in `s` (70_reset_and_hazards.md R236): *complete*, the writes are made and the command
retires; or *fault*, entered from `s` itself, so that nothing the command would have written is written. -/
def State.conclude (s : State) (r : Except FaultCode State) : Host.Outcome State Fault Refusal :=
  match r with
  | .ok t => .next t.retire
  | .error f => .next (s.raise f)

/-! ## Leaving a fault: the resets -/

/-- Soft reset (70_reset_and_hazards.md R231): the state of 10_state.md R39, except that OPBUF keeps its contents. `L` is no
state of the core, and the schedule is the environment's. -/
def State.softReset (s : State) : State :=
  { State.reset with cap := s.cap, mem := s.mem, epoch := s.epoch, answer := s.answer, moves := s.moves }

/-- Hardware reset (70_reset_and_hazards.md R230): the state of 10_state.md R39; every word of OPBUF becomes unspecified
afresh. -/
def State.hardReset (s : State) : State :=
  { State.reset with cap := s.cap, epoch := s.epoch + 1, answer := s.answer, moves := s.moves }

end Sys2Proof.Machine
end

