-- ==== Sys2Proof/Machine/Flags.lean ====
section
/-! DEFINITION. The compare flags (10_state.md R28, 44_compare.md R140), the fault codes (60_exceptions.md R201) and the words
the host reads them and the other registers in (10_state.md R31, R33, R34). -/

namespace Sys2Proof.Machine

/-- The outcome of CMP is that of the natural-number order (44_compare.md R140). -/
def compareFlag (a b : Nat) : CmpFlag :=
  if a < b then .lt else if a = b then .eq else .gt

/-- The 2-bit encoding of CMPF (10_state.md R28). -/
def CmpFlag.code : CmpFlag → Nat
  | .none => 0
  | .lt => 1
  | .eq => 2
  | .gt => 3

/-- The numeric fault codes (60_exceptions.md R201). -/
def FaultCode.code : FaultCode → Nat
  | .illegalCommand => 1
  | .unwrittenOperand => 2
  | .divisionByZero => 3
  | .arithmeticUnderflow => 4
  | .capacityOverflow => 5

/-- `ERR` as a number: 0 when no fault is recorded (10_state.md R36). -/
def State.errCode (s : State) : Nat :=
  match s.err with
  | none => 0
  | some f => f.code

/-- `STATUS = PEND + 2*(ERR != 0) + 4*CMPF + 16*ERR` (10_state.md R31). -/
def State.statusWord (s : State) : Word :=
  BitVec.ofNat 32 (s.pend.toNat + 2 * s.err.isSome.toNat + 4 * s.cmpf.code + 16 * s.errCode)

/-- `CAP = 32 + 256*L + 8*2^20` (10_state.md R33). -/
def State.capWord (s : State) : Word := BitVec.ofNat 32 (32 + 256 * s.L + 8 * 2 ^ 20)

/-- The word RLEN is read in: bits 10:0, zeros above (10_state.md R34). -/
def State.rlenWord (s : State) : Word := s.rlen.setWidth 32

end Sys2Proof.Machine
end

