-- ==== Sys2Proof/Machine/Bus.lean ====
section
/-! DEFINITION. The host's step: the register map (10_state.md R29), which transaction is permitted in which state
(20_memory.md R57) and what it does (70_reset_and_hazards.md R235). What is not permitted answers `buserror` and changes
nothing (60_exceptions.md R214). -/

namespace Sys2Proof.Machine

/-- What stands at an offset of the block (10_state.md R29). -/
inductive Target where
  | cmd
  | status
  | ctrl
  | cap
  | rlen
  /-- `OPBUF[i]`, `i < L`. -/
  | opbuf (i : Nat)
  deriving DecidableEq, Repr

/-- The map of 10_state.md R29. Reserved and misaligned offsets (20_memory.md R55) have no target: every register and every
OPBUF word stands at a multiple of 4. -/
def target (L off : Nat) : Option Target :=
  if off = 0x0000 then some .cmd
  else if off = 0x0004 then some .status
  else if off = 0x0008 then some .ctrl
  else if off = 0x000C then some .cap
  else if off = 0x0010 then some .rlen
  else if off % 4 = 0 ∧ 0x1000 ≤ off ∧ off < 0x1000 + 4 * L then some (.opbuf ((off - 0x1000) / 4))
  else none

/-- The target of an access: only a 32-bit access has one (20_memory.md R55). -/
def State.accessTarget (s : State) (width : Width) (off : BitVec 13) : Option Target :=
  match width with
  | .word => target s.L off.toNat
  | .byte => none
  | .half => none
  | .burst => none

/-- `BusRead(off)` (20_memory.md R57, 70_reset_and_hazards.md R235). A read has no side effect (R56), so this is its answer
alone. -/
def State.busRead (s : State) (width : Width) (off : BitVec 13) : Answer :=
  match s.accessTarget width off with
  | some .cmd => .okData s.cmdr
  | some .status => .okData s.statusWord
  | some .ctrl => .okData 0
  | some .cap => .okData s.capWord
  | some .rlen => if s.pend then .busError else .okData s.rlenWord
  | some (.opbuf i) => if s.pend then .busError else .okData (s.opbufWord i)
  | none => .busError

/-- `BusWrite(off, w)` (20_memory.md R57, 70_reset_and_hazards.md R235): the state it leaves, or none when it is not
permitted. -/
def State.busWrite (s : State) (width : Width) (off : BitVec 13) (w : Word) : Option State :=
  match s.accessTarget width off with
  | some .cmd => if s.pend = false ∧ s.err = none then some (s.accept w) else none
  | some .ctrl => if w = 1 then some s.softReset else if w = 0 then some s else none
  | some (.opbuf i) => if s.pend then none else some (s.writeOpbufWord i w)
  | some .status => none
  | some .cap => none
  | some .rlen => none
  | none => none

/-- One step of the host (70_reset_and_hazards.md R235). `Reset` gets back nothing (20_memory.md R66). -/
def State.hostStep (s : State) (a : HostAction) : State :=
  match a with
  | .reset => s.hardReset.answering none
  | .read width off => s.answering (some (s.busRead width off))
  | .write width off w =>
    match s.busWrite width off w with
    | some t => t.answering (some .ok)
    | none => s.answering (some .busError)

end Sys2Proof.Machine
end

