-- ==== Sys2Proof/Machine/Operands.lean ====
section
/-! DEFINITION. The operand forms (30_encoding.md R82, R83): a source register, the immediate of LDI, the limb count of LD,
and the pair of destinations of DIVMOD. Each is read in its phase of 60_exceptions.md R202 and may raise that phase's fault. -/

namespace Sys2Proof

/-- The registers a command reads, in the order of phase 2: the "reads" column of 10_state.md R25. -/
def Instr.sources : Instr → List Reg
  | .nop => []
  | .ldi _ _ => []
  | .ld _ _ => []
  | .st ra => [ra]
  | .mov _ ra => [ra]
  | .add _ ra rb => [ra, rb]
  | .sub _ ra rb => [ra, rb]
  | .mul _ ra rb => [ra, rb]
  | .divmod _ _ ra rb => [ra, rb]
  | .cmp ra rb => [ra, rb]
  | .modexp _ ra rb rc => [ra, rb, rc]

/-- The registers a command writes: the "writes" column of 10_state.md R25. -/
def Instr.dests : Instr → List Reg
  | .nop => []
  | .ldi rd _ => [rd]
  | .ld rd _ => [rd]
  | .st _ => []
  | .mov rd _ => [rd]
  | .add rd _ _ => [rd]
  | .sub rd _ _ => [rd]
  | .mul rd _ _ => [rd]
  | .divmod rq rr _ _ => [rq, rr]
  | .cmp _ _ => []
  | .modexp rd _ _ _ => [rd]

end Sys2Proof

namespace Sys2Proof.Machine

/-- Phase 2, a source register `B[r]`: an invalid one raises `UnwrittenOperand` (10_state.md R22, 60_exceptions.md R206). -/
def State.source (s : State) (r : Reg) : Except FaultCode Nat :=
  match s.readReg r with
  | some v => .ok v
  | none => .error .unwrittenOperand

/-- `zext(imm16)`, a natural in `0..65535` (30_encoding.md R83). -/
def immediate (imm16 : BitVec 16) : Nat := imm16.toNat

/-- Phase 1, the limb count of LD: outside `1..L` the command is illegal (30_encoding.md R83, R85). The decoder passes no such
count; the check gives the term its meaning all the same (log 8). -/
def State.limbCount (s : State) (n : BitVec 12) : Except FaultCode Nat :=
  if 1 ≤ n.toNat ∧ n.toNat ≤ s.L then .ok n.toNat else .error .illegalCommand

/-- Phase 1, the destinations of DIVMOD: equal ones make the command illegal (30_encoding.md R85, 43_divider.md R130; log 8). -/
def distinct (rq rr : Reg) : Except FaultCode Unit :=
  if rq ≠ rr then .ok () else .error .illegalCommand

/-- Phase 3, one check: raise `f` when the condition `bad` holds (60_exceptions.md R202). -/
def failIf (bad : Bool) (f : FaultCode) : Except FaultCode Unit :=
  if bad then .error f else .ok ()

end Sys2Proof.Machine
end

