-- ==== Sys2Proof/Machine/Arithmetic.lean ====
section
/-! DEFINITION. The adder, subtractor, multiplier, divider and comparator: ADD (40_adder.md), SUB (41_subtractor.md), MUL
(42_multiplier.md), DIVMOD (43_divider.md) and CMP (44_compare.md). The value-level rules are the normative ones; the limb-level
procedures stand in Machine/Reference.lean. -/

namespace Sys2Proof.Machine

/-- ADD rd, ra, rb (40_adder.md R100): the exact sum, or `CapacityOverflow`. -/
def execAdd (rd ra rb : Reg) (s : State) : Host.Outcome State Fault Refusal :=
  s.conclude do
    let a ← s.source ra
    let b ← s.source rb
    failIf (BETA ^ s.L ≤ a + b) .capacityOverflow
    return s.writeReg rd (a + b)

/-- SUB rd, ra, rb (41_subtractor.md R110, R111): the exact difference, or `ArithmeticUnderflow`. -/
def execSub (rd ra rb : Reg) (s : State) : Host.Outcome State Fault Refusal :=
  s.conclude do
    let a ← s.source ra
    let b ← s.source rb
    failIf (a < b) .arithmeticUnderflow
    return s.writeReg rd (a - b)

/-- MUL rd, ra, rb (42_multiplier.md R120): the exact product, or `CapacityOverflow`. -/
def execMul (rd ra rb : Reg) (s : State) : Host.Outcome State Fault Refusal :=
  s.conclude do
    let a ← s.source ra
    let b ← s.source rb
    failIf (BETA ^ s.L ≤ a * b) .capacityOverflow
    return s.writeReg rd (a * b)

/-- DIVMOD rq, rr, ra, rb (43_divider.md R130, R133): `a div b` and `a mod b`, or `DivisionByZero`; both are written or
neither. -/
def execDivmod (rq rr ra rb : Reg) (s : State) : Host.Outcome State Fault Refusal :=
  s.conclude do
    distinct rq rr
    let a ← s.source ra
    let b ← s.source rb
    failIf (b = 0) .divisionByZero
    return (s.writeReg rq (a / b)).writeReg rr (a % b)

/-- CMP ra, rb (44_compare.md R140): `CMPF` becomes LT, EQ or GT. -/
def execCmp (ra rb : Reg) (s : State) : Host.Outcome State Fault Refusal :=
  s.conclude do
    let a ← s.source ra
    let b ← s.source rb
    return s.writeCmpf (compareFlag a b)

end Sys2Proof.Machine
end

