-- ==== Sys2Proof/Machine/DataMovement.lean ====
section
/-! DEFINITION. The data movement and system commands: NOP, LDI, LD, ST, MOV (46_data_movement.md). -/

namespace Sys2Proof.Machine

/-- NOP (46_data_movement.md R160): the command retires and nothing else changes. -/
def execNop (s : State) : Host.Outcome State Fault Refusal :=
  s.conclude (.ok s)

/-- LDI rd, imm16 (46_data_movement.md R161): `B[rd] <- zext(imm16)`. -/
def execLdi (rd : Reg) (imm16 : BitVec 16) (s : State) : Host.Outcome State Fault Refusal :=
  s.conclude (.ok (s.writeReg rd (immediate imm16)))

/-- LD rd, n (46_data_movement.md R162): `B[rd] <- val(OPBUF, n)`. -/
def execLd (rd : Reg) (n : BitVec 12) (s : State) : Host.Outcome State Fault Refusal :=
  s.conclude do
    let k ← s.limbCount n
    return s.writeReg rd (s.opbufValue k)

/-- ST ra (46_data_movement.md R163): the value of `B[ra]` fills all `L` words of OPBUF, and `RLEN <- nlimbs(v)`. -/
def execSt (ra : Reg) (s : State) : Host.Outcome State Fault Refusal :=
  s.conclude do
    let v ← s.source ra
    return (s.writeOpbufValue v).writeRlen (nlimbs v)

/-- MOV rd, ra (46_data_movement.md R164): `B[rd] <- B[ra]`. -/
def execMov (rd ra : Reg) (s : State) : Host.Outcome State Fault Refusal :=
  s.conclude do
    let v ← s.source ra
    return s.writeReg rd v

end Sys2Proof.Machine
end

