-- ==== Sys2Proof/Machine/Modexp.lean ====
section
/-! DEFINITION. The modular exponentiation engine: MODEXP (45_modexp.md). The result `a^x mod m` is computed by the spec's own
reference algorithm, square-and-multiply (R151): the contract (R150) taken literally would form the whole power (log 10). -/

namespace Sys2Proof.Machine

/-- The loop of 45_modexp.md R151, `while e > 0`, for at most `fuel` rounds: test the lowest bit of the exponent, multiply the
result when it is set, square the base, halve the exponent. -/
def modPowLoop (m : Nat) : (fuel result base e : Nat) → Nat
  | 0, result, _, _ => result
  | fuel + 1, result, base, e =>
    if e = 0 then result
    else modPowLoop m fuel (if e % 2 = 1 then result * base % m else result) (base * base % m) (e / 2)

/-- 45_modexp.md R151: start from `1 mod m`; the loop runs once per bit of the exponent. -/
def modPow (a x m : Nat) : Nat := modPowLoop m (x.log2 + 1) (1 % m) a x

/-- MODEXP rd, ra, rb, rc (45_modexp.md R150): `B[rd] <- (a ^ x) mod m`, or `DivisionByZero` when `m = 0`. -/
def execModexp (rd ra rb rc : Reg) (s : State) : Host.Outcome State Fault Refusal :=
  s.conclude do
    let a ← s.source ra
    let x ← s.source rb
    let m ← s.source rc
    failIf (m = 0) .divisionByZero
    return s.writeReg rd (modPow a x m)

end Sys2Proof.Machine
end

