-- ==== Sys2Proof/Machine/Dispatch.lean ====
section
/-! DEFINITION. One arm per command. -/

namespace Sys2Proof.Machine

/-- The effect of a decoded command: phases 2 to 5 of 60_exceptions.md R202. -/
def exec (i : Instr) (s : State) : Host.Outcome State Fault Refusal :=
  match i with
  | .nop => Sys2Proof.Machine.execNop s
  | .ldi rd imm16 => Sys2Proof.Machine.execLdi rd imm16 s
  | .ld rd n => Sys2Proof.Machine.execLd rd n s
  | .st ra => Sys2Proof.Machine.execSt ra s
  | .mov rd ra => Sys2Proof.Machine.execMov rd ra s
  | .add rd ra rb => Sys2Proof.Machine.execAdd rd ra rb s
  | .sub rd ra rb => Sys2Proof.Machine.execSub rd ra rb s
  | .mul rd ra rb => Sys2Proof.Machine.execMul rd ra rb s
  | .divmod rq rr ra rb => Sys2Proof.Machine.execDivmod rq rr ra rb s
  | .cmp ra rb => Sys2Proof.Machine.execCmp ra rb s
  | .modexp rd ra rb rc => Sys2Proof.Machine.execModexp rd ra rb rc s

end Sys2Proof.Machine
end

