-- ==== Sys2Proof/Machine/Agents.lean ====
section
/-! DEFINITION. The core's step (70_reset_and_hazards.md R236), and which of the two agents moves next (R234). -/

namespace Sys2Proof.Machine

/-- The command the core executes: `CMDR`, decoded on a core of this capacity (30_encoding.md R86). -/
def State.pendingCommand (s : State) : Except DecodeError Instr := decode s.L s.cmdr

/-- The core's step on the pending word (70_reset_and_hazards.md R236): phase 1 raises `IllegalCommand` for a word that does
not decode (60_exceptions.md R205), else the command runs. -/
def State.coreStep (s : State) : Host.Outcome State Fault Refusal :=
  match s.pendingCommand with
  | .ok i => exec i s
  | .error _ => .next (s.raise .illegalCommand)

/-- The core's move: enabled iff `PEND = 1` (70_reset_and_hazards.md R236); else the core does nothing and holds its state
(60_exceptions.md R216). That the schedule may hold such an idle turn is the model's choice (log 6). -/
def State.coreMove (s : State) : Host.Outcome State Fault Refusal :=
  if s.pend then s.coreStep else .next s

/-- The next move of the schedule (70_reset_and_hazards.md R234). When the host has no more moves it is the core's turn: a
pending command is eventually executed (R237, log 6). -/
def State.nextMove (s : State) : Host.Outcome State Fault Refusal :=
  match s.moves with
  | [] => s.coreMove
  | .core :: rest => (s.withMoves rest).coreMove
  | .host a :: rest => .next ((s.withMoves rest).hostStep a)

/-- The state in which the core has accepted the word `w` and it is the core's turn (log 9): CMDR and PEND as an accepted CMD
write leaves them (10_state.md R30), and the core's step put before the moves still to come. -/
def State.acceptedNext (s : State) (w : Word) : State :=
  (s.accept w).withMoves (.core :: s.moves)

end Sys2Proof.Machine
end

