-- ==== Sys2Proof/Machine/Step.lean ====
section
/-! DEFINITION. One step of the machine, and the state whose next step runs a given word. -/

namespace Sys2Proof.Machine

/-- One step: the next move of the schedule (70_reset_and_hazards.md R234). -/
def step (s : State) : Host.Outcome State Fault Refusal := s.nextMove

/-- The state whose next step executes the table word `w`: the host passes a command by value, so the word goes to CMDR
(10_state.md R30, 20_memory.md R65; log 9). -/
def State.withFetchWord (s : State) (nbits w : Nat) : State :=
  s.acceptedNext (BitVec.ofNat 32 (w % 2 ^ nbits))

end Sys2Proof.Machine
end

