-- ==== Sys2Proof/Machine/Reference.lean ====
section
/-! DEFINITION. The limb-level reference procedures of the spec, on limb sequences, least significant limb first: ADD (40_adder.md
R101), SUB (41_subtractor.md R112), MUL (42_multiplier.md R121), DIVMOD (43_divider.md R132) and CMP (44_compare.md R141). The
value-level rules are normative and are what Machine/Arithmetic.lean executes; these procedures are here to be proved to
compute the same function (43_divider.md R133, 92_eei_decisions.md D26). MODEXP's (45_modexp.md R151) is
`Machine.modPowLoop`. -/

namespace Sys2Proof.Machine

/-- The limbs a register holding `v` consists of: `limb[0]` to `limb[len-1]` (10_state.md R20, R23). -/
def limbsOf (v : Nat) : List Word := (List.range (nlimbs v)).map (limbWord v)

/-- A limb of a sequence as a number; limbs at and above the length read as 0 (10_state.md R21). -/
def limbAt (d : List Word) (i : Nat) : Nat := ((d[i]?).getD 0).toNat

/-- A number below `BETA` as a limb. -/
def toLimb (n : Nat) : Word := BitVec.ofNat 32 n

/-- Without the most significant zero limbs. -/
def stripLimbs : List Word → List Word
  | [] => []
  | d :: ds =>
    match stripLimbs ds with
    | [] => if d = 0 then [] else [d]
    | e :: es => d :: e :: es

/-- `normalize` (00_scope.md R9): strip the most significant zero limbs, keep at least one limb. -/
def normalize (d : List Word) : List Word :=
  match stripLimbs d with
  | [] => [0]
  | e :: es => e :: es

/-! ## ADD -/

/-- The carry chain of 40_adder.md R101 from limb `i` on, for the given number of limbs: the result limbs and the last
carry. -/
def addChain (a b : List Word) : (count i carry : Nat) → List Word × Nat
  | 0, _, c => ([], c)
  | k + 1, i, c =>
    let t := limbAt a i + limbAt b i + c
    let (r, c') := addChain a b k (i + 1) (t / BETA)
    (toLimb (t % BETA) :: r, c')

/-- 40_adder.md R101. -/
def refAdd (L : Nat) (a b : List Word) : Except FaultCode (List Word) :=
  let k := max a.length b.length
  let (r, c) := addChain a b k 0 0
  if c = 1 then
    if k = L then .error .capacityOverflow else .ok (r ++ [toLimb 1])
  else .ok r

/-! ## CMP -/

/-- 44_compare.md R141, the loop: limbs `i-1` down to 0, the most significant differing limb decides. -/
def compareDown (a b : List Word) : Nat → CmpFlag
  | 0 => .eq
  | i + 1 =>
    if limbAt a i < limbAt b i then .lt
    else if limbAt a i > limbAt b i then .gt
    else compareDown a b i

/-- 44_compare.md R141: the shorter is the smaller, else the limbs decide. -/
def refCompare (a b : List Word) : CmpFlag :=
  if a.length < b.length then .lt
  else if a.length > b.length then .gt
  else compareDown a b a.length

/-! ## SUB -/

/-- The borrow chain of 41_subtractor.md R112 from limb `i` on. -/
def subChain (a b : List Word) : (count i borrow : Nat) → List Word
  | 0, _, _ => []
  | k + 1, i, bw =>
    let t : Int := (limbAt a i : Int) - limbAt b i - bw
    if t < 0 then toLimb (t + BETA).toNat :: subChain a b k (i + 1) 1
    else toLimb t.toNat :: subChain a b k (i + 1) 0

/-- 41_subtractor.md R112: compare first, then the borrow chain, then strip. -/
def refSub (a b : List Word) : Except FaultCode (List Word) :=
  if refCompare a b = .lt then .error .arithmeticUnderflow
  else .ok (normalize (subChain a b a.length 0 0))

/-! ## MUL -/

/-- The inner loop of 42_multiplier.md R121, from column `j` on: the accumulator with row `i` added to it, and the carry limb
left over. -/
def mulRow (ai : Nat) (b : List Word) (i : Nat) : (count j carry : Nat) → List Word → List Word × Nat
  | 0, _, c, r => (r, c)
  | k + 1, j, c, r =>
    let t := limbAt r (i + j) + ai * limbAt b j + c
    mulRow ai b i k (j + 1) (t / BETA) (r.set (i + j) (toLimb (t % BETA)))

/-- The outer loop of 42_multiplier.md R121, from row `i` on. -/
def mulRows (a b : List Word) : (count i : Nat) → List Word → List Word
  | 0, _, r => r
  | k + 1, i, r =>
    let (r', c) := mulRow (limbAt a i) b i b.length 0 0 r
    mulRows a b k (i + 1) (r'.set (i + b.length) (toLimb c))

/-- 42_multiplier.md R121: the accumulator of `la + lb` limbs, normalized, then the capacity test. -/
def refMul (L : Nat) (a b : List Word) : Except FaultCode (List Word) :=
  let r := normalize (mulRows a b a.length 0 (List.replicate (a.length + b.length) 0))
  if r.length > L then .error .capacityOverflow else .ok r

/-! ## DIVMOD -/

/-- The binary search of 43_divider.md R132 for the largest digit `d` in `lo .. hi` with `d * b <= r`. -/
def digitSearch (b r : Nat) : (fuel lo hi : Nat) → Nat
  | 0, lo, _ => lo
  | fuel + 1, lo, hi =>
    if lo < hi then
      if (lo + hi + 1) / 2 * b ≤ r then digitSearch b r fuel ((lo + hi + 1) / 2) hi
      else digitSearch b r fuel lo ((lo + hi + 1) / 2 - 1)
    else lo

/-- The loop of 43_divider.md R132 over the limbs `i-1` down to 0 of the dividend, with running remainder `r` and the quotient
digits found so far. The search runs at most 32 iterations a limb. -/
def divLoop (b : Nat) (a : List Word) : (i r : Nat) → List Word → List Word × Nat
  | 0, r, q => (q, r)
  | i + 1, r, q =>
    let r1 := r * BETA + limbAt a i
    let d := digitSearch b r1 32 0 (BETA - 1)
    divLoop b a i (r1 - d * b) (toLimb d :: q)

/-- 43_divider.md R132: the quotient's limbs, normalized, and the remainder. -/
def refDivmod (a : List Word) (b : Nat) : Except FaultCode (List Word × Nat) :=
  if b = 0 then .error .divisionByZero
  else
    let (q, r) := divLoop b a a.length 0 []
    .ok (normalize q, r)

end Sys2Proof.Machine
end

