-- ==== Sys2Proof/Safety.lean ====
section
/-! DEFINITION. The invariant of reachable states, the end of a run (70_reset_and_hazards.md R242), and the comparisons of two
states that statements use. -/

namespace Sys2Proof.Machine

/-- Every valid register holds a value below `BETA^L` (10_state.md R21, R23). -/
def State.regsFit (s : State) : Prop := ∀ (r : Reg) (v : Nat), s.readReg r = some v → v < BETA ^ s.L

/-- Every byte that memory lists stands in the OPBUF window of this capacity (10_state.md R29, R37). -/
def State.memInWindow (s : State) : Prop :=
  ∀ c ∈ s.mem, 0x1000 ≤ c.1 ∧ c.1 < 0x1000 + 4 * s.L

/-- The invariant of every reachable state: registers in range (10_state.md R21), memory in its canonical form and inside the
OPBUF window (R37), `RLEN` in `0..L` (R34), and `PEND = 1` only with `ERR = 0` (60_exceptions.md R203). -/
structure State.Inv (s : State) : Prop where
  regsFit : s.regsFit
  memWf : Memory.wf s.mem
  memInWindow : s.memInWindow
  rlenLe : s.rlen.toNat ≤ s.L
  pendErr : s.pend = true → s.err = none

/-- The same state of the core: everything but the bus's answer and the schedule. -/
def State.sameCore (s t : State) : Prop :=
  (s.withMoves []).answering none = (t.withMoves []).answering none

/-- A run is over when the host has issued its last transaction and no command is pending (70_reset_and_hazards.md R242).
DESIGN CHOICE (log 6): the spec has no core turn while `PEND = 0` (R236), and the model's schedule may still hold such turns,
which change nothing but the schedule; they do not keep a run from being over, so only host actions are asked to be gone. -/
def State.runOver (s : State) : Prop := (∀ m ∈ s.moves, m = .core) ∧ s.pend = false

/-- A good end state (70_reset_and_hazards.md R242). -/
def State.goodEnd (s : State) : Prop := s.runOver ∧ s.err = none

/-- A faulted end state, never a success (70_reset_and_hazards.md R242). -/
def State.faultedEnd (s : State) : Prop := s.runOver ∧ s.err ≠ none

/-- The host actions that reset the core: the reset input and a write of 1 to CTRL (70_reset_and_hazards.md R230, R231). -/
def HostAction.resets : HostAction → Bool
  | .reset => true
  | .read _ _ => false
  | .write width off w => decide (width = .word ∧ off = 0x0008 ∧ w = 1)

end Sys2Proof.Machine
end

