-- ==== Sys2Proof/Certificates/Slice0/Obligations.lean ====
section
/-! DEFINITION. The statements about the model, each from the rules of spec/ its docstring names. `.next` states are written
out field by field where the rule names every field, so that a result statement is also its command's frame. -/

open Sys2Proof Sys2Proof.Machine

/-! ## Encoding (30_encoding.md) -/

/-- 30_encoding.md R81, R84, R86: the decoder reads every command back from its own word, whatever its operands. -/
def Obligations.DecodeEncodeRoundTrip : Prop :=
  ∀ (L : Nat) (i : Instr), i.wellFormed L = true → decode L (encode i) = .ok i

/-- 30_encoding.md R80, R85: a word has at most one meaning, and a decoded command meets its row's extra constraint. -/
def Obligations.EncodeDecodeRoundTrip : Prop :=
  ∀ (L : Nat) (w : Word) (i : Instr), decode L w = .ok i → encode i = w ∧ i.wellFormed L = true

/-- 30_encoding.md R86, case by case. -/
def Obligations.DecoderIsTheProcedure : Prop :=
  ∀ (L : Nat) (w : Word) (i : Instr), decode L w = .ok i ↔
    match i with
    | .nop => field w 31 24 = 0x00 ∧ field w 23 0 = 0
    | .ldi rd imm16 =>
      field w 31 24 = 0x01 ∧ field w 23 20 = rd.val ∧ field w 19 16 = 0 ∧ field w 15 0 = imm16.toNat
    | .ld rd n =>
      field w 31 24 = 0x02 ∧ field w 23 20 = rd.val ∧ field w 19 12 = 0 ∧ field w 11 0 = n.toNat ∧
        1 ≤ field w 11 0 ∧ field w 11 0 ≤ L
    | .st ra => field w 31 24 = 0x03 ∧ field w 23 20 = 0 ∧ field w 19 16 = ra.val ∧ field w 15 0 = 0
    | .mov rd ra =>
      field w 31 24 = 0x04 ∧ field w 23 20 = rd.val ∧ field w 19 16 = ra.val ∧ field w 15 0 = 0
    | .add rd ra rb =>
      field w 31 24 = 0x10 ∧ field w 23 20 = rd.val ∧ field w 19 16 = ra.val ∧ field w 15 12 = rb.val ∧
        field w 11 0 = 0
    | .sub rd ra rb =>
      field w 31 24 = 0x11 ∧ field w 23 20 = rd.val ∧ field w 19 16 = ra.val ∧ field w 15 12 = rb.val ∧
        field w 11 0 = 0
    | .mul rd ra rb =>
      field w 31 24 = 0x12 ∧ field w 23 20 = rd.val ∧ field w 19 16 = ra.val ∧ field w 15 12 = rb.val ∧
        field w 11 0 = 0
    | .divmod rq rr ra rb =>
      field w 31 24 = 0x13 ∧ field w 23 20 = rq.val ∧ field w 19 16 = rr.val ∧ field w 15 12 = ra.val ∧
        field w 11 8 = rb.val ∧ field w 7 0 = 0 ∧ field w 23 20 ≠ field w 19 16
    | .cmp ra rb =>
      field w 31 24 = 0x14 ∧ field w 23 20 = 0 ∧ field w 19 16 = ra.val ∧ field w 15 12 = rb.val ∧
        field w 11 0 = 0
    | .modexp rd ra rb rc =>
      field w 31 24 = 0x20 ∧ field w 23 20 = rd.val ∧ field w 19 16 = ra.val ∧ field w 15 12 = rb.val ∧
        field w 11 8 = rc.val ∧ field w 7 0 = 0

/-- 30_encoding.md R84: a word decodes to a command exactly when it selects that command's row of the opcode map, by the row's
mask, pattern and extra constraint; and the rows are disjoint. -/
def Obligations.DecoderFollowsOpcodeMap : Prop :=
  ∀ (L : Nat) (w : Word),
    (∀ i, decode L w = .ok i → ∃ row ∈ opcodeTable, row.mnemonic = i.mnemonic ∧ row.selects L w = true) ∧
    (∀ row ∈ opcodeTable, row.selects L w = true → ∃ i, decode L w = .ok i ∧ i.mnemonic = row.mnemonic) ∧
    (∀ row ∈ opcodeTable, ∀ row' ∈ opcodeTable,
      row.selects L w = true → row'.selects L w = true → row = row')

/-- 95_test_vectors.md 2.7, 2.8: words written out from the encodings, one of every command, at `L = 128`. -/
def Obligations.SpecWordsDecode : Prop :=
  decode 128 0x00000000 = .ok .nop ∧ decode 128 0x01600100 = .ok (.ldi 6 256) ∧
  decode 128 0x02300002 = .ok (.ld 3 2) ∧ decode 128 0x02000080 = .ok (.ld 0 128) ∧
  decode 128 0x03050000 = .ok (.st 5) ∧ decode 128 0x04560000 = .ok (.mov 5 6) ∧
  decode 128 0x10301000 = .ok (.add 3 0 1) ∧ decode 128 0x11406000 = .ok (.sub 4 0 6) ∧
  decode 128 0x12301000 = .ok (.mul 3 0 1) ∧ decode 128 0x13675200 = .ok (.divmod 6 7 5 2) ∧
  decode 128 0x14070000 = .ok (.cmp 7 0) ∧ decode 128 0x20502300 = .ok (.modexp 5 0 2 3)

/-- 30_encoding.md R85, 60_exceptions.md R205: exactly the words that select no row are illegal, each of the five kinds is; the
CMD write of an illegal word is accepted, and the core's step then raises `IllegalCommand` and changes nothing else. -/
def Obligations.IllegalCommandsFault : Prop :=
  ∀ (s : State) (w : Word),
    ((∃ e, decode s.L w = .error e) ↔ ∀ row ∈ opcodeTable, row.selects s.L w = false) ∧
    (field w 31 24 ∉ [0x00, 0x01, 0x02, 0x03, 0x04, 0x10, 0x11, 0x12, 0x13, 0x14, 0x20] →
      ∃ e, decode s.L w = .error e) ∧
    (field w 31 24 = 0x00 ∧ field w 23 0 ≠ 0 ∨ field w 31 24 = 0x01 ∧ field w 19 16 ≠ 0 ∨
      field w 31 24 = 0x02 ∧ field w 19 12 ≠ 0 ∨
      field w 31 24 = 0x03 ∧ (field w 23 20 ≠ 0 ∨ field w 15 0 ≠ 0) ∨ field w 31 24 = 0x04 ∧ field w 15 0 ≠ 0 ∨
      field w 31 24 ∈ [0x10, 0x11, 0x12] ∧ field w 11 0 ≠ 0 ∨
      field w 31 24 = 0x14 ∧ (field w 23 20 ≠ 0 ∨ field w 11 0 ≠ 0) ∨
      field w 31 24 ∈ [0x13, 0x20] ∧ field w 7 0 ≠ 0 → ∃ e, decode s.L w = .error e) ∧
    (field w 31 24 ∈ [0x01, 0x02, 0x04, 0x10, 0x11, 0x12, 0x13, 0x20] ∧ 8 ≤ field w 23 20 ∨
      field w 31 24 ∈ [0x03, 0x04, 0x10, 0x11, 0x12, 0x13, 0x14, 0x20] ∧ 8 ≤ field w 19 16 ∨
      field w 31 24 ∈ [0x10, 0x11, 0x12, 0x13, 0x14, 0x20] ∧ 8 ≤ field w 15 12 ∨
      field w 31 24 ∈ [0x13, 0x20] ∧ 8 ≤ field w 11 8 → ∃ e, decode s.L w = .error e) ∧
    (field w 31 24 = 0x02 ∧ (field w 11 0 = 0 ∨ s.L < field w 11 0) → ∃ e, decode s.L w = .error e) ∧
    (field w 31 24 = 0x13 ∧ field w 23 20 = field w 19 16 → ∃ e, decode s.L w = .error e) ∧
    (∀ e rest, decode s.L w = .error e → s.pend = false → s.err = none →
      s.moves = .host (.write .word 0x0000 w) :: .core :: rest →
      ∃ t, step s = .next t ∧
        t = { s with cmdr := w, pend := true, answer := some .ok, moves := .core :: rest } ∧
        step t = .next { t with err := some .illegalCommand, pend := false, moves := rest })

/-! ## The step -/

/-- 70_reset_and_hazards.md R234, R236 and the schedule of log 6 (a choice of the model): when it is the core's turn and a
command is pending, the step is `exec` of the command that CMDR decodes to; when none is pending the core holds its state. -/
def Obligations.StepRunsPendingCommand : Prop :=
  ∀ (s : State) (i : Instr) (rest : List Move),
    (s.pend = true → decode s.L s.cmdr = .ok i → s.moves = [] → step s = exec i s) ∧
    (s.pend = true → decode s.L s.cmdr = .ok i → s.moves = .core :: rest →
      step s = exec i { s with moves := rest }) ∧
    (s.pend = false → s.moves = [] → step s = .next s) ∧
    (s.pend = false → s.moves = .core :: rest → step s = .next { s with moves := rest })

/-- 70_reset_and_hazards.md R237: the core step always exists when a command is pending, and every command clears PEND. That
every step of either agent answers a next state is the model's choice: a bus error, for which 60_exceptions.md R214 speaks of
the outcome refused, is a next state (log 7), and the model has no fault or refusal for a step to answer (log 13). -/
def Obligations.EveryStepAnswersNextState : Prop :=
  (∀ s : State, ∃ t, step s = .next t) ∧ ∀ (i : Instr) (s : State), ∃ t, exec i s = .next t ∧ t.pend = false

/-- 60_exceptions.md R203: the core's step on a pending command leaves ERR alone, or does exactly `ERR <- code(F)`, `PEND <- 0`
and nothing else; so `PEND = 1` only ever with `ERR = 0`. -/
def Obligations.FaultEntryIsPrecise : Prop :=
  (∀ (s t : State) (rest : List Move), s.pend = true → s.moves = .core :: rest → step s = .next t →
    t.pend = false ∧ (t.err = s.err ∨ ∃ f, t = { s with err := some f, pend := false, moves := rest })) ∧
  (∀ s t : State, (s.pend = true → s.err = none) → step s = .next t → t.pend = true → t.err = none) ∧
  (State.reset.pend = true → State.reset.err = none)

/-! ## The commands: encoding, faults, result and everything left unchanged -/

/-- 46_data_movement.md R160. -/
def Obligations.NopRule : Prop :=
  ∀ s : State, decode s.L 0x00000000 = .ok .nop ∧ exec .nop s = .next { s with pend := false } ∧
    ∀ w : Word, field w 31 24 = 0x00 → w ≠ 0 → ∃ e, decode s.L w = .error e

/-- 46_data_movement.md R161. -/
def Obligations.LdiRule : Prop :=
  ∀ (s : State) (rd : Reg) (imm16 : BitVec 16),
    (∀ w : Word, w.toNat = 0x01000000 + rd.val * 2 ^ 20 + imm16.toNat → decode s.L w = .ok (.ldi rd imm16)) ∧
    imm16.toNat < BETA ^ s.L ∧ nlimbs imm16.toNat = 1 ∧
    exec (.ldi rd imm16) s = .next { s with regs := s.regs.set rd (some imm16.toNat), pend := false }

/-- 46_data_movement.md R162: the value is the sum of the first `n` words of OPBUF, whatever they hold, written or not; OPBUF and
RLEN stay; a count outside `1..L` is an illegal command. -/
def Obligations.LdRule : Prop :=
  ∀ (s : State) (rd : Reg) (n : BitVec 12),
    (∀ w : Word, w.toNat = 0x02000000 + rd.val * 2 ^ 20 + n.toNat →
      (1 ≤ n.toNat → n.toNat ≤ s.L → decode s.L w = .ok (.ld rd n)) ∧
      (n.toNat = 0 ∨ s.L < n.toNat → ∃ e, decode s.L w = .error e)) ∧
    (1 ≤ n.toNat → n.toNat ≤ s.L →
      (∑ i ∈ Finset.range n.toNat, (s.opbufWord i).toNat * BETA ^ i) < BETA ^ n.toNat ∧
      exec (.ld rd n) s = .next
        { s with
          regs := s.regs.set rd (some (∑ i ∈ Finset.range n.toNat, (s.opbufWord i).toNat * BETA ^ i))
          pend := false })

/-- 46_data_movement.md R163: all `L` words of OPBUF and RLEN are written, and every byte outside the buffer, every register
and everything else is left alone. -/
def Obligations.StRule : Prop :=
  ∀ (s : State) (ra : Reg),
    (∀ w : Word, w.toNat = 0x03000000 + ra.val * 2 ^ 16 → decode s.L w = .ok (.st ra)) ∧
    (s.readReg ra = none →
      exec (.st ra) s = .next { s with err := some .unwrittenOperand, pend := false }) ∧
    ∀ v, s.readReg ra = some v → ∃ t, exec (.st ra) s = .next t ∧
      (∀ i, i < s.L → t.opbufWord i = BitVec.ofNat 32 (v / BETA ^ i % BETA)) ∧
      (∀ a, a < 0x1000 ∨ 0x1000 + 4 * s.L ≤ a → t.opbufByte a = s.opbufByte a) ∧
      (v = 0 → t.rlen = 1) ∧
      (∀ k, 1 ≤ k → BETA ^ (k - 1) ≤ v → v < BETA ^ k → t.rlen = BitVec.ofNat 11 k) ∧
      t = { s with mem := t.mem, rlen := t.rlen, pend := false }

/-- 46_data_movement.md R164. -/
def Obligations.MovRule : Prop :=
  ∀ (s : State) (rd ra : Reg),
    (∀ w : Word, w.toNat = 0x04000000 + rd.val * 2 ^ 20 + ra.val * 2 ^ 16 → decode s.L w = .ok (.mov rd ra)) ∧
    (s.readReg ra = none →
      exec (.mov rd ra) s = .next { s with err := some .unwrittenOperand, pend := false }) ∧
    ∀ v, s.readReg ra = some v →
      exec (.mov rd ra) s = .next { s with regs := s.regs.set rd (some v), pend := false }

/-- 40_adder.md R100. -/
def Obligations.AddRule : Prop :=
  ∀ (s : State) (rd ra rb : Reg),
    (∀ w : Word, w.toNat = 0x10000000 + rd.val * 2 ^ 20 + ra.val * 2 ^ 16 + rb.val * 2 ^ 12 →
      decode s.L w = .ok (.add rd ra rb)) ∧
    (s.readReg ra = none ∨ s.readReg rb = none →
      exec (.add rd ra rb) s = .next { s with err := some .unwrittenOperand, pend := false }) ∧
    ∀ a b, s.readReg ra = some a → s.readReg rb = some b →
      (BETA ^ s.L ≤ a + b →
        exec (.add rd ra rb) s = .next { s with err := some .capacityOverflow, pend := false }) ∧
      (a + b < BETA ^ s.L →
        exec (.add rd ra rb) s = .next { s with regs := s.regs.set rd (some (a + b)), pend := false })

/-- 41_subtractor.md R110, R111: never a wrapped value, never a saturated one, never `CapacityOverflow`. -/
def Obligations.SubRule : Prop :=
  ∀ (s : State) (rd ra rb : Reg),
    (∀ w : Word, w.toNat = 0x11000000 + rd.val * 2 ^ 20 + ra.val * 2 ^ 16 + rb.val * 2 ^ 12 →
      decode s.L w = .ok (.sub rd ra rb)) ∧
    (s.readReg ra = none ∨ s.readReg rb = none →
      exec (.sub rd ra rb) s = .next { s with err := some .unwrittenOperand, pend := false }) ∧
    ∀ a b, s.readReg ra = some a → s.readReg rb = some b →
      (a < b → exec (.sub rd ra rb) s = .next { s with err := some .arithmeticUnderflow, pend := false }) ∧
      (∀ c, a = b + c →
        exec (.sub rd ra rb) s = .next { s with regs := s.regs.set rd (some c), pend := false })

/-- 42_multiplier.md R120. -/
def Obligations.MulRule : Prop :=
  ∀ (s : State) (rd ra rb : Reg),
    (∀ w : Word, w.toNat = 0x12000000 + rd.val * 2 ^ 20 + ra.val * 2 ^ 16 + rb.val * 2 ^ 12 →
      decode s.L w = .ok (.mul rd ra rb)) ∧
    (s.readReg ra = none ∨ s.readReg rb = none →
      exec (.mul rd ra rb) s = .next { s with err := some .unwrittenOperand, pend := false }) ∧
    ∀ a b, s.readReg ra = some a → s.readReg rb = some b →
      (BETA ^ s.L ≤ a * b →
        exec (.mul rd ra rb) s = .next { s with err := some .capacityOverflow, pend := false }) ∧
      (a * b < BETA ^ s.L →
        exec (.mul rd ra rb) s = .next { s with regs := s.regs.set rd (some (a * b)), pend := false }) ∧
      (0 < a → 0 < b →
        nlimbs (a * b) = nlimbs a + nlimbs b ∨ nlimbs (a * b) = nlimbs a + nlimbs b - 1)

/-- 43_divider.md R130: quotient and remainder are the unique pair with `a = q*b + r` and `r < b`; both are written or
neither. -/
def Obligations.DivmodRule : Prop :=
  ∀ (s : State) (rq rr ra rb : Reg),
    (∀ w : Word, w.toNat = 0x13000000 + rq.val * 2 ^ 20 + rr.val * 2 ^ 16 + ra.val * 2 ^ 12 + rb.val * 2 ^ 8 →
      (rq ≠ rr → decode s.L w = .ok (.divmod rq rr ra rb)) ∧ (rq = rr → ∃ e, decode s.L w = .error e)) ∧
    (rq ≠ rr →
      (s.readReg ra = none ∨ s.readReg rb = none →
        exec (.divmod rq rr ra rb) s = .next { s with err := some .unwrittenOperand, pend := false }) ∧
      ∀ a b, s.readReg ra = some a → s.readReg rb = some b →
        (b = 0 →
          exec (.divmod rq rr ra rb) s = .next { s with err := some .divisionByZero, pend := false }) ∧
        (b ≠ 0 → ∃ q r, a = q * b + r ∧ r < b ∧ (∀ q' r', a = q' * b + r' → r' < b → q' = q ∧ r' = r) ∧
          exec (.divmod rq rr ra rb) s = .next
            { s with regs := (s.regs.set rq (some q)).set rr (some r), pend := false }))

/-- 44_compare.md R140. -/
def Obligations.CmpRule : Prop :=
  ∀ (s : State) (ra rb : Reg),
    (∀ w : Word, w.toNat = 0x14000000 + ra.val * 2 ^ 16 + rb.val * 2 ^ 12 → decode s.L w = .ok (.cmp ra rb)) ∧
    (s.readReg ra = none ∨ s.readReg rb = none →
      exec (.cmp ra rb) s = .next { s with err := some .unwrittenOperand, pend := false }) ∧
    ∀ a b, s.readReg ra = some a → s.readReg rb = some b →
      (a < b → exec (.cmp ra rb) s = .next { s with cmpf := .lt, pend := false }) ∧
      (a = b → exec (.cmp ra rb) s = .next { s with cmpf := .eq, pend := false }) ∧
      (b < a → exec (.cmp ra rb) s = .next { s with cmpf := .gt, pend := false })

/-- 45_modexp.md R150: the contract `a^x mod m`, with `a^0 = 1` for every `a`. -/
def Obligations.ModexpRule : Prop :=
  ∀ (s : State) (rd ra rb rc : Reg),
    (∀ w : Word, w.toNat = 0x20000000 + rd.val * 2 ^ 20 + ra.val * 2 ^ 16 + rb.val * 2 ^ 12 + rc.val * 2 ^ 8 →
      decode s.L w = .ok (.modexp rd ra rb rc)) ∧
    (s.readReg ra = none ∨ s.readReg rb = none ∨ s.readReg rc = none →
      exec (.modexp rd ra rb rc) s = .next { s with err := some .unwrittenOperand, pend := false }) ∧
    ∀ a x m, s.readReg ra = some a → s.readReg rb = some x → s.readReg rc = some m →
      (m = 0 →
        exec (.modexp rd ra rb rc) s = .next { s with err := some .divisionByZero, pend := false }) ∧
      (m ≠ 0 →
        exec (.modexp rd ra rb rc) s = .next { s with regs := s.regs.set rd (some (a ^ x % m)), pend := false })

/-! ## Which fault, and when (60_exceptions.md) -/

/-- 60_exceptions.md R206: a source register that nothing has written since the last reset, and nothing else, raises
`UnwrittenOperand`; an invalid destination is fine. -/
def Obligations.UnwrittenOperandFault : Prop :=
  (∀ (i : Instr) (s : State), i.wellFormed s.L = true → (∃ r ∈ i.sources, s.readReg r = none) →
    exec i s = .next { s with err := some .unwrittenOperand, pend := false }) ∧
  (∀ (i : Instr) (s t : State), s.err = none → exec i s = .next t → t.err = some .unwrittenOperand →
    ∃ r ∈ i.sources, s.readReg r = none) ∧
  (∀ (rd : Reg) (imm16 : BitVec 16) (n : BitVec 12),
    Instr.nop.sources = [] ∧ (Instr.ldi rd imm16).sources = [] ∧ (Instr.ld rd n).sources = [])

/-- 60_exceptions.md R207: DIVMOD by a zero divisor and MODEXP with a zero modulus, whatever the other operands, and no other
command. -/
def Obligations.DivisionByZeroFault : Prop :=
  (∀ (s : State) (rq rr ra rb : Reg) (a : Nat), rq ≠ rr → s.readReg ra = some a → s.readReg rb = some 0 →
    exec (.divmod rq rr ra rb) s = .next { s with err := some .divisionByZero, pend := false }) ∧
  (∀ (s : State) (rd ra rb rc : Reg) (a x : Nat), s.readReg ra = some a → s.readReg rb = some x →
    s.readReg rc = some 0 →
    exec (.modexp rd ra rb rc) s = .next { s with err := some .divisionByZero, pend := false }) ∧
  (∀ (i : Instr) (s t : State), s.err = none → exec i s = .next t → t.err = some .divisionByZero →
    (∃ rq rr ra rb, i = .divmod rq rr ra rb ∧ s.readReg rb = some 0) ∨
      (∃ rd ra rb rc, i = .modexp rd ra rb rc ∧ s.readReg rc = some 0))

/-- 60_exceptions.md R208: SUB with `a < b`, and no other command. -/
def Obligations.ArithmeticUnderflowFault : Prop :=
  (∀ (s : State) (rd ra rb : Reg) (a b : Nat), s.readReg ra = some a → s.readReg rb = some b → a < b →
    exec (.sub rd ra rb) s = .next { s with err := some .arithmeticUnderflow, pend := false }) ∧
  (∀ (i : Instr) (s t : State), s.err = none → exec i s = .next t → t.err = some .arithmeticUnderflow →
    ∃ rd ra rb a b, i = .sub rd ra rb ∧ s.readReg ra = some a ∧ s.readReg rb = some b ∧ a < b)

/-- 60_exceptions.md R209: ADD and MUL whose exact result is `>= BETA^L`, and no other command. -/
def Obligations.CapacityOverflowFault : Prop :=
  (∀ (s : State) (rd ra rb : Reg) (a b : Nat), s.readReg ra = some a → s.readReg rb = some b →
    (BETA ^ s.L ≤ a + b →
      exec (.add rd ra rb) s = .next { s with err := some .capacityOverflow, pend := false }) ∧
    (BETA ^ s.L ≤ a * b →
      exec (.mul rd ra rb) s = .next { s with err := some .capacityOverflow, pend := false })) ∧
  (∀ (i : Instr) (s t : State), s.err = none → exec i s = .next t → t.err = some .capacityOverflow →
    ∃ rd ra rb a b, s.readReg ra = some a ∧ s.readReg rb = some b ∧
      (i = .add rd ra rb ∧ BETA ^ s.L ≤ a + b ∨ i = .mul rd ra rb ∧ BETA ^ s.L ≤ a * b))

/-- 60_exceptions.md R211: the first fault in phase order, `IllegalCommand` before `UnwrittenOperand` before the value checks. -/
def Obligations.FirstPhaseFaultWins : Prop :=
  ∀ (s : State) (rest : List Move), s.pend = true → s.moves = .core :: rest →
    (∀ e, decode s.L s.cmdr = .error e →
      step s = .next { s with err := some .illegalCommand, pend := false, moves := rest }) ∧
    (∀ i r, decode s.L s.cmdr = .ok i → r ∈ i.sources → s.readReg r = none →
      step s = .next { s with err := some .unwrittenOperand, pend := false, moves := rest })

/-- 30_encoding.md R85 and log 8 (a choice of the model): a term that no word decodes to, LD with a count outside `1..L` or
DIVMOD with equal destinations, is an illegal command too. -/
def Obligations.IllFormedTermsAreIllegalCommands : Prop :=
  ∀ (i : Instr) (s : State), i.wellFormed s.L = false →
    exec i s = .next { s with err := some .illegalCommand, pend := false }

/-! ## What a command reads and writes (10_state.md R24, R25) -/

/-- 10_state.md R25, "writes": registers only the destinations, OPBUF and RLEN only ST, CMPF only CMP; CMDR, L, the reset
counter, the bus's answer and the schedule no command. -/
def Obligations.CommandsWriteOnlyTheirDestinations : Prop :=
  ∀ (i : Instr) (s t : State), exec i s = .next t →
    (∀ r, r ∉ i.dests → t.readReg r = s.readReg r) ∧
    ((∀ ra, i ≠ .st ra) → t.rlen = s.rlen ∧ ∀ a, t.opbufByte a = s.opbufByte a) ∧
    (∀ a, a < 0x1000 ∨ 0x1000 + 4 * s.L ≤ a → t.opbufByte a = s.opbufByte a) ∧
    ((∀ ra rb, i ≠ .cmp ra rb) → t.cmpf = s.cmpf) ∧
    t.cmdr = s.cmdr ∧ t.cap = s.cap ∧ t.epoch = s.epoch ∧ t.answer = s.answer ∧ t.moves = s.moves

/-- 10_state.md R25, "reads": two states that agree on the registers a command reads (and, for LD, on OPBUF) raise the same
fault, or are given the same results. -/
def Obligations.CommandsReadOnlyTheirSources : Prop :=
  ∀ (i : Instr) (s s' t t' : State), s.cap = s'.cap → s.err = none → s'.err = none →
    (∀ r ∈ i.sources, s.readReg r = s'.readReg r) →
    ((∃ rd n, i = .ld rd n) → ∀ a, s.opbufByte a = s'.opbufByte a) →
    exec i s = .next t → exec i s' = .next t' →
    t.err = t'.err ∧
    (t.err = none →
      (∀ r ∈ i.dests, t.readReg r = t'.readReg r) ∧
      (∀ ra, i = .st ra → t.rlen = t'.rlen ∧
        ∀ a, 0x1000 ≤ a → a < 0x1000 + 4 * s.L → t.opbufByte a = t'.opbufByte a) ∧
      (∀ ra rb, i = .cmp ra rb → t.cmpf = t'.cmpf))

/-- 10_state.md R23: a register, once valid, stays valid until reset. -/
def Obligations.ValidRegistersStayValid : Prop :=
  ∀ s t : State, step s = .next t → (∀ a rest, s.moves = .host a :: rest → a.resets = false) →
    ∀ (r : Reg) (v : Nat), s.readReg r = some v → ∃ u, t.readReg r = some u

/-! ## Flags, RLEN, PEND, ERR -/

/-- 10_state.md R28: CMPF is STATUS bits 3:2 in the encoding given; only a CMP that completes and reset write it; no command
reads it. -/
def Obligations.FlagsWrittenOnlyByCompare : Prop :=
  (∀ s t : State, step s = .next t → t.cmpf ≠ s.cmpf →
    (∃ ra rb a b, s.pend = true ∧ decode s.L s.cmdr = .ok (.cmp ra rb) ∧
      s.readReg ra = some a ∧ s.readReg rb = some b ∧ t.err = s.err) ∨
    (∃ a rest, s.moves = .host a :: rest ∧ a.resets = true ∧ t.cmpf = .none)) ∧
  (∀ (i : Instr) (s t : State) (c : CmpFlag), exec i s = .next t →
    ∃ d, exec i { s with cmpf := c } = .next { t with cmpf := d }) ∧
  (∀ s : State, field s.statusWord 3 2 =
    match s.cmpf with
    | .none => 0
    | .lt => 1
    | .eq => 2
    | .gt => 3)

/-- 10_state.md R34: RLEN holds `0..L`, is written only by a completed ST, which leaves the length of its operand, and by
reset; it is read only while no command is pending, with zeros above bit 10; the host cannot write it. -/
def Obligations.LengthWrittenOnlyByStore : Prop :=
  ∀ s t : State, s.Inv → step s = .next t →
    t.rlen.toNat ≤ t.L ∧
    (t.rlen ≠ s.rlen →
      (∃ ra v, s.pend = true ∧ decode s.L s.cmdr = .ok (.st ra) ∧ s.readReg ra = some v ∧
        t.rlen.toNat = nlimbs v ∧ 1 ≤ t.rlen.toNat) ∨
      (∃ a rest, s.moves = .host a :: rest ∧ a.resets = true ∧ t.rlen = 0)) ∧
    (∀ ra v rest, s.moves = .core :: rest → s.pend = true → decode s.L s.cmdr = .ok (.st ra) →
      s.readReg ra = some v → t.rlen.toNat = nlimbs v) ∧
    (∀ rest, s.moves = .host (.read .word 0x0010) :: rest →
      (s.pend = true → t.answer = some .busError) ∧
      (s.pend = false → ∃ w : Word, t.answer = some (.okData w) ∧ field w 10 0 = s.rlen.toNat ∧ field w 31 11 = 0)) ∧
    (∀ width w rest, s.moves = .host (.write width 0x0010 w) :: rest →
      t = { s with answer := some .busError, moves := rest })

/-- 10_state.md R35: PEND is STATUS.BUSY; it is set by an accepted CMD write and by nothing else, cleared by the core's step
whether the command completes or faults, and by reset, and by nothing else. -/
def Obligations.PendLifecycle : Prop :=
  ∀ s t : State, step s = .next t →
    field s.statusWord 0 0 = s.pend.toNat ∧
    (∀ w rest, s.moves = .host (.write .word 0x0000 w) :: rest → s.pend = false → s.err = none →
      t.pend = true ∧ t.cmdr = w) ∧
    (s.pend = false → t.pend = true → ∃ w rest, s.moves = .host (.write .word 0x0000 w) :: rest ∧
      s.err = none ∧ t.cmdr = w) ∧
    (∀ rest, s.moves = .core :: rest → t.pend = false) ∧
    (∀ a rest, s.moves = .host a :: rest → a.resets = true → t.pend = false) ∧
    (∀ a rest, s.moves = .host a :: rest → a.resets = false → s.pend = true → t.pend = true ∧ t.cmdr = s.cmdr)

/-- 60_exceptions.md R213, 10_state.md R36: once a fault is recorded, no step but a reset changes ERR, CMDR, a register, RLEN or
CMPF, no command is accepted, and OPBUF changes only by the host's own writes; RLEN and STATUS can still be read; a reset clears
ERR and every register. -/
def Obligations.FaultIsStickyUntilReset : Prop :=
  ∀ (s t : State) (f : FaultCode), s.err = some f → s.pend = false → step s = .next t →
    ((∀ a rest, s.moves = .host a :: rest → a.resets = false) →
      t.err = some f ∧ t.pend = false ∧ t.regs = s.regs ∧ t.rlen = s.rlen ∧ t.cmpf = s.cmpf ∧ t.cmdr = s.cmdr ∧
      ((∀ off w rest, s.moves ≠ .host (.write .word off w) :: rest) → t.mem = s.mem ∧ t.epoch = s.epoch)) ∧
    (∀ w rest, s.moves = .host (.write .word 0x0000 w) :: rest →
      t = { s with answer := some .busError, moves := rest }) ∧
    (∀ rest, s.moves = .host (.read .word 0x0010) :: rest → t.answer = some (.okData s.rlenWord)) ∧
    (∀ rest, s.moves = .host (.read .word 0x0004) :: rest → t.answer = some (.okData s.statusWord)) ∧
    (∀ off i rest, off.toNat = 0x1000 + 4 * i → i < s.L → s.moves = .host (.read .word off) :: rest →
      t.answer = some (.okData (s.opbufWord i))) ∧
    (∀ a rest, s.moves = .host a :: rest → a.resets = true → t.err = none ∧ ∀ r, t.readReg r = none)

/-! ## Invariants -/

/-- 10_state.md R39: the state after reset meets the invariant. -/
def Obligations.ResetMeetsInvariant : Prop := State.reset.Inv

/-- 10_state.md R21, R34, R37, 60_exceptions.md R203: every step, of either agent, keeps every register in range, memory in its
canonical form and inside the OPBUF window, `RLEN <= L`, and `PEND = 1` only with `ERR = 0`. -/
def Obligations.EveryStepKeepsInvariant : Prop :=
  ∀ s t : State, s.Inv → step s = .next t → t.Inv

/-- 10_state.md R33, 92_eei_decisions.md D28: L does not change at run time. -/
def Obligations.CapacityIsConstant : Prop := ∀ s t : State, step s = .next t → t.cap = s.cap

/-- 10_state.md R21: in a state that meets the invariant every valid register is normalized: at least one limb, no more than L,
no high zero limb beyond the first, zeros above its length; and its value is the value of its limbs. -/
def Obligations.ValidRegistersAreNormalized : Prop :=
  ∀ s : State, s.Inv → ∀ (r : Reg) (v : Nat), s.readReg r = some v →
    1 ≤ nlimbs v ∧ nlimbs v ≤ s.L ∧ (1 < nlimbs v → limb v (nlimbs v - 1) ≠ 0) ∧
    (∀ j, nlimbs v ≤ j → limb v j = 0) ∧ (v = 0 → nlimbs v = 1 ∧ limb v 0 = 0) ∧
    (∑ j ∈ Finset.range (nlimbs v), limb v j * BETA ^ j) = v

/-! ## Reset (10_state.md R39, 70_reset_and_hazards.md) -/

/-- 10_state.md R39, 70_reset_and_hazards.md R233: after reset every register is invalid, RLEN, CMDR, PEND and ERR are 0, CMPF is
NONE and STATUS reads 0; no byte of OPBUF has been written, so each is the free value. The values of `cap`, `epoch`, `moves` and
`answer` at reset are the model's choices (logs 1, 4, 6, 7) and are not stated. -/
def Obligations.ResetState : Prop :=
  (∀ r, State.reset.readReg r = none) ∧ State.reset.rlen = 0 ∧ State.reset.cmdr = 0 ∧ State.reset.pend = false ∧
    State.reset.err = none ∧ State.reset.cmpf = .none ∧ State.reset.statusWord = 0 ∧
    ∀ a, State.reset.opbufByte a = Config.opbufAfterReset State.reset.epoch a

/-- 70_reset_and_hazards.md R230: the reset input, in any state. Every word of OPBUF becomes unspecified afresh: the free value
applied to a new count of resets. -/
def Obligations.HardwareResetEffect : Prop :=
  ∀ (s : State) (rest : List Move), s.moves = .host .reset :: rest → ∃ t, step s = .next t ∧
    (∀ r, t.readReg r = none) ∧ t.rlen = 0 ∧ t.cmdr = 0 ∧ t.pend = false ∧ t.err = none ∧ t.cmpf = .none ∧
    t.cap = s.cap ∧ t.epoch ≠ s.epoch ∧ (∀ a, t.opbufByte a = Config.opbufAfterReset t.epoch a) ∧
    t.answer = none ∧ t.moves = rest

/-- 70_reset_and_hazards.md R231: a write of 1 to CTRL, idle, busy or faulted: the same, except that OPBUF keeps its contents;
it answers `ok`. No step but one of the two resets leaves the faulted state. -/
def Obligations.SoftResetEffect : Prop :=
  (∀ (s : State) (rest : List Move), s.moves = .host (.write .word 0x0008 1) :: rest → ∃ t, step s = .next t ∧
    (∀ r, t.readReg r = none) ∧ t.rlen = 0 ∧ t.cmdr = 0 ∧ t.pend = false ∧ t.err = none ∧ t.cmpf = .none ∧
    t.cap = s.cap ∧ (∀ a, t.opbufByte a = s.opbufByte a) ∧ t.answer = some .ok ∧ t.moves = rest) ∧
  (∀ s t : State, s.err ≠ none → step s = .next t → t.err = none →
    ∃ rest, s.moves = .host (.write .word 0x0008 1) :: rest ∨ s.moves = .host .reset :: rest)

/-- 70_reset_and_hazards.md R232: a command pending when either reset comes is discarded: what the reset leaves is what it would
have left with any other command, or none, pending. The one visible case: an ST that the core executed before a soft reset has
rewritten OPBUF, and one that the reset discarded has not. -/
def Obligations.ResetDiscardsPendingCommand : Prop :=
  (∀ (s : State) (a : HostAction) (rest : List Move) (w : Word) (p : Bool), a.resets = true →
    s.moves = .host a :: rest → step s = step { s with cmdr := w, pend := p }) ∧
  (∀ (s : State) (ra : Reg) (v : Nat) (rest : List Move), s.pend = true → decode s.L s.cmdr = .ok (.st ra) →
    s.readReg ra = some v →
    (s.moves = .core :: .host (.write .word 0x0008 1) :: rest → ∃ t u, step s = .next t ∧ step t = .next u ∧
      ∀ i, i < s.L → u.opbufWord i = BitVec.ofNat 32 (v / BETA ^ i % BETA)) ∧
    (s.moves = .host (.write .word 0x0008 1) :: rest → ∃ u, step s = .next u ∧ u.pend = false ∧
      ∀ a, u.opbufByte a = s.opbufByte a))

/-! ## The bus (20_memory.md, 70_reset_and_hazards.md R235) -/

/-- 70_reset_and_hazards.md R235, 20_memory.md R57, 10_state.md R32: every transaction in every state, its answer and its
effect; what is not listed answers `buserror` and changes nothing. -/
def Obligations.HostStepEffects : Prop :=
  ∀ (s : State) (rest : List Move),
    (∀ w, s.moves = .host (.write .word 0x0008 w) :: rest → step s = .next
      (if w = 1 then
        { s with
          regs := State.reset.regs, rlen := 0, cmdr := 0, pend := false, err := none, cmpf := .none
          answer := some .ok, moves := rest }
      else if w = 0 then { s with answer := some .ok, moves := rest }
      else { s with answer := some .busError, moves := rest })) ∧
    (∀ w, s.moves = .host (.write .word 0x0000 w) :: rest → step s = .next
      (if s.pend = false ∧ s.err = none then
        { s with cmdr := w, pend := true, answer := some .ok, moves := rest }
      else { s with answer := some .busError, moves := rest })) ∧
    (∀ off i w, off.toNat = 0x1000 + 4 * i → i < s.L → s.moves = .host (.write .word off w) :: rest →
      (s.pend = true → step s = .next { s with answer := some .busError, moves := rest }) ∧
      (s.pend = false → ∃ t, step s = .next t ∧ t.opbufWord i = w ∧
        (∀ a, a < 0x1000 + 4 * i ∨ 0x1000 + 4 * i + 4 ≤ a → t.opbufByte a = s.opbufByte a) ∧
        t = { s with mem := t.mem, answer := some .ok, moves := rest })) ∧
    (s.moves = .host (.read .word 0x0000) :: rest →
      step s = .next { s with answer := some (.okData s.cmdr), moves := rest }) ∧
    (s.moves = .host (.read .word 0x0004) :: rest →
      step s = .next { s with answer := some (.okData s.statusWord), moves := rest }) ∧
    (s.moves = .host (.read .word 0x0008) :: rest →
      step s = .next { s with answer := some (.okData 0), moves := rest }) ∧
    (s.moves = .host (.read .word 0x000C) :: rest →
      step s = .next { s with answer := some (.okData s.capWord), moves := rest }) ∧
    (s.moves = .host (.read .word 0x0010) :: rest → step s = .next
      { s with answer := some (if s.pend then .busError else .okData (s.rlen.setWidth 32)), moves := rest }) ∧
    (∀ off i, off.toNat = 0x1000 + 4 * i → i < s.L → s.moves = .host (.read .word off) :: rest → step s = .next
      { s with answer := some (if s.pend then .busError else .okData (s.opbufWord i)), moves := rest }) ∧
    (∀ width off, s.moves = .host (.read width off) :: rest →
      (width ≠ .word ∨
        off ∉ [0x0000, 0x0004, 0x0008, 0x000C, 0x0010] ∧ ∀ i, i < s.L → off.toNat ≠ 0x1000 + 4 * i) →
      step s = .next { s with answer := some .busError, moves := rest }) ∧
    (∀ width off w, s.moves = .host (.write width off w) :: rest →
      (width ≠ .word ∨ off ∉ [0x0000, 0x0008] ∧ ∀ i, i < s.L → off.toNat ≠ 0x1000 + 4 * i) →
      step s = .next { s with answer := some .busError, moves := rest })

/-- 10_state.md R31: the fields of STATUS, readable at any time, zeros above bit 7; it is read-only. -/
def Obligations.StatusRegisterFields : Prop :=
  ∀ (s : State) (rest : List Move),
    (s.moves = .host (.read .word 0x0004) :: rest → ∃ w : Word,
      step s = .next { s with answer := some (.okData w), moves := rest } ∧
      field w 0 0 = s.pend.toNat ∧ field w 1 1 = s.err.isSome.toNat ∧ field w 3 2 = s.cmpf.code ∧
      field w 7 4 =
        (match s.err with
        | none => 0
        | some .illegalCommand => 1
        | some .unwrittenOperand => 2
        | some .divisionByZero => 3
        | some .arithmeticUnderflow => 4
        | some .capacityOverflow => 5) ∧
      field w 31 8 = 0 ∧
      w.toNat = s.pend.toNat + 2 * s.err.isSome.toNat + 4 * s.cmpf.code + 16 * s.errCode) ∧
    (∀ width v, s.moves = .host (.write width 0x0004 v) :: rest →
      step s = .next { s with answer := some .busError, moves := rest })

/-- 10_state.md R33: the fields of CAP, a constant, readable at any time; it is read-only. -/
def Obligations.CapRegisterFields : Prop :=
  ∀ (s : State) (rest : List Move),
    (s.moves = .host (.read .word 0x000C) :: rest → ∃ w : Word,
      step s = .next { s with answer := some (.okData w), moves := rest } ∧
      field w 7 0 = 32 ∧ field w 19 8 = s.L ∧ field w 23 20 = 8 ∧ field w 31 24 = 0 ∧
      w.toNat = 32 + 256 * s.L + 8 * 2 ^ 20 ∧ 1 ≤ s.L ∧ s.L ≤ 1024) ∧
    (∀ width v, s.moves = .host (.write width 0x000C v) :: rest →
      step s = .next { s with answer := some .busError, moves := rest })

/-- 20_memory.md R55: a byte, halfword or burst access, a misaligned one and one to a reserved offset answer `buserror` and
change nothing. -/
def Obligations.OnlyAlignedWordAccesses : Prop :=
  ∀ (s : State) (rest : List Move) (width : Width) (off : BitVec 13) (w : Word),
    (width ≠ .word ∨ off.toNat % 4 ≠ 0 ∨ (0x0014 ≤ off.toNat ∧ off.toNat < 0x1000) ∨ 0x1000 + 4 * s.L ≤ off.toNat) →
    (s.moves = .host (.read width off) :: rest →
      step s = .next { s with answer := some .busError, moves := rest }) ∧
    (s.moves = .host (.write width off w) :: rest →
      step s = .next { s with answer := some .busError, moves := rest })

/-- 20_memory.md R50, R56, 60_exceptions.md R214: a transaction that answers `buserror` changes no state of the core, and no
read does. -/
def Obligations.BusErrorsAndReadsChangeNothing : Prop :=
  ∀ (s t : State) (a : HostAction) (rest : List Move), s.moves = .host a :: rest → step s = .next t →
    (t.answer = some .busError → t = { s with answer := some .busError, moves := rest }) ∧
    (∀ width off, a = .read width off → t = { s with answer := t.answer, moves := rest })

/-- 20_memory.md R53: no host transaction but a reset writes a BigInt register, and none reads one: no answer depends on the
registers. -/
def Obligations.HostNeverTouchesRegisters : Prop :=
  (∀ (s t : State) (a : HostAction) (rest : List Move), s.moves = .host a :: rest → a.resets = false →
    step s = .next t → t.regs = s.regs) ∧
  (∀ (s t : State) (a : HostAction) (rest : List Move) (regs : Vector (Option Nat) 8), s.moves = .host a :: rest →
    step s = .next t → ∃ t', step { s with regs := regs } = .next t' ∧ t'.answer = t.answer)

/-- 70_reset_and_hazards.md R234, 20_memory.md R61, R65: between the acceptance of a command and the core's step no host move but
a reset changes anything of the core: not the command, not its operands, not OPBUF. -/
def Obligations.BusyHoldsTheCoreState : Prop :=
  ∀ (s t : State) (a : HostAction) (rest : List Move), s.moves = .host a :: rest → a.resets = false →
    s.pend = true → step s = .next t → t = { s with answer := t.answer, moves := rest }

/-! ## OPBUF (20_memory.md R52, R54) -/

/-- 20_memory.md R54, R60: the word the host writes is read back, byte `j` of the word carries bits `8j+7 : 8j`, and no other
word changes. -/
def Obligations.OpbufWriteThenRead : Prop :=
  ∀ (s : State) (off : BitVec 13) (i : Nat) (w : Word) (rest : List Move),
    off.toNat = 0x1000 + 4 * i → i < s.L → s.pend = false →
    s.moves = .host (.write .word off w) :: .host (.read .word off) :: rest →
    ∃ t u, step s = .next t ∧ step t = .next u ∧ t.answer = some .ok ∧ u.answer = some (.okData w) ∧
      (∀ j, j < 4 → t.opbufByte (0x1000 + 4 * i + j) = w.extractLsb' (8 * j) 8) ∧
      (∀ k, k ≠ i → t.opbufWord k = s.opbufWord k)

/-- 20_memory.md R52: after ST the host reads limb `i` of the value at offset `0x1000 + 4*i`, least significant limb first. -/
def Obligations.StoredLimbsReadBack : Prop :=
  ∀ (s t : State) (ra : Reg) (v : Nat) (off : BitVec 13) (i : Nat) (rest : List Move),
    s.readReg ra = some v → exec (.st ra) s = .next t → i < s.L → off.toNat = 0x1000 + 4 * i →
    s.moves = .host (.read .word off) :: rest →
    ∃ u, step t = .next u ∧ u.answer = some (.okData (BitVec.ofNat 32 (v / BETA ^ i % BETA)))

/-- 46_data_movement.md R163: ST followed by LD of RLEN words, or of any legal number not below it, copies the value. -/
def Obligations.StoreThenLoadCopies : Prop :=
  ∀ (s t : State) (ra rd : Reg) (n : BitVec 12) (v : Nat),
    s.readReg ra = some v → v < BETA ^ s.L → exec (.st ra) s = .next t →
    t.rlen.toNat ≤ n.toNat → n.toNat ≤ s.L →
    ∃ u, exec (.ld rd n) t = .next u ∧ u.readReg rd = some v ∧ u.err = s.err

/-! ## Laws of the arithmetic commands -/

/-- 40_adder.md R102: commutative, `0` is the identity, associative whenever no step faults, and `(a + b) - b = a`. -/
def Obligations.AdderLaws : Prop :=
  (∀ (s : State) (rd ra rb : Reg), exec (.add rd ra rb) s = exec (.add rd rb ra) s) ∧
  (∀ (s : State) (rd ra rb : Reg), s.Inv → s.readReg rb = some 0 → exec (.add rd ra rb) s = exec (.mov rd ra) s) ∧
  (∀ (s t u t' u' : State) (rd ra rb rc : Reg), rd ∉ [ra, rb, rc] → s.err = none →
    exec (.add rd ra rb) s = .next t → exec (.add rd rd rc) t = .next u → u.err = none →
    exec (.add rd rb rc) s = .next t' → exec (.add rd ra rd) t' = .next u' → u'.err = none → u = u') ∧
  (∀ (s t : State) (rd ra rb : Reg) (a : Nat), rd ≠ rb → s.err = none → s.readReg ra = some a →
    exec (.add rd ra rb) s = .next t → t.err = none →
    ∃ u, exec (.sub rd rd rb) t = .next u ∧ u.err = none ∧ u.readReg rd = some a)

/-- 42_multiplier.md R122: commutative, `1` is the identity, `0` annihilates. -/
def Obligations.MultiplierLaws : Prop :=
  (∀ (s : State) (rd ra rb : Reg), exec (.mul rd ra rb) s = exec (.mul rd rb ra) s) ∧
  (∀ (s : State) (rd ra rb : Reg), s.Inv → s.readReg rb = some 1 → exec (.mul rd ra rb) s = exec (.mov rd ra) s) ∧
  (∀ (s : State) (rd ra rb : Reg) (a : Nat), s.readReg ra = some a → s.readReg rb = some 0 →
    exec (.mul rd ra rb) s = .next { s with regs := s.regs.set rd (some 0), pend := false })

/-- 42_multiplier.md R122, 95_test_vectors.md 1.3: the core itself checks `a == add(mul(q,b), r)` and `r < b`: after DIVMOD the MUL
and the ADD complete without `CapacityOverflow` and give back the dividend, and CMP finds the remainder below the divisor. -/
def Obligations.DivmodCheckedByTheCore : Prop :=
  ∀ (s : State) (rq rr ra rb rp : Reg) (a b : Nat), s.Inv → s.err = none →
    s.readReg ra = some a → s.readReg rb = some b → b ≠ 0 →
    rq ≠ rr → rq ≠ rb → rr ≠ rb → rp ≠ rr → rp ≠ rb →
    ∃ t u v x, exec (.divmod rq rr ra rb) s = .next t ∧ exec (.mul rp rq rb) t = .next u ∧
      exec (.add rp rp rr) u = .next v ∧ exec (.cmp rr rb) v = .next x ∧
      v.readReg rp = some a ∧ x.cmpf = .lt ∧ x.err = none

/-! ## The reference procedures compute the same functions -/

/-- 40_adder.md R101: the carry chain yields the limbs of the exact sum, and `CapacityOverflow` exactly when the sum does not
fit; the sum has as many limbs as the longer operand, or one more. -/
def Obligations.CarryChainAddsExactly : Prop :=
  ∀ L a b : Nat, 1 ≤ L → a < BETA ^ L → b < BETA ^ L →
    (nlimbs (a + b) = max (nlimbs a) (nlimbs b) ∨ nlimbs (a + b) = max (nlimbs a) (nlimbs b) + 1) ∧
    refAdd L (limbsOf a) (limbsOf b) =
      if a + b < BETA ^ L then .ok (limbsOf (a + b)) else .error .capacityOverflow

/-- 41_subtractor.md R112: compare, borrow chain and strip yield the limbs of the exact difference, and `ArithmeticUnderflow`
exactly when `a < b`. -/
def Obligations.BorrowChainSubtractsExactly : Prop :=
  ∀ a b : Nat,
    refSub (limbsOf a) (limbsOf b) = if a < b then .error .arithmeticUnderflow else .ok (limbsOf (a - b))

/-- 42_multiplier.md R121: the grade-school double loop yields the limbs of the exact product, and `CapacityOverflow` exactly when
the product does not fit. The first clause is the arithmetic of R121's bound on `t`: it speaks of any four numbers below `BETA`,
not of the loop. -/
def Obligations.SchoolbookMultipliesExactly : Prop :=
  (∀ r a b c : Nat, r < BETA → a < BETA → b < BETA → c < BETA → r + a * b + c < BETA ^ 2) ∧
  (∀ L a b : Nat, 1 ≤ L →
    refMul L (limbsOf a) (limbsOf b) =
      if a * b < BETA ^ L then .ok (limbsOf (a * b)) else .error .capacityOverflow)

/-- 43_divider.md R132: the binary search finds the largest digit `d` with `d*b <= r` in at most 32 rounds, and long division with
it yields the limbs of `a div b` and the value `a mod b`. -/
def Obligations.LongDivisionDividesExactly : Prop :=
  (∀ b r : Nat, 0 < b → r < b * BETA →
    digitSearch b r 32 0 (BETA - 1) * b ≤ r ∧ r < (digitSearch b r 32 0 (BETA - 1) + 1) * b) ∧
  (∀ a b : Nat,
    refDivmod (limbsOf a) b = if b = 0 then .error .divisionByZero else .ok (limbsOf (a / b), a % b))

/-- 44_compare.md R141: length first, then limbs from the most significant down, agrees with the numeric order. -/
def Obligations.LimbCompareIsNumericOrder : Prop :=
  ∀ a b : Nat, refCompare (limbsOf a) (limbsOf b) = if a < b then .lt else if a = b then .eq else .gt

/-- 45_modexp.md R151: the loop's invariant, `result * base^e` modulo `m`, and so square-and-multiply computes `a^x mod m`. The
middle clause is the arithmetic of R152: products of any numbers within R152's bounds are below `BETA^(2L)`; it does not speak
of the values of `modPowLoop`. -/
def Obligations.SquareAndMultiplyIsPower : Prop :=
  (∀ m fuel result base e : Nat, 0 < m → result < m → e < 2 ^ fuel →
    modPowLoop m fuel result base e = result * base ^ e % m ∧ modPowLoop m fuel result base e < m) ∧
  (∀ L m result base : Nat, m < BETA ^ L → result < m → base < BETA ^ L →
    result * base < BETA ^ (2 * L) ∧ base * base < BETA ^ (2 * L) ∧ base * base % m < m) ∧
  (∀ a x m : Nat, 0 < m → modPow a x m = a ^ x % m)
end

