-- ==== Sys2Proof/Laws/Limbs.lean ====
section
/-! SUPPORT. Limbs, lengths and values (00_scope.md R9): the representation of a natural by its limbs is unique, and `nlimbs` is
the length the spec defines. -/

namespace Sys2Proof.Machine

theorem BETA_eq : BETA = 2 ^ 32 := rfl

theorem BETA_pos : 0 < BETA := by decide

theorem one_lt_BETA : 1 < BETA := by decide

theorem BETA_pow_pos (n : Nat) : 0 < BETA ^ n := Nat.pow_pos BETA_pos

theorem BETA_pow_eq (n : Nat) : BETA ^ n = 2 ^ (32 * n) := by rw [BETA_eq, Nat.pow_mul]

theorem limb_lt (v i : Nat) : limb v i < BETA := Nat.mod_lt _ BETA_pos

@[simp] theorem limbWord_toNat (v i : Nat) : (limbWord v i).toNat = limb v i := by
  rw [limbWord, BitVec.toNat_ofNat]
  exact Nat.mod_eq_of_lt (limb_lt v i)

theorem nlimbs_pos (v : Nat) : 1 ≤ nlimbs v := Nat.le_add_left 1 _

@[simp] theorem nlimbs_zero : nlimbs 0 = 1 := by decide

theorem lt_pow_nlimbs (v : Nat) : v < BETA ^ nlimbs v := by
  rw [BETA_pow_eq]
  refine Nat.lt_of_lt_of_le (Nat.lt_log2_self (n := v)) (Nat.pow_le_pow_right (by decide) ?_)
  unfold nlimbs
  omega

theorem pow_le_of_nlimbs (v : Nat) (h : v ≠ 0) : BETA ^ (nlimbs v - 1) ≤ v := by
  rw [BETA_pow_eq]
  refine Nat.le_trans (Nat.pow_le_pow_right (by decide) ?_) (Nat.log2_self_le h)
  unfold nlimbs
  omega

/-- `nlimbs v` is the least length at least 1 in which `v` fits. -/
theorem nlimbs_le_iff (v k : Nat) (hk : 1 ≤ k) : nlimbs v ≤ k ↔ v < BETA ^ k := by
  constructor
  · intro h
    exact Nat.lt_of_lt_of_le (lt_pow_nlimbs v) (Nat.pow_le_pow_right BETA_pos h)
  · intro h
    by_contra hc
    by_cases h0 : v = 0
    · subst h0
      simp at hc
      omega
    · have h1 := pow_le_of_nlimbs v h0
      have h2 : BETA ^ k ≤ BETA ^ (nlimbs v - 1) := Nat.pow_le_pow_right BETA_pos (by omega)
      omega

/-- Limbs at and above the length are zero (10_state.md R21). -/
theorem limb_eq_zero (v i : Nat) (h : nlimbs v ≤ i) : limb v i = 0 := by
  have h1 : v < BETA ^ i := Nat.lt_of_lt_of_le (lt_pow_nlimbs v) (Nat.pow_le_pow_right BETA_pos h)
  simp [limb, Nat.div_eq_of_lt h1]

@[simp] theorem val_nil : val [] = 0 := rfl

@[simp] theorem val_cons (d : Word) (ds : List Word) : val (d :: ds) = d.toNat + BETA * val ds := rfl

theorem val_append (ds es : List Word) : val (ds ++ es) = val ds + BETA ^ ds.length * val es := by
  induction ds with
  | nil => simp
  | cons d ds ih =>
    simp only [List.cons_append, val_cons, ih, List.length_cons]
    ring

theorem val_lt (ds : List Word) : val ds < BETA ^ ds.length := by
  induction ds with
  | nil => simp
  | cons d ds ih =>
    have hd : d.toNat < BETA := d.isLt
    have h1 : BETA * (val ds + 1) ≤ BETA * BETA ^ ds.length := Nat.mul_le_mul_left _ ih
    have h2 : BETA ^ (d :: ds).length = BETA * BETA ^ ds.length := by
      rw [List.length_cons, Nat.pow_succ, Nat.mul_comm]
    rw [val_cons, h2]
    rw [Nat.mul_add] at h1
    omega

/-- The value of the first `n` words of a sequence, as the sum of 46_data_movement.md R162. -/
theorem val_map_range (f : Nat → Word) (n : Nat) :
    val ((List.range n).map f) = ∑ i ∈ Finset.range n, (f i).toNat * BETA ^ i := by
  induction n with
  | zero => simp
  | succ n ih =>
    rw [List.range_succ, List.map_append, val_append, ih, Finset.sum_range_succ]
    simp [Nat.mul_comm]

/-- The low `n` limbs of `v` are `v` modulo `BETA^n`. -/
theorem val_map_limbWord (v n : Nat) : val ((List.range n).map (limbWord v)) = v % BETA ^ n := by
  induction n with
  | zero => simp [Nat.mod_one]
  | succ n ih =>
    rw [List.range_succ, List.map_append, val_append, ih]
    simp only [List.map_cons, List.map_nil, val_cons, val_nil, limbWord_toNat, List.length_map, List.length_range]
    rw [Nat.mul_zero, Nat.add_zero, limb, Nat.pow_succ, Nat.mod_mul]

/-- A value is the value of its limbs (00_scope.md R9), in any length it fits in. -/
theorem val_limbs_of_lt (v n : Nat) (h : v < BETA ^ n) : val ((List.range n).map (limbWord v)) = v := by
  rw [val_map_limbWord, Nat.mod_eq_of_lt h]

end Sys2Proof.Machine
end

