-- ==== Sys2Proof/Laws/State.lean ====
section
/-! SUPPORT. What each update of the state leaves in each field, so that no proof unfolds a record update. -/

namespace Sys2Proof.Machine

variable (s : State)

/-! `State.writeReg`: B[r] <- v. -/

@[simp] theorem State.writeReg_cap (r : Reg) (v : Nat) : (s.writeReg r v).cap = s.cap := rfl
@[simp] theorem State.writeReg_regs (r : Reg) (v : Nat) : (s.writeReg r v).regs = s.regs.set r (some v) := rfl
@[simp] theorem State.writeReg_mem (r : Reg) (v : Nat) : (s.writeReg r v).mem = s.mem := rfl
@[simp] theorem State.writeReg_epoch (r : Reg) (v : Nat) : (s.writeReg r v).epoch = s.epoch := rfl
@[simp] theorem State.writeReg_rlen (r : Reg) (v : Nat) : (s.writeReg r v).rlen = s.rlen := rfl
@[simp] theorem State.writeReg_cmdr (r : Reg) (v : Nat) : (s.writeReg r v).cmdr = s.cmdr := rfl
@[simp] theorem State.writeReg_pend (r : Reg) (v : Nat) : (s.writeReg r v).pend = s.pend := rfl
@[simp] theorem State.writeReg_err (r : Reg) (v : Nat) : (s.writeReg r v).err = s.err := rfl
@[simp] theorem State.writeReg_cmpf (r : Reg) (v : Nat) : (s.writeReg r v).cmpf = s.cmpf := rfl
@[simp] theorem State.writeReg_answer (r : Reg) (v : Nat) : (s.writeReg r v).answer = s.answer := rfl
@[simp] theorem State.writeReg_moves (r : Reg) (v : Nat) : (s.writeReg r v).moves = s.moves := rfl

/-! `State.writeOpbufWord`: OPBUF[i] <- w. -/

@[simp] theorem State.writeOpbufWord_cap (i : Nat) (w : Word) : (s.writeOpbufWord i w).cap = s.cap := rfl
@[simp] theorem State.writeOpbufWord_regs (i : Nat) (w : Word) : (s.writeOpbufWord i w).regs = s.regs := rfl
@[simp] theorem State.writeOpbufWord_mem (i : Nat) (w : Word) : (s.writeOpbufWord i w).mem = s.mem.writeBytes (opbufOffset i) (wordBytes w) := rfl
@[simp] theorem State.writeOpbufWord_epoch (i : Nat) (w : Word) : (s.writeOpbufWord i w).epoch = s.epoch := rfl
@[simp] theorem State.writeOpbufWord_rlen (i : Nat) (w : Word) : (s.writeOpbufWord i w).rlen = s.rlen := rfl
@[simp] theorem State.writeOpbufWord_cmdr (i : Nat) (w : Word) : (s.writeOpbufWord i w).cmdr = s.cmdr := rfl
@[simp] theorem State.writeOpbufWord_pend (i : Nat) (w : Word) : (s.writeOpbufWord i w).pend = s.pend := rfl
@[simp] theorem State.writeOpbufWord_err (i : Nat) (w : Word) : (s.writeOpbufWord i w).err = s.err := rfl
@[simp] theorem State.writeOpbufWord_cmpf (i : Nat) (w : Word) : (s.writeOpbufWord i w).cmpf = s.cmpf := rfl
@[simp] theorem State.writeOpbufWord_answer (i : Nat) (w : Word) : (s.writeOpbufWord i w).answer = s.answer := rfl
@[simp] theorem State.writeOpbufWord_moves (i : Nat) (w : Word) : (s.writeOpbufWord i w).moves = s.moves := rfl

/-! `State.writeOpbufValue`: the whole of OPBUF written. -/

@[simp] theorem State.writeOpbufValue_cap (v : Nat) : (s.writeOpbufValue v).cap = s.cap := rfl
@[simp] theorem State.writeOpbufValue_regs (v : Nat) : (s.writeOpbufValue v).regs = s.regs := rfl
@[simp] theorem State.writeOpbufValue_mem (v : Nat) : (s.writeOpbufValue v).mem = s.mem.writeBytes (opbufOffset 0) (valueBytes s.L v) := rfl
@[simp] theorem State.writeOpbufValue_epoch (v : Nat) : (s.writeOpbufValue v).epoch = s.epoch := rfl
@[simp] theorem State.writeOpbufValue_rlen (v : Nat) : (s.writeOpbufValue v).rlen = s.rlen := rfl
@[simp] theorem State.writeOpbufValue_cmdr (v : Nat) : (s.writeOpbufValue v).cmdr = s.cmdr := rfl
@[simp] theorem State.writeOpbufValue_pend (v : Nat) : (s.writeOpbufValue v).pend = s.pend := rfl
@[simp] theorem State.writeOpbufValue_err (v : Nat) : (s.writeOpbufValue v).err = s.err := rfl
@[simp] theorem State.writeOpbufValue_cmpf (v : Nat) : (s.writeOpbufValue v).cmpf = s.cmpf := rfl
@[simp] theorem State.writeOpbufValue_answer (v : Nat) : (s.writeOpbufValue v).answer = s.answer := rfl
@[simp] theorem State.writeOpbufValue_moves (v : Nat) : (s.writeOpbufValue v).moves = s.moves := rfl

/-! `State.writeRlen`: RLEN <- n. -/

@[simp] theorem State.writeRlen_cap (n : Nat) : (s.writeRlen n).cap = s.cap := rfl
@[simp] theorem State.writeRlen_regs (n : Nat) : (s.writeRlen n).regs = s.regs := rfl
@[simp] theorem State.writeRlen_mem (n : Nat) : (s.writeRlen n).mem = s.mem := rfl
@[simp] theorem State.writeRlen_epoch (n : Nat) : (s.writeRlen n).epoch = s.epoch := rfl
@[simp] theorem State.writeRlen_rlen (n : Nat) : (s.writeRlen n).rlen = BitVec.ofNat 11 n := rfl
@[simp] theorem State.writeRlen_cmdr (n : Nat) : (s.writeRlen n).cmdr = s.cmdr := rfl
@[simp] theorem State.writeRlen_pend (n : Nat) : (s.writeRlen n).pend = s.pend := rfl
@[simp] theorem State.writeRlen_err (n : Nat) : (s.writeRlen n).err = s.err := rfl
@[simp] theorem State.writeRlen_cmpf (n : Nat) : (s.writeRlen n).cmpf = s.cmpf := rfl
@[simp] theorem State.writeRlen_answer (n : Nat) : (s.writeRlen n).answer = s.answer := rfl
@[simp] theorem State.writeRlen_moves (n : Nat) : (s.writeRlen n).moves = s.moves := rfl

/-! `State.writeCmpf`: CMPF <- c. -/

@[simp] theorem State.writeCmpf_cap (c : CmpFlag) : (s.writeCmpf c).cap = s.cap := rfl
@[simp] theorem State.writeCmpf_regs (c : CmpFlag) : (s.writeCmpf c).regs = s.regs := rfl
@[simp] theorem State.writeCmpf_mem (c : CmpFlag) : (s.writeCmpf c).mem = s.mem := rfl
@[simp] theorem State.writeCmpf_epoch (c : CmpFlag) : (s.writeCmpf c).epoch = s.epoch := rfl
@[simp] theorem State.writeCmpf_rlen (c : CmpFlag) : (s.writeCmpf c).rlen = s.rlen := rfl
@[simp] theorem State.writeCmpf_cmdr (c : CmpFlag) : (s.writeCmpf c).cmdr = s.cmdr := rfl
@[simp] theorem State.writeCmpf_pend (c : CmpFlag) : (s.writeCmpf c).pend = s.pend := rfl
@[simp] theorem State.writeCmpf_err (c : CmpFlag) : (s.writeCmpf c).err = s.err := rfl
@[simp] theorem State.writeCmpf_cmpf (c : CmpFlag) : (s.writeCmpf c).cmpf = c := rfl
@[simp] theorem State.writeCmpf_answer (c : CmpFlag) : (s.writeCmpf c).answer = s.answer := rfl
@[simp] theorem State.writeCmpf_moves (c : CmpFlag) : (s.writeCmpf c).moves = s.moves := rfl

/-! `State.accept`: an accepted CMD write. -/

@[simp] theorem State.accept_cap (w : Word) : (s.accept w).cap = s.cap := rfl
@[simp] theorem State.accept_regs (w : Word) : (s.accept w).regs = s.regs := rfl
@[simp] theorem State.accept_mem (w : Word) : (s.accept w).mem = s.mem := rfl
@[simp] theorem State.accept_epoch (w : Word) : (s.accept w).epoch = s.epoch := rfl
@[simp] theorem State.accept_rlen (w : Word) : (s.accept w).rlen = s.rlen := rfl
@[simp] theorem State.accept_cmdr (w : Word) : (s.accept w).cmdr = w := rfl
@[simp] theorem State.accept_pend (w : Word) : (s.accept w).pend = true := rfl
@[simp] theorem State.accept_err (w : Word) : (s.accept w).err = s.err := rfl
@[simp] theorem State.accept_cmpf (w : Word) : (s.accept w).cmpf = s.cmpf := rfl
@[simp] theorem State.accept_answer (w : Word) : (s.accept w).answer = s.answer := rfl
@[simp] theorem State.accept_moves (w : Word) : (s.accept w).moves = s.moves := rfl

/-! `State.answering`: the bus's answer. -/

@[simp] theorem State.answering_cap (a : Option Answer) : (s.answering a).cap = s.cap := rfl
@[simp] theorem State.answering_regs (a : Option Answer) : (s.answering a).regs = s.regs := rfl
@[simp] theorem State.answering_mem (a : Option Answer) : (s.answering a).mem = s.mem := rfl
@[simp] theorem State.answering_epoch (a : Option Answer) : (s.answering a).epoch = s.epoch := rfl
@[simp] theorem State.answering_rlen (a : Option Answer) : (s.answering a).rlen = s.rlen := rfl
@[simp] theorem State.answering_cmdr (a : Option Answer) : (s.answering a).cmdr = s.cmdr := rfl
@[simp] theorem State.answering_pend (a : Option Answer) : (s.answering a).pend = s.pend := rfl
@[simp] theorem State.answering_err (a : Option Answer) : (s.answering a).err = s.err := rfl
@[simp] theorem State.answering_cmpf (a : Option Answer) : (s.answering a).cmpf = s.cmpf := rfl
@[simp] theorem State.answering_answer (a : Option Answer) : (s.answering a).answer = a := rfl
@[simp] theorem State.answering_moves (a : Option Answer) : (s.answering a).moves = s.moves := rfl

/-! `State.withMoves`: the schedule. -/

@[simp] theorem State.withMoves_cap (ms : List Move) : (s.withMoves ms).cap = s.cap := rfl
@[simp] theorem State.withMoves_regs (ms : List Move) : (s.withMoves ms).regs = s.regs := rfl
@[simp] theorem State.withMoves_mem (ms : List Move) : (s.withMoves ms).mem = s.mem := rfl
@[simp] theorem State.withMoves_epoch (ms : List Move) : (s.withMoves ms).epoch = s.epoch := rfl
@[simp] theorem State.withMoves_rlen (ms : List Move) : (s.withMoves ms).rlen = s.rlen := rfl
@[simp] theorem State.withMoves_cmdr (ms : List Move) : (s.withMoves ms).cmdr = s.cmdr := rfl
@[simp] theorem State.withMoves_pend (ms : List Move) : (s.withMoves ms).pend = s.pend := rfl
@[simp] theorem State.withMoves_err (ms : List Move) : (s.withMoves ms).err = s.err := rfl
@[simp] theorem State.withMoves_cmpf (ms : List Move) : (s.withMoves ms).cmpf = s.cmpf := rfl
@[simp] theorem State.withMoves_answer (ms : List Move) : (s.withMoves ms).answer = s.answer := rfl
@[simp] theorem State.withMoves_moves (ms : List Move) : (s.withMoves ms).moves = ms := rfl

/-! `State.retire`: PEND <- 0. -/

@[simp] theorem State.retire_cap : s.retire.cap = s.cap := rfl
@[simp] theorem State.retire_regs : s.retire.regs = s.regs := rfl
@[simp] theorem State.retire_mem : s.retire.mem = s.mem := rfl
@[simp] theorem State.retire_epoch : s.retire.epoch = s.epoch := rfl
@[simp] theorem State.retire_rlen : s.retire.rlen = s.rlen := rfl
@[simp] theorem State.retire_cmdr : s.retire.cmdr = s.cmdr := rfl
@[simp] theorem State.retire_pend : s.retire.pend = false := rfl
@[simp] theorem State.retire_err : s.retire.err = s.err := rfl
@[simp] theorem State.retire_cmpf : s.retire.cmpf = s.cmpf := rfl
@[simp] theorem State.retire_answer : s.retire.answer = s.answer := rfl
@[simp] theorem State.retire_moves : s.retire.moves = s.moves := rfl

/-! `State.raise`: entering a fault. -/

@[simp] theorem State.raise_cap (f : FaultCode) : (s.raise f).cap = s.cap := rfl
@[simp] theorem State.raise_regs (f : FaultCode) : (s.raise f).regs = s.regs := rfl
@[simp] theorem State.raise_mem (f : FaultCode) : (s.raise f).mem = s.mem := rfl
@[simp] theorem State.raise_epoch (f : FaultCode) : (s.raise f).epoch = s.epoch := rfl
@[simp] theorem State.raise_rlen (f : FaultCode) : (s.raise f).rlen = s.rlen := rfl
@[simp] theorem State.raise_cmdr (f : FaultCode) : (s.raise f).cmdr = s.cmdr := rfl
@[simp] theorem State.raise_pend (f : FaultCode) : (s.raise f).pend = false := rfl
@[simp] theorem State.raise_err (f : FaultCode) : (s.raise f).err = some f := rfl
@[simp] theorem State.raise_cmpf (f : FaultCode) : (s.raise f).cmpf = s.cmpf := rfl
@[simp] theorem State.raise_answer (f : FaultCode) : (s.raise f).answer = s.answer := rfl
@[simp] theorem State.raise_moves (f : FaultCode) : (s.raise f).moves = s.moves := rfl

/-! `State.softReset`: soft reset. -/

@[simp] theorem State.softReset_cap : s.softReset.cap = s.cap := rfl
@[simp] theorem State.softReset_regs : s.softReset.regs = Vector.replicate 8 none := rfl
@[simp] theorem State.softReset_mem : s.softReset.mem = s.mem := rfl
@[simp] theorem State.softReset_epoch : s.softReset.epoch = s.epoch := rfl
@[simp] theorem State.softReset_rlen : s.softReset.rlen = 0 := rfl
@[simp] theorem State.softReset_cmdr : s.softReset.cmdr = 0 := rfl
@[simp] theorem State.softReset_pend : s.softReset.pend = false := rfl
@[simp] theorem State.softReset_err : s.softReset.err = none := rfl
@[simp] theorem State.softReset_cmpf : s.softReset.cmpf = .none := rfl
@[simp] theorem State.softReset_answer : s.softReset.answer = s.answer := rfl
@[simp] theorem State.softReset_moves : s.softReset.moves = s.moves := rfl

/-! `State.hardReset`: hardware reset. -/

@[simp] theorem State.hardReset_cap : s.hardReset.cap = s.cap := rfl
@[simp] theorem State.hardReset_regs : s.hardReset.regs = Vector.replicate 8 none := rfl
@[simp] theorem State.hardReset_mem : s.hardReset.mem = [] := rfl
@[simp] theorem State.hardReset_epoch : s.hardReset.epoch = s.epoch + 1 := rfl
@[simp] theorem State.hardReset_rlen : s.hardReset.rlen = 0 := rfl
@[simp] theorem State.hardReset_cmdr : s.hardReset.cmdr = 0 := rfl
@[simp] theorem State.hardReset_pend : s.hardReset.pend = false := rfl
@[simp] theorem State.hardReset_err : s.hardReset.err = none := rfl
@[simp] theorem State.hardReset_cmpf : s.hardReset.cmpf = .none := rfl
@[simp] theorem State.hardReset_answer : s.hardReset.answer = s.answer := rfl
@[simp] theorem State.hardReset_moves : s.hardReset.moves = s.moves := rfl

/-! Reading a register after a write (10_state.md R23). -/

@[simp] theorem State.readReg_writeReg_self (r : Reg) (v : Nat) : (s.writeReg r v).readReg r = some v := by
  simp [State.readReg]

theorem State.readReg_writeReg_of_ne (r q : Reg) (v : Nat) (h : q ≠ r) :
    (s.writeReg r v).readReg q = s.readReg q := by
  have : r.val ≠ q.val := fun e => h (Fin.ext e.symm)
  simp [State.readReg, this]

/-- A register reads the same in states with the same registers. -/
theorem State.readReg_congr (t : State) (r : Reg) (h : s.regs = t.regs) : s.readReg r = t.readReg r := by
  simp [State.readReg, h]

/-- After either reset no register is valid (10_state.md R39). -/
@[simp] theorem State.readReg_softReset (r : Reg) : s.softReset.readReg r = none := by simp [State.readReg]

@[simp] theorem State.readReg_hardReset (r : Reg) : s.hardReset.readReg r = none := by simp [State.readReg]

@[simp] theorem State.readReg_reset (r : Reg) : State.reset.readReg r = none := by
  simp [State.readReg, State.reset]

/-- Two registers written one after the other, in either order, when they differ. -/
theorem State.writeReg_comm (r q : Reg) (v u : Nat) (h : r ≠ q) :
    (s.writeReg r v).writeReg q u = (s.writeReg q u).writeReg r v := by
  have h' : r.val ≠ q.val := fun e => h (Fin.ext e)
  simp only [State.writeReg]
  congr 1
  exact Vector.set_comm _ _ h'

end Sys2Proof.Machine
end

