-- ==== Sys2Proof/Laws/Memory.lean ====
section
/-! SUPPORT. Memory: a read after a write, what a write leaves alone, and that every operation keeps the canonical form and the
OPBUF window; then the same for the words of OPBUF. -/

namespace Sys2Proof.Machine

/-! ## Reading cells -/

@[simp] theorem Memory.read_nil (a : Nat) : Memory.read [] a = none := rfl

theorem Memory.read_cons (k : Nat) (b : Byte) (m : Memory) (a : Nat) :
    Memory.read ((k, b) :: m) a = if k = a then some b else Memory.read m a := rfl

theorem Memory.read_append (m n : Memory) (a : Nat) :
    Memory.read (m ++ n) a = (Memory.read m a).or (Memory.read n a) := by
  induction m with
  | nil => simp
  | cons c m ih =>
    obtain ⟨k, b⟩ := c
    rw [List.cons_append, Memory.read_cons, Memory.read_cons, ih]
    split <;> simp

theorem Memory.read_filter (p : Nat → Bool) (m : Memory) (a : Nat) :
    Memory.read (m.filter fun c => p c.1) a = if p a then Memory.read m a else none := by
  induction m with
  | nil => simp
  | cons c m ih =>
    obtain ⟨k, b⟩ := c
    by_cases hk : p k
    · rw [List.filter_cons_of_pos (by simpa using hk), Memory.read_cons, Memory.read_cons, ih]
      by_cases h : k = a
      · subst h; simp [hk]
      · simp [h]
    · rw [List.filter_cons_of_neg (by simpa using hk), ih, Memory.read_cons]
      by_cases h : k = a
      · subst h; simp [hk]
      · simp [h]

theorem Memory.read_cells (base : Nat) (bs : List Byte) (a : Nat) :
    Memory.read (Memory.cells base bs) a = if base ≤ a then bs[a - base]? else none := by
  induction bs generalizing base with
  | nil => simp [Memory.cells]
  | cons b bs ih =>
    rw [Memory.cells, Memory.read_cons, ih]
    rcases Nat.lt_trichotomy base a with h | h | h
    · have h1 : a - base = (a - (base + 1)) + 1 := by omega
      rw [if_neg (by omega), if_pos (by omega), if_pos (by omega), h1, List.getElem?_cons_succ]
    · subst h; simp
    · rw [if_neg (by omega), if_neg (by omega), if_neg (by omega)]

/-- Every write, once: inside the written range a read gives the byte written there, elsewhere what it gave before. -/
theorem Memory.read_writeBytes (m : Memory) (base : Nat) (bs : List Byte) (a : Nat) :
    Memory.read (m.writeBytes base bs) a =
      if base ≤ a ∧ a < base + bs.length then bs[a - base]? else Memory.read m a := by
  rw [Memory.writeBytes, Memory.read_append, Memory.read_append,
    Memory.read_filter (fun k => decide (k < base)), Memory.read_filter (fun k => decide (base + bs.length ≤ k)),
    Memory.read_cells]
  rcases Nat.lt_or_ge a base with h | h
  · have h1 : ¬ base ≤ a := by omega
    have h2 : ¬ base + bs.length ≤ a := by omega
    simp [h, h1, h2]
  · rcases Nat.lt_or_ge a (base + bs.length) with h1 | h1
    · have h2 : ¬ base + bs.length ≤ a := by omega
      have h3 : ¬ a < base := by omega
      simp [h, h1, h2, h3]
    · have h3 : ¬ a < base := by omega
      have h4 : bs[a - base]? = none := List.getElem?_eq_none (by omega)
      simp [h, h1, h3, h4, Nat.not_lt.mpr h1]

/-! ## The canonical form -/

theorem Memory.mem_cells (base : Nat) (bs : List Byte) (c : Host.Cell) (h : c ∈ Memory.cells base bs) :
    base ≤ c.1 ∧ c.1 < base + bs.length := by
  induction bs generalizing base with
  | nil => simp [Memory.cells] at h
  | cons b bs ih =>
    rw [Memory.cells, List.mem_cons] at h
    rw [List.length_cons]
    rcases h with rfl | h
    · constructor <;> simp
    · have := ih (base + 1) h
      omega

theorem Memory.wf_cells (base : Nat) (bs : List Byte) : Memory.wf (Memory.cells base bs) := by
  induction bs generalizing base with
  | nil => exact List.Pairwise.nil
  | cons b bs ih =>
    refine List.Pairwise.cons (fun c hc => ?_) (ih _)
    have := Memory.mem_cells _ _ c hc
    simp only
    omega

/-- A cell of written memory is an old cell outside the range, or a cell of the range. -/
theorem Memory.mem_writeBytes (m : Memory) (base : Nat) (bs : List Byte) (c : Host.Cell)
    (h : c ∈ m.writeBytes base bs) : c ∈ m ∨ base ≤ c.1 ∧ c.1 < base + bs.length := by
  rw [Memory.writeBytes, List.mem_append, List.mem_append, List.mem_filter, List.mem_filter] at h
  rcases h with (h | h) | h
  · exact Or.inl h.1
  · exact Or.inr (Memory.mem_cells _ _ c h)
  · exact Or.inl h.1

/-- A write keeps the canonical form. -/
theorem Memory.wf_writeBytes (m : Memory) (base : Nat) (bs : List Byte) (h : Memory.wf m) :
    Memory.wf (m.writeBytes base bs) := by
  refine List.pairwise_append.2 ⟨List.pairwise_append.2 ⟨h.filter _, Memory.wf_cells _ _, ?_⟩, h.filter _, ?_⟩
  · intro x hx y hy
    have h1 := (List.mem_filter.1 hx).2
    have h2 := Memory.mem_cells _ _ y hy
    simp only [decide_eq_true_eq] at h1
    omega
  · intro x hx y hy
    have h2 := (List.mem_filter.1 hy).2
    simp only [decide_eq_true_eq] at h2
    rcases List.mem_append.1 hx with hx | hx
    · have h1 := (List.mem_filter.1 hx).2
      simp only [decide_eq_true_eq] at h1
      omega
    · have h1 := Memory.mem_cells _ _ x hx
      omega

theorem State.reset_mem_wf : Memory.wf State.reset.mem := by decide

/-! ## Words as bytes -/

@[simp] theorem wordBytes_length (w : Word) : (wordBytes w).length = 4 := rfl

/-- The four byte lanes put together are the word (20_memory.md R54). -/
theorem wordBytes_join (w : Word) :
    w.extractLsb' 24 8 ++ w.extractLsb' 16 8 ++ w.extractLsb' 8 8 ++ w.extractLsb' 0 8 = w := by
  apply BitVec.eq_of_getLsbD_eq
  intro i hi
  simp only [BitVec.getLsbD_append, BitVec.getLsbD_extractLsb']
  by_cases h1 : i < 8
  · simp [h1]
  · by_cases h2 : i - 8 < 8
    · simp [h1, h2, show 8 + (i - 8) = i by omega]
    · by_cases h3 : i - 8 - 8 < 8
      · simp [h1, h2, h3, show 16 + (i - 8 - 8) = i by omega]
      · simp [h1, h2, h3, show 24 + (i - 8 - 8 - 8) = i by omega, show i - 8 - 8 - 8 < 8 by omega]

theorem flatMap_wordBytes_length (f : Nat → Word) (n : Nat) :
    ((List.range n).flatMap fun i => wordBytes (f i)).length = 4 * n := by
  induction n with
  | zero => rfl
  | succ n ih =>
    rw [List.range_succ, List.flatMap_append, List.length_append, ih]
    simp
    omega

theorem valueBytes_length (L v : Nat) : (valueBytes L v).length = 4 * L :=
  flatMap_wordBytes_length (limbWord v) L

/-- Byte `j` of word `i` in the concatenation of `n` words. -/
theorem flatMap_wordBytes_get (f : Nat → Word) (n i j : Nat) (hi : i < n) (hj : j < 4) :
    ((List.range n).flatMap fun i => wordBytes (f i))[4 * i + j]? = (wordBytes (f i))[j]? := by
  induction n with
  | zero => omega
  | succ n ih =>
    rw [List.range_succ, List.flatMap_append]
    rcases Nat.lt_or_ge i n with h | h
    · rw [List.getElem?_append_left (by rw [flatMap_wordBytes_length]; omega)]
      exact ih h
    · have hin : i = n := by omega
      subst hin
      rw [List.getElem?_append_right (by rw [flatMap_wordBytes_length]; omega), flatMap_wordBytes_length,
        show 4 * i + j - 4 * i = j by omega]
      simp

/-! ## OPBUF -/

theorem State.opbufByte_of_read (s : State) (a : Nat) (b : Byte) (h : Memory.read s.mem a = some b) :
    s.opbufByte a = b := by simp [State.opbufByte, h]

/-- OPBUF reads the same in states with the same written bytes and the same reset counter. -/
theorem State.opbufByte_congr (s t : State) (hm : s.mem = t.mem) (he : s.epoch = t.epoch) :
    s.opbufByte = t.opbufByte := by
  funext a
  simp [State.opbufByte, hm, he]

theorem State.opbufWord_congr (s t : State) (hm : s.mem = t.mem) (he : s.epoch = t.epoch) :
    s.opbufWord = t.opbufWord := by
  funext i
  simp [State.opbufWord, State.opbufByte_congr s t hm he]

theorem State.opbufValue_congr (s t : State) (hm : s.mem = t.mem) (he : s.epoch = t.epoch) :
    s.opbufValue = t.opbufValue := by
  funext n
  simp [State.opbufValue, State.opbufWord_congr s t hm he]

/-- `Memory.read_writeBytes` with the fallback of an unwritten byte: inside the range the fallback is never used. -/
theorem Memory.getD_read_writeBytes (m : Memory) (base : Nat) (bs : List Byte) (a : Nat) (d : Byte) :
    (Memory.read (m.writeBytes base bs) a).getD d =
      if base ≤ a ∧ a < base + bs.length then (bs[a - base]?).getD 0 else (Memory.read m a).getD d := by
  rw [Memory.read_writeBytes]
  by_cases h : base ≤ a ∧ a < base + bs.length
  · have h1 : a - base < bs.length := by omega
    rw [if_pos h, if_pos h, List.getElem?_eq_getElem h1]
    rfl
  · rw [if_neg h, if_neg h]

/-- What writing one word does to every byte of OPBUF. -/
theorem State.opbufByte_writeOpbufWord (s : State) (i : Nat) (w : Word) (a : Nat) :
    (s.writeOpbufWord i w).opbufByte a =
      if opbufOffset i ≤ a ∧ a < opbufOffset i + 4 then ((wordBytes w)[a - opbufOffset i]?).getD 0
      else s.opbufByte a :=
  Memory.getD_read_writeBytes _ _ _ _ _

@[simp] theorem State.opbufWord_writeOpbufWord_self (s : State) (i : Nat) (w : Word) :
    (s.writeOpbufWord i w).opbufWord i = w := by
  rw [State.opbufWord]
  simp only [State.opbufByte_writeOpbufWord]
  rw [if_pos (by omega), if_pos (by omega), if_pos (by omega), if_pos (by omega)]
  simpa [wordBytes] using wordBytes_join w

theorem State.opbufWord_writeOpbufWord_of_ne (s : State) (i j : Nat) (w : Word) (h : j ≠ i) :
    (s.writeOpbufWord i w).opbufWord j = s.opbufWord j := by
  have key : ∀ k, k < 4 → (s.writeOpbufWord i w).opbufByte (opbufOffset j + k) = s.opbufByte (opbufOffset j + k) := by
    intro k hk
    rw [State.opbufByte_writeOpbufWord, if_neg (by simp only [opbufOffset]; omega)]
  have k0 := key 0 (by decide)
  rw [Nat.add_zero] at k0
  rw [State.opbufWord, key 3 (by decide), key 2 (by decide), key 1 (by decide), k0]
  rfl

/-- What ST does to every byte of OPBUF: inside the window the bytes of the value's limbs, elsewhere nothing. -/
theorem State.opbufByte_writeOpbufValue (s : State) (v a : Nat) :
    (s.writeOpbufValue v).opbufByte a =
      if opbufOffset 0 ≤ a ∧ a < opbufOffset 0 + 4 * s.L then ((valueBytes s.L v)[a - opbufOffset 0]?).getD 0
      else s.opbufByte a := by
  rw [← valueBytes_length s.L v]
  exact Memory.getD_read_writeBytes _ _ _ _ _

theorem State.opbufWord_writeOpbufValue (s : State) (v i : Nat) (h : i < s.L) :
    (s.writeOpbufValue v).opbufWord i = limbWord v i := by
  have key : ∀ j, j < 4 → (s.writeOpbufValue v).opbufByte (opbufOffset i + j) =
      ((wordBytes (limbWord v i))[j]?).getD 0 := by
    intro j hj
    rw [State.opbufByte_writeOpbufValue, if_pos (by simp only [opbufOffset]; omega), valueBytes,
      show opbufOffset i + j - opbufOffset 0 = 4 * i + j by simp only [opbufOffset]; omega,
      flatMap_wordBytes_get _ _ _ _ h hj]
  have k0 := key 0 (by decide)
  rw [State.opbufWord, key 3 (by decide), key 2 (by decide), key 1 (by decide)]
  rw [Nat.add_zero] at k0
  rw [k0]
  simpa [wordBytes] using wordBytes_join (limbWord v i)

end Sys2Proof.Machine
end

