-- ==== Sys2Proof/Laws/Bus.lean ====
section
/-! SUPPORT. The bus: what stands at which offset, and everything a step of the host and of the machine can do. -/

namespace Sys2Proof.Machine

variable (s : State)

/-! ## The register map (10_state.md R29) -/

@[simp] theorem target_cmd (L : Nat) : target L 0x0000 = some .cmd := rfl

@[simp] theorem target_status (L : Nat) : target L 0x0004 = some .status := rfl

@[simp] theorem target_ctrl (L : Nat) : target L 0x0008 = some .ctrl := rfl

@[simp] theorem target_cap (L : Nat) : target L 0x000C = some .cap := rfl

@[simp] theorem target_rlen (L : Nat) : target L 0x0010 = some .rlen := rfl

theorem target_opbuf (L i : Nat) (h : i < L) : target L (0x1000 + 4 * i) = some (.opbuf i) := by
  rw [target, if_neg (by omega), if_neg (by omega), if_neg (by omega), if_neg (by omega), if_neg (by omega),
    if_pos (by omega), show (0x1000 + 4 * i - 0x1000) / 4 = i by omega]

/-- A target in OPBUF is one of its `L` words, at its own offset. -/
theorem target_eq_opbuf (L off i : Nat) (h : target L off = some (.opbuf i)) : i < L ∧ off = 0x1000 + 4 * i := by
  unfold target at h
  split at h; · simp at h
  split at h; · simp at h
  split at h; · simp at h
  split at h; · simp at h
  split at h; · simp at h
  split at h
  · simp only [Option.some.injEq, Target.opbuf.injEq] at h
    omega
  · simp at h

theorem accessTarget_word (off : BitVec 13) : s.accessTarget .word off = target s.L off.toNat := rfl

theorem accessTarget_eq_some (width : Width) (off : BitVec 13) (x : Target) (h : s.accessTarget width off = some x) :
    width = .word ∧ target s.L off.toNat = some x := by
  cases width with
  | word => exact ⟨rfl, h⟩
  | byte => cases h
  | half => cases h
  | burst => cases h

/-! ## Everything a step of the host can do -/

/-- Everything a permitted write can do (20_memory.md R57). -/
theorem State.busWrite_cases (width : Width) (off : BitVec 13) (w : Word) (t : State)
    (h : s.busWrite width off w = some t) :
    (target s.L off.toNat = some .cmd ∧ s.pend = false ∧ s.err = none ∧ t = s.accept w) ∨
      (target s.L off.toNat = some .ctrl ∧ w = 1 ∧ t = s.softReset) ∨
      (target s.L off.toNat = some .ctrl ∧ w = 0 ∧ t = s) ∨
      (∃ i, target s.L off.toNat = some (.opbuf i) ∧ i < s.L ∧ s.pend = false ∧ t = s.writeOpbufWord i w) := by
  cases hx : s.accessTarget width off with
  | none => simp [State.busWrite, hx] at h
  | some x =>
    have hx' := (accessTarget_eq_some s width off x hx).2
    cases x with
    | cmd =>
      simp only [State.busWrite, hx] at h
      split at h
      · next hc => exact Or.inl ⟨hx', hc.1, hc.2, (Option.some.inj h).symm⟩
      · cases h
    | ctrl =>
      simp only [State.busWrite, hx] at h
      split at h
      · next hc => exact Or.inr (Or.inl ⟨hx', hc, (Option.some.inj h).symm⟩)
      · split at h
        · next hc => exact Or.inr (Or.inr (Or.inl ⟨hx', hc, (Option.some.inj h).symm⟩))
        · cases h
    | opbuf i =>
      simp only [State.busWrite, hx] at h
      split at h
      · cases h
      · next hc =>
        exact Or.inr (Or.inr (Or.inr
          ⟨i, hx', (target_eq_opbuf _ _ _ hx').1, by simpa using hc, (Option.some.inj h).symm⟩))
    | status => simp [State.busWrite, hx] at h
    | cap => simp [State.busWrite, hx] at h
    | rlen => simp [State.busWrite, hx] at h

@[simp] theorem State.hostStep_reset : s.hostStep .reset = s.hardReset.answering none := rfl

@[simp] theorem State.hostStep_read (width : Width) (off : BitVec 13) :
    s.hostStep (.read width off) = s.answering (some (s.busRead width off)) := rfl

theorem State.hostStep_write_of_some (width : Width) (off : BitVec 13) (w : Word) (t : State)
    (h : s.busWrite width off w = some t) : s.hostStep (.write width off w) = t.answering (some .ok) := by
  simp [State.hostStep, h]

theorem State.hostStep_write_of_none (width : Width) (off : BitVec 13) (w : Word)
    (h : s.busWrite width off w = none) : s.hostStep (.write width off w) = s.answering (some .busError) := by
  simp [State.hostStep, h]

/-- Everything a step of the host can do (70_reset_and_hazards.md R235): only the answer changes, or one of the five writes
that the interface knows is made. -/
theorem State.hostStep_cases (a : HostAction) :
    (∃ x, s.hostStep a = s.answering (some x)) ∨
      (a = .reset ∧ s.hostStep a = s.hardReset.answering none) ∨
      (∃ width off w, a = .write width off w ∧ target s.L off.toNat = some .ctrl ∧ w = 1 ∧
        s.hostStep a = s.softReset.answering (some .ok)) ∨
      (∃ width off w, a = .write width off w ∧ target s.L off.toNat = some .cmd ∧ s.pend = false ∧ s.err = none ∧
        s.hostStep a = (s.accept w).answering (some .ok)) ∨
      (∃ width off w i, a = .write width off w ∧ i < s.L ∧ s.pend = false ∧
        s.hostStep a = (s.writeOpbufWord i w).answering (some .ok)) := by
  cases a with
  | reset => exact Or.inr (Or.inl ⟨rfl, rfl⟩)
  | read width off => exact Or.inl ⟨_, rfl⟩
  | write width off w =>
    cases h : s.busWrite width off w with
    | none => exact Or.inl ⟨_, s.hostStep_write_of_none width off w h⟩
    | some t =>
      have e := s.hostStep_write_of_some width off w t h
      rcases s.busWrite_cases width off w t h with ⟨ht, hp, he, rfl⟩ | ⟨ht, hw, rfl⟩ | ⟨_, _, rfl⟩ | ⟨i, _, hi, hp, rfl⟩
      · exact Or.inr (Or.inr (Or.inr (Or.inl ⟨width, off, w, rfl, ht, hp, he, e⟩)))
      · exact Or.inr (Or.inr (Or.inl ⟨width, off, w, rfl, ht, hw, e⟩))
      · exact Or.inl ⟨_, e⟩
      · exact Or.inr (Or.inr (Or.inr (Or.inr ⟨width, off, w, i, rfl, hi, hp, e⟩)))

/-! ## Everything a step of the machine can do -/

theorem State.coreMove_of_pend (h : s.pend = true) : s.coreMove = s.coreStep := by simp [State.coreMove, h]

theorem State.coreMove_of_idle (h : s.pend = false) : s.coreMove = .next s := by simp [State.coreMove, h]

/-- Everything the core's step can do: run the decoded command, or enter the fault of a word that does not decode. -/
theorem State.coreStep_cases :
    (∃ i, decode s.L s.cmdr = .ok i ∧ s.coreStep = exec i s) ∨
      (∃ e, decode s.L s.cmdr = .error e ∧ s.coreStep = .next (s.raise .illegalCommand)) := by
  cases h : decode s.L s.cmdr with
  | ok i => exact Or.inl ⟨i, rfl, by simp [State.coreStep, State.pendingCommand, h]⟩
  | error e => exact Or.inr ⟨e, rfl, by simp [State.coreStep, State.pendingCommand, h]⟩

end Sys2Proof.Machine
end

