-- ==== Sys2Proof/Laws/Commands.lean ====
section
/-! SUPPORT. What each operand form and the end of a command can do, and what any command can do: `exec_cases`, from which
frames and invariants follow without unfolding a meaning. -/

namespace Sys2Proof.Machine

variable (s : State)

/-! ## Operand forms -/

theorem State.source_of_some (r : Reg) (v : Nat) (h : s.readReg r = some v) : s.source r = .ok v := by
  simp [State.source, h]

theorem State.source_of_none (r : Reg) (h : s.readReg r = none) : s.source r = .error .unwrittenOperand := by
  simp [State.source, h]

/-- Everything reading a source can do (10_state.md R22). -/
theorem State.source_cases (r : Reg) :
    (∃ v, s.readReg r = some v ∧ s.source r = .ok v) ∨
      (s.readReg r = none ∧ s.source r = .error .unwrittenOperand) := by
  cases h : s.readReg r with
  | none => exact Or.inr ⟨rfl, s.source_of_none r h⟩
  | some v => exact Or.inl ⟨v, rfl, s.source_of_some r v h⟩

theorem State.limbCount_of_legal (n : BitVec 12) (h : 1 ≤ n.toNat ∧ n.toNat ≤ s.L) :
    s.limbCount n = .ok n.toNat := if_pos h

theorem State.limbCount_of_illegal (n : BitVec 12) (h : ¬ (1 ≤ n.toNat ∧ n.toNat ≤ s.L)) :
    s.limbCount n = .error .illegalCommand := if_neg h

theorem distinct_of_ne (rq rr : Reg) (h : rq ≠ rr) : distinct rq rr = .ok () := if_pos h

@[simp] theorem distinct_self (r : Reg) : distinct r r = .error .illegalCommand := if_neg (fun h => h rfl)

@[simp] theorem failIf_true (f : FaultCode) : failIf true f = .error f := rfl

@[simp] theorem failIf_false (f : FaultCode) : failIf false f = .ok () := rfl

theorem failIf_decide_of (p : Prop) [Decidable p] (f : FaultCode) (h : p) : failIf (decide p) f = .error f := by
  simp [h]

theorem failIf_decide_of_not (p : Prop) [Decidable p] (f : FaultCode) (h : ¬ p) : failIf (decide p) f = .ok () := by
  simp [h]

/-! ## Sequencing the phases (60_exceptions.md R202): the first that raises ends the command -/

@[simp] theorem phase_ok {α β : Type} (a : α) (k : α → Except FaultCode β) : (Except.ok a >>= k) = k a := rfl

@[simp] theorem phase_error {α β : Type} (f : FaultCode) (k : α → Except FaultCode β) :
    ((Except.error f : Except FaultCode α) >>= k) = Except.error f := rfl

@[simp] theorem phase_pure {α : Type} (a : α) : (pure a : Except FaultCode α) = Except.ok a := rfl

/-! ## The end of a command -/

@[simp] theorem State.conclude_ok (t : State) : s.conclude (.ok t) = .next t.retire := rfl

@[simp] theorem State.conclude_error (f : FaultCode) : s.conclude (.error f) = .next (s.raise f) := rfl

/-- Everything the end of a command can do (70_reset_and_hazards.md R236). -/
theorem State.conclude_eq_next (r : Except FaultCode State) (t : State) :
    s.conclude r = .next t ↔ (∃ u, r = .ok u ∧ t = u.retire) ∨ (∃ f, r = .error f ∧ t = s.raise f) := by
  cases r with
  | ok u => simp [eq_comm]
  | error f => simp [eq_comm]

/-- A command always answers a next state (70_reset_and_hazards.md R237). -/
theorem State.conclude_next (r : Except FaultCode State) : ∃ t, s.conclude r = .next t := by
  cases r with
  | ok u => exact ⟨_, rfl⟩
  | error f => exact ⟨_, rfl⟩

/-! ## Everything a command can write -/

/-- The states phase 4 can leave (60_exceptions.md R202), with the bound on a register's new value that holds when the source
registers are in range. -/
inductive Written (s : State) : State → Prop where
  | nothing : Written s s
  | reg (r : Reg) (v : Nat) (fits : s.regsFit → v < BETA ^ s.L) : Written s (s.writeReg r v)
  | quotient (rq rr : Reg) (q r : Nat) (fits : s.regsFit → q < BETA ^ s.L ∧ r < BETA ^ s.L) :
      Written s ((s.writeReg rq q).writeReg rr r)
  | opbuf (v : Nat) (fits : s.regsFit → v < BETA ^ s.L) : Written s ((s.writeOpbufValue v).writeRlen (nlimbs v))
  | flags (c : CmpFlag) : Written s (s.writeCmpf c)

theorem modPowLoop_lt (m : Nat) (hm : 0 < m) (fuel result base e : Nat) (h : result < m) :
    modPowLoop m fuel result base e < m := by
  induction fuel generalizing result base e with
  | zero => exact h
  | succ fuel ih =>
    rw [modPowLoop]
    split
    · exact h
    · apply ih
      split
      · exact Nat.mod_lt _ hm
      · exact h

theorem modPow_lt (a x m : Nat) (hm : 0 < m) : modPow a x m < m :=
  modPowLoop_lt m hm _ _ _ _ (Nat.mod_lt _ hm)

theorem immediate_lt (imm16 : BitVec 16) : immediate imm16 < BETA ^ s.L := by
  have h1 : imm16.toNat < 2 ^ 16 := imm16.isLt
  have h2 : BETA ^ 1 ≤ BETA ^ s.L := Nat.pow_le_pow_right BETA_pos s.cap.property.1
  have h3 : (2 : Nat) ^ 16 < BETA ^ 1 := by decide
  unfold immediate
  omega

theorem opbufValue_lt (n : Nat) (h : n ≤ s.L) : s.opbufValue n < BETA ^ s.L := by
  have h1 := val_lt ((List.range n).map s.opbufWord)
  rw [List.length_map, List.length_range] at h1
  exact Nat.lt_of_lt_of_le h1 (Nat.pow_le_pow_right BETA_pos h)

/-- A command that has run either completed, its writes made and PEND cleared, or faulted, entered from the state it started
in. -/
def Concluded (s : State) (r : Except FaultCode State) : Prop := ∀ u, r = .ok u → Written s u

theorem Concluded.error (f : FaultCode) : Concluded s (.error f) := by
  intro u h
  cases h

theorem Concluded.ok (u : State) (h : Written s u) : Concluded s (.ok u) := by
  intro t ht
  cases ht
  exact h

/-- A command that starts by reading a source: it faults, or goes on with a value that is in range when the registers are. -/
theorem Concluded.source (r : Reg) (k : Nat → Except FaultCode State)
    (h : ∀ v, (s.regsFit → v < BETA ^ s.L) → Concluded s (k v)) : Concluded s (s.source r >>= k) := by
  rcases s.source_cases r with ⟨v, hv, e⟩ | ⟨_, e⟩
  · rw [e, phase_ok]
    exact h v (fun fit => fit r v hv)
  · rw [e, phase_error]
    exact Concluded.error s _

theorem Concluded.failIf (p : Prop) [Decidable p] (f : FaultCode) (k : Unit → Except FaultCode State)
    (h : ¬ p → Concluded s (k ())) : Concluded s (failIf (decide p) f >>= k) := by
  by_cases hp : p
  · rw [failIf_decide_of p f hp, phase_error]
    exact Concluded.error s _
  · rw [failIf_decide_of_not p f hp, phase_ok]
    exact h hp

/-- Every command concludes, and what it may have written is one of the cases of `Written`. -/
theorem exec_concludes (i : Instr) : ∃ r, exec i s = s.conclude r ∧ Concluded s r := by
  cases i with
  | nop => exact ⟨_, rfl, Concluded.ok s s .nothing⟩
  | ldi rd imm16 => exact ⟨_, rfl, Concluded.ok s _ (.reg rd _ fun _ => immediate_lt s imm16)⟩
  | ld rd n =>
    refine ⟨_, rfl, ?_⟩
    by_cases h : 1 ≤ n.toNat ∧ n.toNat ≤ s.L
    · rw [s.limbCount_of_legal n h, phase_ok, phase_pure]
      exact Concluded.ok s _ (.reg rd _ fun _ => opbufValue_lt s _ h.2)
    · rw [s.limbCount_of_illegal n h, phase_error]
      exact Concluded.error s _
  | st ra =>
    exact ⟨_, rfl, Concluded.source s _ _ fun v hv => Concluded.ok s _ (.opbuf v hv)⟩
  | mov rd ra =>
    exact ⟨_, rfl, Concluded.source s _ _ fun v hv => Concluded.ok s _ (.reg rd v hv)⟩
  | add rd ra rb =>
    refine ⟨_, rfl, Concluded.source s _ _ fun a _ => Concluded.source s _ _ fun b _ => ?_⟩
    exact Concluded.failIf s _ _ _ fun h => Concluded.ok s _ (.reg rd _ fun _ => by omega)
  | sub rd ra rb =>
    refine ⟨_, rfl, Concluded.source s _ _ fun a ha => Concluded.source s _ _ fun b _ => ?_⟩
    exact Concluded.failIf s _ _ _ fun _ => Concluded.ok s _ (.reg rd _ fun fit => by have := ha fit; omega)
  | mul rd ra rb =>
    refine ⟨_, rfl, Concluded.source s _ _ fun a _ => Concluded.source s _ _ fun b _ => ?_⟩
    exact Concluded.failIf s _ _ _ fun h => Concluded.ok s _ (.reg rd _ fun _ => by omega)
  | divmod rq rr ra rb =>
    refine ⟨_, rfl, ?_⟩
    by_cases hd : rq = rr
    · rw [hd, distinct_self, phase_error]
      exact Concluded.error s _
    rw [distinct_of_ne rq rr hd, phase_ok]
    refine Concluded.source s _ _ fun a ha => Concluded.source s _ _ fun b hb => ?_
    refine Concluded.failIf s _ _ _ fun h => Concluded.ok s _ (.quotient rq rr _ _ fun fit => ?_)
    exact ⟨Nat.lt_of_le_of_lt (Nat.div_le_self a b) (ha fit),
      Nat.lt_trans (Nat.mod_lt a (Nat.pos_of_ne_zero h)) (hb fit)⟩
  | cmp ra rb =>
    refine ⟨_, rfl, Concluded.source s _ _ fun a _ => Concluded.source s _ _ fun b _ => ?_⟩
    exact Concluded.ok s _ (.flags _)
  | modexp rd ra rb rc =>
    refine ⟨_, rfl, Concluded.source s _ _ fun a _ => Concluded.source s _ _ fun x _ =>
      Concluded.source s _ _ fun m hm => ?_⟩
    exact Concluded.failIf s _ _ _ fun h => Concluded.ok s _
      (.reg rd _ fun fit => Nat.lt_trans (modPow_lt a x m (Nat.pos_of_ne_zero h)) (hm fit))

/-- Everything a command can do: complete with one of the writes of phase 4 and PEND cleared, or enter a fault. -/
theorem exec_cases (i : Instr) (t : State) (h : exec i s = .next t) :
    (∃ u, Written s u ∧ t = u.retire) ∨ ∃ f, t = s.raise f := by
  obtain ⟨r, hr, hw⟩ := exec_concludes s i
  rw [hr, s.conclude_eq_next] at h
  rcases h with ⟨u, e, ht⟩ | ⟨f, _, ht⟩
  · exact Or.inl ⟨u, hw u e, ht⟩
  · exact Or.inr ⟨f, ht⟩

end Sys2Proof.Machine
end

