-- ==== Sys2Proof/Laws/Decode.lean ====
section
/-! SUPPORT. Bit fields as arithmetic (00_scope.md R8), the word an encoding is, and the checks of the decoder. -/

namespace Sys2Proof

/-- The word an encoding is, when its fields fit (30_encoding.md R81). -/
theorem wordOf_toNat (op f1 f2 f3 f4 low : Nat) (hop : op < 256) (h1 : f1 < 16)
    (h2 : f2 * 2 ^ 16 + f3 * 2 ^ 12 + f4 * 2 ^ 8 + low < 2 ^ 20) :
    (wordOf op f1 f2 f3 f4 low).toNat =
      op * 2 ^ 24 + f1 * 2 ^ 20 + f2 * 2 ^ 16 + f3 * 2 ^ 12 + f4 * 2 ^ 8 + low := by
  have h : op * 2 ^ 24 + f1 * 2 ^ 20 + f2 * 2 ^ 16 + f3 * 2 ^ 12 + f4 * 2 ^ 8 + low < 2 ^ 32 := by
    have hop' : op ≤ 255 := Nat.le_of_lt_succ hop
    have h1' : f1 ≤ 15 := Nat.le_of_lt_succ h1
    linarith
  rw [wordOf, BitVec.toNat_ofNat, Nat.mod_eq_of_lt h]

/-- A field as a quotient and a remainder, for literal bounds. -/
theorem field_eq (w : Word) (hi lo n : Nat) (h : hi - lo + 1 = n) : field w hi lo = w.toNat / 2 ^ lo % 2 ^ n := by
  rw [field, h]

theorem regField_of_lt (w : Word) (hi lo : Nat) (r : Reg) (h : field w hi lo = r.val) : regField w hi lo = .ok r := by
  have h8 : field w hi lo < 8 := h ▸ r.isLt
  rw [regField, dif_pos h8]
  exact congrArg Except.ok (Fin.ext h)

theorem regField_eq_ok (w : Word) (hi lo : Nat) (r : Reg) : regField w hi lo = .ok r ↔ field w hi lo = r.val := by
  constructor
  · intro h
    unfold regField at h
    split at h
    · cases h; rfl
    · cases h
  · exact regField_of_lt w hi lo r

theorem zeroBits_of_eq (w : Word) (hi lo : Nat) (h : field w hi lo = 0) : zeroBits w hi lo = .ok () := if_pos h

theorem zeroBits_eq_ok (w : Word) (hi lo : Nat) (u : Unit) : zeroBits w hi lo = .ok u ↔ field w hi lo = 0 := by
  constructor
  · intro h
    unfold zeroBits at h
    split at h
    · assumption
    · cases h
  · exact zeroBits_of_eq w hi lo

theorem limbCount_eq_ok (L : Nat) (w : Word) (n : BitVec 12) :
    limbCount L w = .ok n ↔ (1 ≤ n.toNat ∧ n.toNat ≤ L) ∧ field w 11 0 = n.toNat := by
  have hlt : field w 11 0 < 2 ^ 12 := Nat.mod_lt _ (by decide)
  constructor
  · intro h
    unfold limbCount at h
    split at h
    · next hc =>
      cases h
      rw [BitVec.toNat_ofNat, Nat.mod_eq_of_lt hlt]
      exact ⟨hc, rfl⟩
    · cases h
  · rintro ⟨hc, hf⟩
    rw [limbCount, if_pos (by rw [hf]; exact hc)]
    exact congrArg Except.ok (BitVec.eq_of_toNat_eq (by rw [BitVec.toNat_ofNat, Nat.mod_eq_of_lt hlt, hf]))

theorem distinctDests_eq_ok (rq rr : Reg) (u : Unit) : distinctDests rq rr = .ok u ↔ rq ≠ rr := by
  constructor
  · intro h
    unfold distinctDests at h
    split at h
    · assumption
    · cases h
  · exact fun h => if_pos h

/-- One check of the decoder, then the rest: both succeed or the word is illegal. -/
theorem decodeBind_eq_ok {α β : Type} (x : Except DecodeError α) (k : α → Except DecodeError β) (b : β) :
    (x >>= k) = .ok b ↔ ∃ a, x = .ok a ∧ k a = .ok b := by
  cases x with
  | ok a => exact ⟨fun h => ⟨a, rfl, h⟩, fun ⟨_, e, h⟩ => by cases e; exact h⟩
  | error e => exact ⟨fun h => (by cases h), fun ⟨_, e, _⟩ => (by cases e)⟩

/-! ## The formats: when each reads a command from a word -/

theorem decodePure_eq_ok (j i : Instr) : (pure j : Except DecodeError Instr) = .ok i ↔ j = i :=
  ⟨fun h => Except.ok.inj h, fun h => congrArg Except.ok h⟩

theorem formatZ_eq_ok (j : Instr) (w : Word) (i : Instr) : formatZ j w = .ok i ↔ field w 23 0 = 0 ∧ j = i := by
  rw [formatZ, decodeBind_eq_ok]
  simp only [zeroBits_eq_ok, decodePure_eq_ok]
  exact ⟨fun ⟨_, h⟩ => h, fun h => ⟨(), h⟩⟩

theorem formatI_eq_ok (make : Reg → BitVec 16 → Instr) (w : Word) (i : Instr) :
    formatI make w = .ok i ↔
      field w 19 16 = 0 ∧ ∃ rd : Reg, field w 23 20 = rd.val ∧ make rd (BitVec.ofNat 16 (field w 15 0)) = i := by
  rw [formatI]
  simp only [decodeBind_eq_ok, zeroBits_eq_ok, regField_eq_ok, decodePure_eq_ok]
  exact ⟨fun ⟨_, h⟩ => h, fun h => ⟨(), h⟩⟩

theorem formatL_eq_ok (L : Nat) (make : Reg → BitVec 12 → Instr) (w : Word) (i : Instr) :
    formatL L make w = .ok i ↔
      field w 19 12 = 0 ∧ ∃ rd : Reg, field w 23 20 = rd.val ∧
        ∃ n : BitVec 12, ((1 ≤ n.toNat ∧ n.toNat ≤ L) ∧ field w 11 0 = n.toNat) ∧ make rd n = i := by
  rw [formatL]
  simp only [decodeBind_eq_ok, zeroBits_eq_ok, regField_eq_ok, limbCount_eq_ok, decodePure_eq_ok]
  exact ⟨fun ⟨_, h⟩ => h, fun h => ⟨(), h⟩⟩

theorem formatS_eq_ok (make : Reg → Instr) (w : Word) (i : Instr) :
    formatS make w = .ok i ↔
      field w 23 20 = 0 ∧ field w 15 0 = 0 ∧ ∃ ra : Reg, field w 19 16 = ra.val ∧ make ra = i := by
  rw [formatS]
  simp only [decodeBind_eq_ok, zeroBits_eq_ok, regField_eq_ok, decodePure_eq_ok]
  exact ⟨fun ⟨_, h, _, h'⟩ => ⟨h, h'⟩, fun ⟨h, h'⟩ => ⟨(), h, (), h'⟩⟩

theorem formatR2_eq_ok (make : Reg → Reg → Instr) (w : Word) (i : Instr) :
    formatR2 make w = .ok i ↔
      field w 15 0 = 0 ∧ ∃ rd : Reg, field w 23 20 = rd.val ∧ ∃ ra : Reg, field w 19 16 = ra.val ∧ make rd ra = i := by
  rw [formatR2]
  simp only [decodeBind_eq_ok, zeroBits_eq_ok, regField_eq_ok, decodePure_eq_ok]
  exact ⟨fun ⟨_, h⟩ => h, fun h => ⟨(), h⟩⟩

theorem formatC_eq_ok (make : Reg → Reg → Instr) (w : Word) (i : Instr) :
    formatC make w = .ok i ↔
      field w 23 20 = 0 ∧ field w 11 0 = 0 ∧
        ∃ ra : Reg, field w 19 16 = ra.val ∧ ∃ rb : Reg, field w 15 12 = rb.val ∧ make ra rb = i := by
  rw [formatC]
  simp only [decodeBind_eq_ok, zeroBits_eq_ok, regField_eq_ok, decodePure_eq_ok]
  exact ⟨fun ⟨_, h, _, h'⟩ => ⟨h, h'⟩, fun ⟨h, h'⟩ => ⟨(), h, (), h'⟩⟩

theorem formatR3_eq_ok (make : Reg → Reg → Reg → Instr) (w : Word) (i : Instr) :
    formatR3 make w = .ok i ↔
      field w 11 0 = 0 ∧ ∃ rd : Reg, field w 23 20 = rd.val ∧ ∃ ra : Reg, field w 19 16 = ra.val ∧
        ∃ rb : Reg, field w 15 12 = rb.val ∧ make rd ra rb = i := by
  rw [formatR3]
  simp only [decodeBind_eq_ok, zeroBits_eq_ok, regField_eq_ok, decodePure_eq_ok]
  exact ⟨fun ⟨_, h⟩ => h, fun h => ⟨(), h⟩⟩

theorem formatR4_eq_ok (make : Reg → Reg → Reg → Reg → Instr) (w : Word) (i : Instr) :
    formatR4 make w = .ok i ↔
      field w 7 0 = 0 ∧ ∃ f1 : Reg, field w 23 20 = f1.val ∧ ∃ f2 : Reg, field w 19 16 = f2.val ∧
        ∃ f3 : Reg, field w 15 12 = f3.val ∧ ∃ f4 : Reg, field w 11 8 = f4.val ∧ make f1 f2 f3 f4 = i := by
  rw [formatR4]
  simp only [decodeBind_eq_ok, zeroBits_eq_ok, regField_eq_ok, decodePure_eq_ok]
  exact ⟨fun ⟨_, h⟩ => h, fun h => ⟨(), h⟩⟩

theorem formatR4Distinct_eq_ok (make : Reg → Reg → Reg → Reg → Instr) (w : Word) (i : Instr) :
    formatR4Distinct make w = .ok i ↔
      field w 7 0 = 0 ∧ ∃ f1 : Reg, field w 23 20 = f1.val ∧ ∃ f2 : Reg, field w 19 16 = f2.val ∧
        ∃ f3 : Reg, field w 15 12 = f3.val ∧ ∃ f4 : Reg, field w 11 8 = f4.val ∧
          f1 ≠ f2 ∧ make f1 f2 f3 f4 = i := by
  rw [formatR4Distinct]
  simp only [decodeBind_eq_ok, zeroBits_eq_ok, regField_eq_ok, distinctDests_eq_ok, decodePure_eq_ok]
  constructor
  · rintro ⟨_, h, f1, h1, f2, h2, f3, h3, f4, h4, _, h5, h6⟩
    exact ⟨h, f1, h1, f2, h2, f3, h3, f4, h4, h5, h6⟩
  · rintro ⟨h, f1, h1, f2, h2, f3, h3, f4, h4, h5, h6⟩
    exact ⟨(), h, f1, h1, f2, h2, f3, h3, f4, h4, (), h5, h6⟩

end Sys2Proof
end

