-- ==== Sys2Proof/Laws/PerInstr.lean ====
section
/-! SUPPORT. Statements for all instructions, one lemma per constructor. Family `OpcodeField`: the opcode of an encoded command
stands in bits 31:24 and is the one 30_encoding.md R84 gives its mnemonic. -/

namespace Sys2Proof.Laws.OpcodeField

/-- The "opcode" column of 30_encoding.md R84. -/
def opcodeOf : Instr → Nat
  | .nop => 0x00
  | .ldi _ _ => 0x01
  | .ld _ _ => 0x02
  | .st _ => 0x03
  | .mov _ _ => 0x04
  | .add _ _ _ => 0x10
  | .sub _ _ _ => 0x11
  | .mul _ _ _ => 0x12
  | .divmod _ _ _ _ => 0x13
  | .cmp _ _ => 0x14
  | .modexp _ _ _ _ => 0x20

/-- Bits 31:24 of the encoded command are its opcode (30_encoding.md R80, R84). -/
def Statement (i : Instr) : Prop := field (encode i) 31 24 = opcodeOf i

theorem of_wordOf (op f1 f2 f3 f4 low : Nat) (hop : op < 256) (h1 : f1 < 16)
    (h2 : f2 * 2 ^ 16 + f3 * 2 ^ 12 + f4 * 2 ^ 8 + low < 2 ^ 20) : field (wordOf op f1 f2 f3 f4 low) 31 24 = op := by
  rw [field_eq _ _ _ 8 rfl, wordOf_toNat _ _ _ _ _ _ hop h1 h2]
  omega

theorem nop : Statement .nop := of_wordOf 0x00 0 0 0 0 0 (by decide) (by decide) (by decide)

theorem ldi (rd : Reg) (imm16 : BitVec 16) : Statement (.ldi rd imm16) :=
  of_wordOf 0x01 rd.val 0 0 0 imm16.toNat (by decide) (by omega) (by have := imm16.isLt; omega)

theorem ld (rd : Reg) (n : BitVec 12) : Statement (.ld rd n) :=
  of_wordOf 0x02 rd.val 0 0 0 n.toNat (by decide) (by omega) (by have := n.isLt; omega)

theorem st (ra : Reg) : Statement (.st ra) := of_wordOf 0x03 0 ra.val 0 0 0 (by decide) (by decide) (by omega)

theorem mov (rd ra : Reg) : Statement (.mov rd ra) :=
  of_wordOf 0x04 rd.val ra.val 0 0 0 (by decide) (by omega) (by omega)

theorem add (rd ra rb : Reg) : Statement (.add rd ra rb) :=
  of_wordOf 0x10 rd.val ra.val rb.val 0 0 (by decide) (by omega) (by omega)

theorem sub (rd ra rb : Reg) : Statement (.sub rd ra rb) :=
  of_wordOf 0x11 rd.val ra.val rb.val 0 0 (by decide) (by omega) (by omega)

theorem mul (rd ra rb : Reg) : Statement (.mul rd ra rb) :=
  of_wordOf 0x12 rd.val ra.val rb.val 0 0 (by decide) (by omega) (by omega)

theorem divmod (rq rr ra rb : Reg) : Statement (.divmod rq rr ra rb) :=
  of_wordOf 0x13 rq.val rr.val ra.val rb.val 0 (by decide) (by omega) (by omega)

theorem cmp (ra rb : Reg) : Statement (.cmp ra rb) :=
  of_wordOf 0x14 0 ra.val rb.val 0 0 (by decide) (by decide) (by omega)

theorem modexp (rd ra rb rc : Reg) : Statement (.modexp rd ra rb rc) :=
  of_wordOf 0x20 rd.val ra.val rb.val rc.val 0 (by decide) (by omega) (by omega)

end Sys2Proof.Laws.OpcodeField
end

