-- ==== Sys2Proof/Laws/Step.lean ====
section
/-! SUPPORT. Everything one step can do: the move the schedule names. -/

namespace Sys2Proof.Machine

theorem step_of_no_moves (s : State) (h : s.moves = []) : step s = s.coreMove := by
  simp [step, State.nextMove, h]

theorem step_of_core (s : State) (rest : List Move) (h : s.moves = .core :: rest) :
    step s = (s.withMoves rest).coreMove := by
  simp [step, State.nextMove, h]

theorem step_of_host (s : State) (a : HostAction) (rest : List Move) (h : s.moves = .host a :: rest) :
    step s = .next ((s.withMoves rest).hostStep a) := by
  simp [step, State.nextMove, h]

/-- Everything a step that answers a next state can have been: the host's move; or the core's, with some schedule left, which
was idle, ran the decoded command, or met a word that does not decode. -/
theorem step_cases (s t : State) (h : step s = .next t) :
    (∃ a rest, s.moves = .host a :: rest ∧ t = (s.withMoves rest).hostStep a) ∨
      (∃ ms, (s.moves = [] ∧ ms = [] ∨ s.moves = .core :: ms) ∧
        ((s.pend = false ∧ t = s.withMoves ms) ∨
          (∃ i, s.pend = true ∧ decode s.L s.cmdr = .ok i ∧ exec i (s.withMoves ms) = .next t) ∨
          (∃ e, s.pend = true ∧ decode s.L s.cmdr = .error e ∧ t = (s.withMoves ms).raise .illegalCommand))) := by
  have core : ∀ ms, (s.withMoves ms).coreMove = .next t →
      ((s.pend = false ∧ t = s.withMoves ms) ∨
        (∃ i, s.pend = true ∧ decode s.L s.cmdr = .ok i ∧ exec i (s.withMoves ms) = .next t) ∨
        (∃ e, s.pend = true ∧ decode s.L s.cmdr = .error e ∧ t = (s.withMoves ms).raise .illegalCommand)) := by
    intro ms hm
    cases hp : s.pend with
    | false =>
      rw [(s.withMoves ms).coreMove_of_idle hp] at hm
      cases hm
      exact Or.inl ⟨rfl, rfl⟩
    | true =>
      rw [(s.withMoves ms).coreMove_of_pend hp] at hm
      rcases (s.withMoves ms).coreStep_cases with ⟨i, hd, e⟩ | ⟨e', hd, e⟩
      · rw [e] at hm
        exact Or.inr (Or.inl ⟨i, rfl, hd, hm⟩)
      · rw [e] at hm
        cases hm
        exact Or.inr (Or.inr ⟨e', rfl, hd, rfl⟩)
  cases hs : s.moves with
  | nil =>
    have e : s.withMoves [] = s := by rw [← hs]; rfl
    rw [step_of_no_moves s hs] at h
    exact Or.inr ⟨[], Or.inl ⟨rfl, rfl⟩, core [] (by rw [e]; exact h)⟩
  | cons m rest =>
    cases m with
    | core =>
      rw [step_of_core s rest hs] at h
      exact Or.inr ⟨rest, Or.inr rfl, core rest h⟩
    | host a =>
      rw [step_of_host s a rest hs] at h
      cases h
      exact Or.inl ⟨a, rest, rfl, rfl⟩

end Sys2Proof.Machine
end

