-- ==== Sys2Proof/Tests/Slice0.lean ====
section
/-! SUPPORT. The model's own tests: ill-formed terms, words written out from the encodings, one step of every command on the spec's
vectors (95_test_vectors.md), the bus, and for every statement with hypotheses a state and operands that meet them together. -/

namespace Sys2Proof.Tests

open Sys2Proof.Machine

/-! ## Well-formedness: each check refuses an ill-formed term (30_encoding.md R84) -/

theorem test_ld_count_zero_refused : (Instr.ld 0 0).wellFormed 128 = false := by decide

theorem test_ld_count_above_capacity_refused : (Instr.ld 0 129).wellFormed 128 = false := by decide

theorem test_divmod_equal_dests_refused : (Instr.divmod 1 1 5 2).wellFormed 128 = false := by decide

theorem test_ld_count_at_capacity_accepted : (Instr.ld 0 128).wellFormed 128 = true := by decide

/-! ## Decoding: words written out bit by bit from 30_encoding.md R81 (opcode, then the nibbles of bits 23 to 0); most of them are
95_test_vectors.md 2.7 and 2.8 -/

theorem test_decode_nop : decode 128 0b0000_0000_0000_0000_0000_0000_0000_0000 = .ok .nop := by decide

theorem test_decode_ldi : decode 128 0b0000_0001_0110_0000_0000_0001_0000_0000 = .ok (.ldi 6 256) := by decide

theorem test_decode_ld : decode 128 0b0000_0010_0011_0000_0000_0000_0000_0010 = .ok (.ld 3 2) := by decide

theorem test_decode_st : decode 128 0b0000_0011_0000_0101_0000_0000_0000_0000 = .ok (.st 5) := by decide

theorem test_decode_mov : decode 128 0b0000_0100_0101_0110_0000_0000_0000_0000 = .ok (.mov 5 6) := by decide

theorem test_decode_add : decode 128 0b0001_0000_0011_0000_0001_0000_0000_0000 = .ok (.add 3 0 1) := by decide

theorem test_decode_sub : decode 128 0b0001_0001_0100_0000_0110_0000_0000_0000 = .ok (.sub 4 0 6) := by decide

theorem test_decode_mul : decode 128 0b0001_0010_0011_0000_0001_0000_0000_0000 = .ok (.mul 3 0 1) := by decide

theorem test_decode_divmod : decode 128 0b0001_0011_0110_0111_0101_0010_0000_0000 = .ok (.divmod 6 7 5 2) := by
  decide

theorem test_decode_cmp : decode 128 0b0001_0100_0000_0111_0000_0000_0000_0000 = .ok (.cmp 7 0) := by decide

theorem test_decode_modexp : decode 128 0b0010_0000_0101_0000_0010_0011_0000_0000 = .ok (.modexp 5 0 2 3) := by
  decide

/-- 95_test_vectors.md 2.8, the illegal words, and each rejection's name. -/
theorem test_decode_rejections :
    decode 128 0x05000000 = .error .unknownOpcode ∧ decode 128 0xFF000000 = .error .unknownOpcode ∧
    decode 128 0x00000001 = .error .reservedBits ∧ decode 128 0x10801000 = .error .registerIndex ∧
    decode 128 0x10301001 = .error .reservedBits ∧ decode 128 0x14170000 = .error .reservedBits ∧
    decode 128 0x01210003 = .error .reservedBits ∧ decode 128 0x13115200 = .error .sameDestination ∧
    decode 128 0x02001001 = .error .reservedBits ∧ decode 128 0x02000000 = .error .limbCount ∧
    decode 128 0x02000081 = .error .limbCount := by decide

/-- 30_encoding.md R88: the words of the pseudo-instructions ZERO B5 and ONE B5. -/
theorem test_decode_pseudo : decode 128 0x01500000 = .ok (.ldi 5 0) ∧ decode 128 0x01500001 = .ok (.ldi 5 1) := by
  decide

/-! ## States -/

/-- A core with `L = 2` and the first four registers as given, nothing else written. -/
def small (b0 b1 b2 b3 : Option Nat) : State :=
  { State.reset with cap := ⟨2, by decide⟩, regs := #v[b0, b1, b2, b3, none, none, none, none] }

/-- That core with a command pending and it being the core's turn. -/
def pending (s : State) (w : Word) : State := { s with cmdr := w, pend := true, moves := [.core] }

/-- That core with one host move to come. -/
def hosted (s : State) (a : HostAction) : State := { s with moves := [.host a] }

/-- Whether a step answered a next state with the property. -/
def answers (o : Host.Outcome State Fault Refusal) (p : State → Bool) : Bool :=
  match o with
  | .next t => p t
  | _ => false

/-- A register file is in range when each of the eight registers is. -/
theorem regsFit_of_all (s : State)
    (h : ∀ r : Reg, (match s.readReg r with | none => true | some v => decide (v < BETA ^ s.L)) = true) : s.regsFit := by
  intro r v hv
  have := h r
  rw [hv] at this
  simpa using this

/-- A core with three values in range meets the invariant. -/
theorem small_inv : (small (some 18537) (some (2 ^ 64 - 1)) (some 0) (some 1)).Inv :=
  ⟨regsFit_of_all _ (by decide), by decide, (fun _ hc => by cases hc), by decide, by decide⟩

/-! ## The commands on the spec's vectors -/

/-- 95_test_vectors.md 2.7: NOP changes nothing but PEND; STATUS reads 1 until the core steps (46_data_movement.md R160). -/
theorem test_nop : (pending (small none none none none) 0).statusWord = 1 ∧
    step (pending (small none none none none) 0) = .next (small none none none none) := by
  exact ⟨by decide, rfl⟩

/-- 95_test_vectors.md 2.7: `LDI B7, 65535`. -/
theorem test_ldi_largest :
    answers (step (pending (small none none none none) 0x0170FFFF)) (fun t => t.readReg 7 == some 65535) = true := by
  decide

/-- 95_test_vectors.md 2.7: OPBUF `[5, 1]`, `LD B0, 2` gives `2^32 + 5`. -/
theorem test_ld_two_words :
    answers (exec (.ld 0 2) (((small none none none none).writeOpbufWord 0 5).writeOpbufWord 1 1))
      (fun t => t.readReg 0 == some (2 ^ 32 + 5)) = true := by decide

/-- 95_test_vectors.md 2.7: high zero words are stripped, and word 1 is ignored by a count of 1. -/
theorem test_ld_ignores_higher_words :
    answers (exec (.ld 0 1) (((small none none none none).writeOpbufWord 0 5).writeOpbufWord 1 0xFFFFFFFF))
      (fun t => t.readReg 0 == some 5 && nlimbs 5 == 1) = true := by decide

/-- 95_test_vectors.md 2.7: `B0 = 2^32 + 5`, `ST B0`. -/
theorem test_st_two_limbs :
    answers (exec (.st 0) (small (some (2 ^ 32 + 5)) none none none))
      (fun t => t.opbufWord 0 == 5 && t.opbufWord 1 == 1 && t.rlen == 2) = true := by decide

/-- 95_test_vectors.md 2.7: zero has length 1; ST overwrites the whole buffer. -/
theorem test_st_zero :
    answers (exec (.st 0) ((small (some 0) none none none).writeOpbufWord 1 7))
      (fun t => t.opbufWord 0 == 0 && t.opbufWord 1 == 0 && t.rlen == 1) = true := by decide

/-- 95_test_vectors.md 2.7: `MOV` copies. -/
theorem test_mov :
    answers (exec (.mov 1 0) (small (some 6111579) none none none))
      (fun t => t.readReg 1 == some 6111579 && t.readReg 0 == some 6111579) = true := by decide

/-- 95_test_vectors.md 2.1: the carry out grows the result; `ADD B1, B1, B1` doubles. -/
theorem test_add :
    answers (exec (.add 2 0 1) (small (some 0xFFFFFFFF) (some 1) none none))
      (fun t => t.readReg 2 == some 0x100000000) = true ∧
    answers (exec (.add 1 1 1) (small none (some 5) none none)) (fun t => t.readReg 1 == some 10) = true := by decide

/-- 95_test_vectors.md 2.1: at `L = 2` the sum `BETA^2` faults, STATUS `0x52`, and the destination is unchanged. -/
theorem test_add_overflow :
    answers (exec (.add 2 0 1) (small (some 0xFFFFFFFFFFFFFFFF) (some 1) (some 9) none))
      (fun t => t.statusWord == 0x52 && t.readReg 2 == some 9) = true := by decide

/-- 95_test_vectors.md 2.2: the result is shorter than the minuend. -/
theorem test_sub :
    answers (exec (.sub 2 0 1) (small (some 0x100000000) (some 1) none none))
      (fun t => t.readReg 2 == some 0xFFFFFFFF) = true := by decide

/-- 95_test_vectors.md 2.2: `5 - 7` faults, STATUS `0x42`, word `0x11201000`. -/
theorem test_sub_underflow :
    answers (step (pending (small (some 5) (some 7) none none) 0x11201000))
      (fun t => t.statusWord == 0x42 && t.readReg 2 == none && t.cmdr == 0x11201000) = true := by decide

/-- 95_test_vectors.md 2.3: the largest one-limb product fits in two limbs. -/
theorem test_mul :
    answers (exec (.mul 2 0 0) (small (some 0xFFFFFFFF) none none none))
      (fun t => t.readReg 2 == some 0xFFFFFFFE00000001) = true := by decide

/-- 95_test_vectors.md 2.3: at `L = 2`, `BETA * BETA` faults. -/
theorem test_mul_overflow :
    answers (exec (.mul 2 0 0) (small (some 0x100000000) none none none)) (fun t => t.statusWord == 0x52) = true := by
  decide

/-- 95_test_vectors.md 2.4: `2^32 + 5` by 3. -/
theorem test_divmod :
    answers (exec (.divmod 0 1 0 1) (small (some 0x100000005) (some 3) none none))
      (fun t => t.readReg 0 == some 0x55555557 && t.readReg 1 == some 0) = true := by decide

/-- 95_test_vectors.md 2.4: a zero divisor faults, STATUS `0x32`, neither destination written. -/
theorem test_divmod_by_zero :
    answers (exec (.divmod 2 3 0 1) (small (some 0) (some 0) none none))
      (fun t => t.statusWord == 0x32 && t.readReg 2 == none && t.readReg 3 == none) = true := by decide

/-- 95_test_vectors.md 2.5: LT, EQ and GT as STATUS shows them. -/
theorem test_cmp :
    answers (exec (.cmp 0 1) (small (some 0xFFFFFFFF) (some 0x100000000) none none)) (fun t => t.statusWord == 4) = true ∧
    answers (exec (.cmp 0 0) (small (some 7) none none none)) (fun t => t.statusWord == 8) = true ∧
    answers (exec (.cmp 0 1) (small (some 0x200000001) (some 0x1FFFFFFFF) none none))
      (fun t => t.statusWord == 0xC) = true := by decide

/-- 95_test_vectors.md 2.6: source operands, their round trip, and the edge cases of `x = 0` and `m = 1`. -/
theorem test_modexp_values :
    modPow 18537 3 9173503 = 4757582 ∧ modPow 4757582 6111579 9173503 = 18537 ∧ modPow 4 13 497 = 445 ∧
    modPow 10 2 7 = 2 ∧ modPow 0 0 7 = 1 ∧ modPow 9 0 1 = 0 ∧ modPow 9 5 1 = 0 ∧ modPow 7 1 3 = 1 ∧
    modPow (2 ^ 64 + 5) (2 ^ 33 + 1) (2 ^ 64 - 59) = 7700012870197073984 := by decide

/-- 95_test_vectors.md 2.6: an invalid exponent with a zero modulus is `UnwrittenOperand`. -/
theorem test_modexp_faults :
    answers (exec (.modexp 3 0 1 2) (small (some 4) none (some 0) none)) (fun t => t.statusWord == 0x22) = true ∧
    answers (exec (.modexp 3 0 1 2) (small (some 0) (some 0) (some 0) none)) (fun t => t.statusWord == 0x32) = true := by
  decide

/-! ## The bus on 95_test_vectors.md 2.9 and 3.3 -/

/-- Reset: STATUS reads 0 and CAP reads `0x00808020`. -/
theorem test_bus_reset_reads :
    answers (step (hosted State.reset (.read .word 0x0004))) (fun t => t.answer == some (.okData 0)) = true ∧
    answers (step (hosted State.reset (.read .word 0x000C))) (fun t => t.answer == some (.okData 0x00808020)) = true := by
  decide

/-- Idle: a word of OPBUF is written; `0x1000 + 4*L`, a misaligned offset and STATUS refuse a write. -/
theorem test_bus_writes :
    answers (step (hosted State.reset (.write .word 0x1000 0x4869)))
      (fun t => t.answer == some .ok && t.opbufWord 0 == 0x4869) = true ∧
    answers (step (hosted State.reset (.write .word 0x1200 1))) (fun t => t.answer == some .busError && t.mem == []) = true ∧
    answers (step (hosted State.reset (.write .word 0x1002 1))) (fun t => t.answer == some .busError && t.mem == []) = true ∧
    answers (step (hosted State.reset (.write .word 0x0004 0))) (fun t => t.answer == some .busError) = true ∧
    answers (step (hosted State.reset (.write .word 0x0008 2))) (fun t => t.answer == some .busError) = true := by decide

/-- Busy: STATUS answers, OPBUF and CMD refuse. -/
theorem test_bus_busy :
    answers (step (hosted (State.reset.accept 0) (.read .word 0x0004))) (fun t => t.answer == some (.okData 1)) = true ∧
    answers (step (hosted (State.reset.accept 0) (.read .word 0x1000))) (fun t => t.answer == some .busError) = true ∧
    answers (step (hosted (State.reset.accept 0) (.write .word 0x0000 0x01300001)))
      (fun t => t.answer == some .busError && t.cmdr == 0) = true := by decide

/-- Program P3 of 95_test_vectors.md 3.3, from the fault on: CMD shows the faulting word, a command is refused, a soft reset clears
the registers and ERR. -/
theorem test_bus_faulted :
    answers (step (hosted { small (some 5) (some 7) none none with err := some .arithmeticUnderflow, cmdr := 0x11201000 }
      (.read .word 0x0000))) (fun t => t.answer == some (.okData 0x11201000)) = true ∧
    answers (step (hosted { small (some 5) (some 7) none none with err := some .arithmeticUnderflow }
      (.write .word 0x0000 0x01300001))) (fun t => t.answer == some .busError && !t.pend) = true ∧
    answers (step (hosted { small (some 5) (some 7) none none with err := some .arithmeticUnderflow }
      (.write .word 0x0008 1))) (fun t => t.answer == some .ok && t.statusWord == 0 && t.readReg 0 == none) = true := by
  decide

/-- 70_reset_and_hazards.md R242: idle turns of the core left in the schedule do not keep a run from being over; a host action
left, or a pending command, does. -/
theorem test_runOver :
    (State.reset.withMoves [.core, .core]).goodEnd ∧ ¬ (hosted State.reset .reset).runOver ∧
      ¬ (pending State.reset 0).runOver :=
  ⟨⟨⟨by decide, rfl⟩, rfl⟩, fun h => absurd h.1 (by decide), fun h => by cases h.2⟩

/-- `State.withFetchWord`: the very next step runs the word. -/
theorem test_withFetchWord :
    answers (step (State.reset.withFetchWord 32 0x01600100)) (fun t => t.readReg 6 == some 256 && !t.pend) = true := by
  decide

/-- The reference procedures on 95_test_vectors.md 2.1 to 2.3 and 2.5. -/
theorem test_reference :
    refAdd 3 [0xFFFFFFFF, 0xFFFFFFFF] [1] = .ok [0, 0, 1] ∧ refAdd 2 [0xFFFFFFFF, 0xFFFFFFFF] [1] = .error .capacityOverflow ∧
    refSub [0, 1] [1] = .ok [0xFFFFFFFF] ∧ refSub [5] [7] = .error .arithmeticUnderflow ∧
    refMul 2 [0xFFFFFFFF] [0xFFFFFFFF] = .ok [1, 0xFFFFFFFE] ∧ refCompare [1, 2] [0xFFFFFFFF, 1] = .gt := by decide

/-- The digit search on 95_test_vectors.md 2.4, second limb of `2^32 + 5` by 3: the running remainder is `1*BETA + 5`. -/
theorem test_digit_search : digitSearch 3 (1 * BETA + 5) 32 0 (BETA - 1) = 0x55555557 := by decide

/-! ## Witnesses: for every statement with hypotheses, a state and operands that meet them -/

theorem witness_DecodeEncodeRoundTrip :
    (Instr.ld 7 128).wellFormed 128 = true ∧ (Instr.ld 7 1).wellFormed 1 = true ∧
      (Instr.divmod 7 0 7 7).wellFormed 128 = true := by decide

theorem witness_EncodeDecodeRoundTrip : decode 1024 0x02700400 = .ok (.ld 7 1024) := by decide

theorem witness_DecoderFollowsOpcodeMap :
    decode 128 0x0170FFFF = .ok (.ldi 7 65535) ∧
      (⟨"LDI", 0x01000000, 0xFF8F0000, .none⟩ : OpcodeRow) ∈ opcodeTable ∧
      (⟨"LDI", 0x01000000, 0xFF8F0000, .none⟩ : OpcodeRow).selects 128 0x0170FFFF = true := by decide

/-- One word of each kind of illegal command, at a boundary of its range. -/
theorem witness_IllegalCommandsFault_kinds :
    field 0x05000000 31 24 ∉ [0x00, 0x01, 0x02, 0x03, 0x04, 0x10, 0x11, 0x12, 0x13, 0x14, 0x20] ∧
    (field 0x00000001 31 24 = 0x00 ∧ field 0x00000001 23 0 ≠ 0) ∧
    (field 0x10801000 31 24 ∈ [0x01, 0x02, 0x04, 0x10, 0x11, 0x12, 0x13, 0x20] ∧ 8 ≤ field 0x10801000 23 20) ∧
    (field 0x02000081 31 24 = 0x02 ∧ State.reset.L < field 0x02000081 11 0) ∧
    (field 0x13115200 31 24 = 0x13 ∧ field 0x13115200 23 20 = field 0x13115200 19 16) := by decide

/-- An idle core whose host writes an illegal word to CMD, the core's step next. -/
def illegalWritten : State :=
  { small none none none none with moves := [.host (.write .word 0x0000 0x05000000), .core] }

theorem witness_IllegalCommandsFault :
    decode illegalWritten.L 0x05000000 = .error .unknownOpcode ∧ illegalWritten.pend = false ∧
      illegalWritten.err = none ∧ illegalWritten.moves = [.host (.write .word 0x0000 0x05000000), .core] := by decide

theorem witness_StepRunsPendingCommand :
    ((State.reset.accept 0x02000080).pend = true ∧ (State.reset.accept 0x02000080).moves = [] ∧
      decode (State.reset.accept 0x02000080).L (State.reset.accept 0x02000080).cmdr = .ok (.ld 0 128)) ∧
    (State.reset.withFetchWord 32 0).moves = [.core] ∧ (State.reset.withFetchWord 32 0).pend = true ∧
    State.reset.pend = false ∧ State.reset.moves = [] ∧ (State.reset.withMoves [.core]).moves = [.core] := by decide

theorem witness_FaultEntryIsPrecise :
    (pending (small (some 5) (some 7) none none) 0x11201000).pend = true ∧
      (pending (small (some 5) (some 7) none none) 0x11201000).moves = [.core] ∧
      (pending (small (some 5) (some 7) none none) 0x11201000).err = none ∧
      ∃ t, step (pending (small (some 5) (some 7) none none) 0x11201000) = .next t := ⟨rfl, rfl, rfl, _, rfl⟩

theorem witness_FaultEntryIsPrecise_accept :
    ∃ t, ((hosted State.reset (.write .word 0x0000 0)).pend = true → (hosted State.reset (.write .word 0x0000 0)).err = none) ∧
      step (hosted State.reset (.write .word 0x0000 0)) = .next t ∧ t.pend = true := ⟨_, fun _ => rfl, rfl, rfl⟩

theorem witness_NopRule : field 0x00000001 31 24 = 0x00 ∧ (0x00000001 : Word) ≠ 0 := by decide

theorem witness_LdiRule : (0x0170FFFF : Word).toNat = 0x01000000 + (7 : Reg).val * 2 ^ 20 + (65535 : BitVec 16).toNat := by
  decide

/-- The least and the greatest count of LD, and the counts next to them. -/
theorem witness_LdRule :
    (0 : BitVec 12).toNat = 0 ∧ State.reset.L < (129 : BitVec 12).toNat ∧ 1 ≤ (1 : BitVec 12).toNat ∧ (1 : BitVec 12).toNat ≤ State.reset.L ∧ (128 : BitVec 12).toNat = State.reset.L ∧
      (0x02000080 : Word).toNat = 0x02000000 + (0 : Reg).val * 2 ^ 20 + (128 : BitVec 12).toNat := by decide

/-- An invalid source; zero; and the greatest value of two limbs. -/
theorem witness_StRule :
    (small none (some 0) (some (2 ^ 64 - 1)) none).readReg 0 = none ∧
    (small none (some 0) (some (2 ^ 64 - 1)) none).readReg 1 = some 0 ∧
    (small none (some 0) (some (2 ^ 64 - 1)) none).readReg 2 = some (2 ^ 64 - 1) ∧
    1 ≤ 2 ∧ BETA ^ (2 - 1) ≤ 2 ^ 64 - 1 ∧ 2 ^ 64 - 1 < BETA ^ 2 ∧
    (0x03050000 : Word).toNat = 0x03000000 + (5 : Reg).val * 2 ^ 16 := by decide

theorem witness_MovRule :
    (small none (some 7) none none).readReg 0 = none ∧ (small none (some 7) none none).readReg 1 = some 7 ∧
      (0x04560000 : Word).toNat = 0x04000000 + (5 : Reg).val * 2 ^ 20 + (6 : Reg).val * 2 ^ 16 := by decide

/-- The greatest sum that fits, the least that does not, and an invalid source. -/
theorem witness_AddRule :
    (small (some (2 ^ 64 - 2)) (some 1) (some 2) none).readReg 0 = some (2 ^ 64 - 2) ∧
    (small (some (2 ^ 64 - 2)) (some 1) (some 2) none).readReg 1 = some 1 ∧
    (small (some (2 ^ 64 - 2)) (some 1) (some 2) none).readReg 2 = some 2 ∧
    (small (some (2 ^ 64 - 2)) (some 1) (some 2) none).readReg 3 = none ∧
    2 ^ 64 - 2 + 1 < BETA ^ (small (some (2 ^ 64 - 2)) (some 1) (some 2) none).L ∧
    BETA ^ (small (some (2 ^ 64 - 2)) (some 1) (some 2) none).L ≤ 2 ^ 64 - 2 + 2 ∧
    (0x10201000 : Word).toNat = 0x10000000 + (2 : Reg).val * 2 ^ 20 + (0 : Reg).val * 2 ^ 16 + (1 : Reg).val * 2 ^ 12 := by
  decide

/-- Equal operands, the least difference that underflows, and an invalid source. -/
theorem witness_SubRule :
    (small (some 5) (some 6) none none).readReg 0 = some 5 ∧ (small (some 5) (some 6) none none).readReg 1 = some 6 ∧
    (small (some 5) (some 6) none none).readReg 2 = none ∧ 5 < 6 ∧ 5 = 5 + 0 ∧ 6 = 5 + 1 ∧
    (0x11201000 : Word).toNat = 0x11000000 + (2 : Reg).val * 2 ^ 20 + (0 : Reg).val * 2 ^ 16 + (1 : Reg).val * 2 ^ 12 := by
  decide

/-- The greatest square that fits in two limbs and one that does not. -/
theorem witness_MulRule :
    (small (some 0xFFFFFFFF) (some 0x100000000) none none).readReg 0 = some 0xFFFFFFFF ∧
    (small (some 0xFFFFFFFF) (some 0x100000000) none none).readReg 1 = some 0x100000000 ∧
    (small (some 0xFFFFFFFF) (some 0x100000000) none none).readReg 2 = none ∧
    0xFFFFFFFF * 0x100000000 < BETA ^ (small (some 0xFFFFFFFF) (some 0x100000000) none none).L ∧
    BETA ^ (small (some 0xFFFFFFFF) (some 0x100000000) none none).L ≤ 0x100000000 * 0x100000000 ∧ 0 < 0xFFFFFFFF ∧
    (0x12301000 : Word).toNat = 0x12000000 + (3 : Reg).val * 2 ^ 20 + (0 : Reg).val * 2 ^ 16 + (1 : Reg).val * 2 ^ 12 := by
  decide

theorem witness_DivmodRule :
    (6 : Reg) ≠ 7 ∧ (small (some 7) (some 0) (some 1) none).readReg 0 = some 7 ∧
    (small (some 7) (some 0) (some 1) none).readReg 1 = some 0 ∧
    (small (some 7) (some 0) (some 1) none).readReg 2 = some 1 ∧
    (small (some 7) (some 0) (some 1) none).readReg 3 = none ∧ (1 : Nat) ≠ 0 ∧
    (0x13675200 : Word).toNat =
      0x13000000 + (6 : Reg).val * 2 ^ 20 + (7 : Reg).val * 2 ^ 16 + (5 : Reg).val * 2 ^ 12 + (2 : Reg).val * 2 ^ 8 := by
  decide

theorem witness_CmpRule :
    (small (some 0xFFFFFFFF) (some 0x100000000) none none).readReg 0 = some 0xFFFFFFFF ∧
    (small (some 0xFFFFFFFF) (some 0x100000000) none none).readReg 1 = some 0x100000000 ∧
    (small (some 0xFFFFFFFF) (some 0x100000000) none none).readReg 2 = none ∧ 0xFFFFFFFF < 0x100000000 ∧
    (0x14070000 : Word).toNat = 0x14000000 + (7 : Reg).val * 2 ^ 16 + (0 : Reg).val * 2 ^ 12 := by decide

/-- Base, exponent zero, and the moduli 0 and 1. -/
theorem witness_ModexpRule :
    (small (some 9) (some 0) (some 1) none).readReg 0 = some 9 ∧ (small (some 9) (some 0) (some 1) none).readReg 1 = some 0 ∧
    (small (some 9) (some 0) (some 1) none).readReg 2 = some 1 ∧ (small (some 9) (some 0) (some 1) none).readReg 3 = none ∧
    (1 : Nat) ≠ 0 ∧
    (0x20502300 : Word).toNat =
      0x20000000 + (5 : Reg).val * 2 ^ 20 + (0 : Reg).val * 2 ^ 16 + (2 : Reg).val * 2 ^ 12 + (3 : Reg).val * 2 ^ 8 := by
  decide

/-- ADD with a valid first and an invalid second source. -/
theorem witness_UnwrittenOperandFault :
    (Instr.add 0 0 1).wellFormed (small (some 1) none none none).L = true ∧ (1 : Reg) ∈ (Instr.add 0 0 1).sources ∧
    (small (some 1) none none none).readReg 1 = none ∧ (small (some 1) none none none).err = none ∧
    ∃ t, exec (.add 0 0 1) (small (some 1) none none none) = .next t ∧ t.err = some .unwrittenOperand :=
  ⟨by decide, by decide, by decide, rfl, _, rfl, rfl⟩

/-- `0 div 0`, and `0^0` modulo 0. -/
theorem witness_DivisionByZeroFault :
    (2 : Reg) ≠ 3 ∧ (small (some 0) none none none).readReg 0 = some 0 ∧ (small (some 0) none none none).err = none ∧
    (∃ t, exec (.divmod 2 3 0 0) (small (some 0) none none none) = .next t ∧ t.err = some .divisionByZero) ∧
    (∃ t, exec (.modexp 3 0 0 0) (small (some 0) none none none) = .next t ∧ t.err = some .divisionByZero) :=
  ⟨by decide, by decide, rfl, ⟨_, rfl, rfl⟩, ⟨_, rfl, rfl⟩⟩

theorem witness_ArithmeticUnderflowFault :
    (small (some 0) (some 1) none none).readReg 0 = some 0 ∧ (small (some 0) (some 1) none none).readReg 1 = some 1 ∧
    0 < 1 ∧ (small (some 0) (some 1) none none).err = none ∧
    ∃ t, exec (.sub 2 0 1) (small (some 0) (some 1) none none) = .next t ∧ t.err = some .arithmeticUnderflow :=
  ⟨by decide, by decide, by decide, rfl, _, rfl, rfl⟩

theorem witness_CapacityOverflowFault :
    (small (some (2 ^ 64 - 1)) (some 1) (some (2 ^ 32)) none).readReg 0 = some (2 ^ 64 - 1) ∧
    (small (some (2 ^ 64 - 1)) (some 1) (some (2 ^ 32)) none).readReg 1 = some 1 ∧
    (small (some (2 ^ 64 - 1)) (some 1) (some (2 ^ 32)) none).readReg 2 = some (2 ^ 32) ∧
    BETA ^ (small (some (2 ^ 64 - 1)) (some 1) (some (2 ^ 32)) none).L ≤ 2 ^ 64 - 1 + 1 ∧
    BETA ^ (small (some (2 ^ 64 - 1)) (some 1) (some (2 ^ 32)) none).L ≤ 2 ^ 32 * 2 ^ 32 ∧
    (∃ t, exec (.add 3 0 1) (small (some (2 ^ 64 - 1)) (some 1) (some (2 ^ 32)) none) = .next t ∧
      t.err = some .capacityOverflow) :=
  ⟨by decide, by decide, by decide, by decide, by decide, _, rfl, by decide⟩

/-- 60_exceptions.md R211's own examples: DIVMOD with `rq = rr`, and MODEXP with an invalid exponent and a zero modulus. -/
theorem witness_FirstPhaseFaultWins :
    (pending (small none none none none) 0x13115200).pend = true ∧ (pending (small none none none none) 0x13115200).moves = [.core] ∧
    decode (pending (small none none none none) 0x13115200).L 0x13115200 = .error .sameDestination ∧
    (pending (small (some 4) none (some 0) none) 0x20301200).pend = true ∧
    (pending (small (some 4) none (some 0) none) 0x20301200).moves = [.core] ∧
    decode (pending (small (some 4) none (some 0) none) 0x20301200).L 0x20301200 = .ok (.modexp 3 0 1 2) ∧
    (1 : Reg) ∈ (Instr.modexp 3 0 1 2).sources ∧ (pending (small (some 4) none (some 0) none) 0x20301200).readReg 1 = none := by
  decide

theorem witness_IllFormedTermsAreIllegalCommands :
    (Instr.ld 0 3).wellFormed (small none none none none).L = false ∧
      (Instr.ld 0 0).wellFormed (small none none none none).L = false ∧
      (Instr.divmod 1 1 5 2).wellFormed (small none none none none).L = false := by decide

theorem witness_CommandsWriteOnlyTheirDestinations :
    ∃ t, exec (.divmod 2 3 0 1) (small (some 7) (some 2) none none) = .next t ∧ (1 : Reg) ∉ (Instr.divmod 2 3 0 1).dests ∧
      (∀ ra, Instr.divmod 2 3 0 1 ≠ .st ra) ∧ (∀ ra rb, Instr.divmod 2 3 0 1 ≠ .cmp ra rb) :=
  ⟨_, rfl, by decide, by decide, by decide⟩

/-- Two cores that differ in a register ADD does not read. -/
theorem witness_CommandsReadOnlyTheirSources :
    (small (some 1) (some 2) none none).cap = (small (some 1) (some 2) (some 5) none).cap ∧
    (∀ r ∈ (Instr.add 3 0 1).sources,
      (small (some 1) (some 2) none none).readReg r = (small (some 1) (some 2) (some 5) none).readReg r) ∧
    (∃ t, exec (.add 3 0 1) (small (some 1) (some 2) none none) = .next t ∧ t.err = none) ∧
    (∃ t, exec (.add 3 0 1) (small (some 1) (some 2) (some 5) none) = .next t) :=
  ⟨rfl, by decide, ⟨_, rfl, by decide⟩, ⟨_, rfl⟩⟩

theorem witness_ValidRegistersStayValid :
    (∃ t, step (pending (small (some 1) none none none) 0x01000000) = .next t) ∧
    (∀ a rest, (pending (small (some 1) none none none) 0x01000000).moves = .host a :: rest → a.resets = false) ∧
    (pending (small (some 1) none none none) 0x01000000).readReg 0 = some 1 :=
  ⟨⟨_, rfl⟩, fun _ _ h => (by cases h), by decide⟩

theorem witness_FlagsWrittenOnlyByCompare :
    ∃ t, step (pending (small (some 7) none none none) 0x14000000) = .next t ∧
      t.cmpf ≠ (pending (small (some 7) none none none) 0x14000000).cmpf := ⟨_, rfl, by decide⟩

/-- ST of the greatest value; and a host that reads RLEN, idle and busy. -/
theorem witness_LengthWrittenOnlyByStore :
    (pending (small (some 18537) (some (2 ^ 64 - 1)) (some 0) (some 1)) 0x03010000).Inv ∧
    (∃ t, step (pending (small (some 18537) (some (2 ^ 64 - 1)) (some 0) (some 1)) 0x03010000) = .next t ∧ t.rlen ≠ 0) ∧
    decode 2 0x03010000 = .ok (.st 1) ∧
    (hosted (small none none none none) (.read .word 0x0010)).pend = false ∧
    (hosted (pending (small none none none none) 0) (.read .word 0x0010)).pend = true ∧
    (∃ t, step (hosted (small none none none none) (.write .word 0x0010 1)) = .next t) :=
  ⟨⟨regsFit_of_all _ (by decide), by decide, (fun _ hc => by cases hc), by decide, by decide⟩,
    ⟨_, rfl, by decide⟩, by decide, rfl, rfl, _, rfl⟩

theorem witness_PendLifecycle :
    (∃ t, step (hosted State.reset (.write .word 0x0000 0)) = .next t ∧
      (hosted State.reset (.write .word 0x0000 0)).pend = false ∧ t.pend = true) ∧
    (∃ t, step (pending State.reset 0) = .next t ∧ (pending State.reset 0).pend = true ∧ t.pend = false) ∧
    (∃ t, step (hosted (pending State.reset 0) .reset) = .next t ∧ HostAction.reset.resets = true ∧ t.pend = false) ∧
    (∃ t, step (hosted (pending State.reset 0) (.write .word 0x0000 7)) = .next t ∧
      (HostAction.write .word 0x0000 7).resets = false ∧ (pending State.reset 0).pend = true) :=
  ⟨⟨_, rfl, rfl, rfl⟩, ⟨_, rfl, rfl, rfl⟩, ⟨_, rfl, rfl, rfl⟩, ⟨_, rfl, rfl, rfl⟩⟩

/-- A faulted core with an early CMD write, and with reads of RLEN, STATUS and the last word of OPBUF. -/
theorem witness_FaultIsStickyUntilReset :
    (∃ t, step (hosted { small none none none none with err := some .illegalCommand } (.write .word 0x0000 0)) = .next t) ∧
    (hosted { small none none none none with err := some .illegalCommand } (.write .word 0x0000 0)).err =
      some .illegalCommand ∧
    (hosted { small none none none none with err := some .illegalCommand } (.write .word 0x0000 0)).pend = false ∧
    (HostAction.write .word 0x0000 0).resets = false ∧ (HostAction.write .word 0x0008 1).resets = true ∧
    (0x1004 : BitVec 13).toNat = 0x1000 + 4 * 1 ∧ 1 < (small none none none none).L :=
  ⟨⟨_, rfl⟩, rfl, rfl, rfl, rfl, by decide, by decide⟩

theorem witness_EveryStepKeepsInvariant :
    (small (some 18537) (some (2 ^ 64 - 1)) (some 0) (some 1)).Inv ∧
      ∃ t, step (small (some 18537) (some (2 ^ 64 - 1)) (some 0) (some 1)) = .next t := ⟨small_inv, _, rfl⟩

theorem witness_CapacityIsConstant : ∃ t, step State.reset = .next t := ⟨_, rfl⟩

/-- A value of two limbs, the greatest, and zero. -/
theorem witness_ValidRegistersAreNormalized :
    (small (some 18537) (some (2 ^ 64 - 1)) (some 0) (some 1)).Inv ∧
    (small (some 18537) (some (2 ^ 64 - 1)) (some 0) (some 1)).readReg 1 = some (2 ^ 64 - 1) ∧
    (small (some 18537) (some (2 ^ 64 - 1)) (some 0) (some 1)).readReg 2 = some 0 ∧ 1 < nlimbs (2 ^ 64 - 1) :=
  ⟨small_inv, by decide, by decide, by decide⟩

theorem witness_HardwareResetEffect :
    (hosted (pending (small (some 1) none none none) 0) .reset).moves = [.host .reset] := rfl

/-- A busy core whose host writes 1 to CTRL, and a faulted core that this leaves without a fault. -/
theorem witness_SoftResetEffect :
    (hosted (pending (small (some 1) none none none) 0) (.write .word 0x0008 1)).moves =
      [.host (.write .word 0x0008 1)] ∧
    (hosted { State.reset with err := some .divisionByZero } (.write .word 0x0008 1)).err ≠ none ∧
    ∃ t, step (hosted { State.reset with err := some .divisionByZero } (.write .word 0x0008 1)) = .next t ∧
      t.err = none := ⟨rfl, by decide, _, rfl, rfl⟩

/-- `ST B0` pending, and then the core's step and a soft reset, or the soft reset alone. -/
theorem witness_ResetDiscardsPendingCommand :
    HostAction.reset.resets = true ∧ (HostAction.write .word 0x0008 1).resets = true ∧
    (hosted (pending State.reset 0x03000000) .reset).moves = [.host .reset] ∧
    ((pending (small (some 7) none none none) 0x03000000).withMoves [.core, .host (.write .word 0x0008 1)]).moves =
      [.core, .host (.write .word 0x0008 1)] ∧
    (hosted (pending (small (some 7) none none none) 0x03000000) (.write .word 0x0008 1)).moves =
      [.host (.write .word 0x0008 1)] ∧
    (pending (small (some 7) none none none) 0x03000000).pend = true ∧
    decode (small (some 7) none none none).L 0x03000000 = .ok (.st 0) ∧
    (small (some 7) none none none).readReg 0 = some 7 ∧ 1 < (small (some 7) none none none).L := by decide

/-- One transaction for each clause: CTRL, CMD, OPBUF's first and last word (idle and busy), each read, and refusals at the
boundaries of the map. -/
theorem witness_HostStepEffects :
    (hosted State.reset (.write .word 0x0008 2)).moves = [.host (.write .word 0x0008 2)] ∧
    (hosted State.reset (.write .word 0x0000 0)).moves = [.host (.write .word 0x0000 0)] ∧
    (0x1000 : BitVec 13).toNat = 0x1000 + 4 * 0 ∧ 0 < State.reset.L ∧
    (0x11FC : BitVec 13).toNat = 0x1000 + 4 * 127 ∧ 127 < State.reset.L ∧
    (hosted (pending State.reset 0) (.write .word 0x1000 7)).pend = true ∧
    (hosted State.reset (.write .word 0x1000 7)).pend = false ∧
    (hosted State.reset (.read .word 0x0010)).moves = [.host (.read .word 0x0010)] ∧
    Width.burst ≠ .word ∧ (0x0014 : BitVec 13) ∉ [0x0000, 0x0004, 0x0008, 0x000C, 0x0010] ∧
    (∀ i, i < State.reset.L → (0x1200 : BitVec 13).toNat ≠ 0x1000 + 4 * i) ∧
    (0x0004 : BitVec 13) ∉ [0x0000, 0x0008] := by
  refine ⟨rfl, rfl, by decide, by decide, by decide, by decide, rfl, rfl, rfl, by decide, by decide, ?_, by decide⟩
  intro i hi
  have h : State.reset.L = 128 := rfl
  have h' : (0x1200 : BitVec 13).toNat = 0x1200 := rfl
  omega

theorem witness_StatusRegisterFields :
    (hosted State.reset (.read .word 0x0004)).moves = [.host (.read .word 0x0004)] ∧
      (hosted State.reset (.write .word 0x0004 0)).moves = [.host (.write .word 0x0004 0)] := ⟨rfl, rfl⟩

theorem witness_CapRegisterFields :
    (hosted State.reset (.read .word 0x000C)).moves = [.host (.read .word 0x000C)] ∧
      (hosted State.reset (.write .word 0x000C 0)).moves = [.host (.write .word 0x000C 0)] := ⟨rfl, rfl⟩

/-- Each kind of refused access: a byte, a misaligned word, the first reserved offset, and the first above the buffer. -/
theorem witness_OnlyAlignedWordAccesses :
    Width.byte ≠ .word ∧ (0x1002 : BitVec 13).toNat % 4 ≠ 0 ∧
    (0x0014 ≤ (0x0014 : BitVec 13).toNat ∧ (0x0014 : BitVec 13).toNat < 0x1000) ∧
    0x1000 + 4 * State.reset.L ≤ (0x1200 : BitVec 13).toNat ∧
    (hosted State.reset (.read .byte 0x0000)).moves = [.host (.read .byte 0x0000)] ∧
    (hosted State.reset (.write .word 0x1200 1)).moves = [.host (.write .word 0x1200 1)] := by decide

theorem witness_BusErrorsAndReadsChangeNothing :
    (∃ t, step (hosted State.reset (.write .word 0x0004 0)) = .next t ∧ t.answer = some .busError) ∧
    (∃ t, step (hosted State.reset (.read .word 0x0004)) = .next t) := ⟨⟨_, rfl, rfl⟩, ⟨_, rfl⟩⟩

theorem witness_HostNeverTouchesRegisters :
    (HostAction.write .word 0x1000 7).resets = false ∧
      ∃ t, step (hosted (small (some 1) none none none) (.write .word 0x1000 7)) = .next t := ⟨rfl, _, rfl⟩

theorem witness_BusyHoldsTheCoreState :
    (HostAction.write .word 0x1000 7).resets = false ∧
    (hosted (pending State.reset 0) (.write .word 0x1000 7)).pend = true ∧
      ∃ t, step (hosted (pending State.reset 0) (.write .word 0x1000 7)) = .next t := ⟨rfl, rfl, _, rfl⟩

/-- The last word of the buffer. -/
def lastWordWritten : State :=
  { small none none none none with moves := [.host (.write .word 0x1004 7), .host (.read .word 0x1004)] }

theorem witness_OpbufWriteThenRead :
    (0x1004 : BitVec 13).toNat = 0x1000 + 4 * 1 ∧ 1 < lastWordWritten.L ∧ lastWordWritten.pend = false ∧
      lastWordWritten.moves = [.host (.write .word 0x1004 7), .host (.read .word 0x1004)] := by decide

theorem witness_StoredLimbsReadBack :
    (hosted (small (some (2 ^ 64 - 1)) none none none) (.read .word 0x1004)).readReg 0 = some (2 ^ 64 - 1) ∧
    (∃ t, exec (.st 0) (hosted (small (some (2 ^ 64 - 1)) none none none) (.read .word 0x1004)) = .next t) ∧
    1 < (hosted (small (some (2 ^ 64 - 1)) none none none) (.read .word 0x1004)).L ∧
    (0x1004 : BitVec 13).toNat = 0x1000 + 4 * 1 := ⟨by decide, ⟨_, rfl⟩, by decide, by decide⟩

/-- The greatest value: RLEN is L, and so is the only legal count. -/
theorem witness_StoreThenLoadCopies :
    (small (some (2 ^ 64 - 1)) none none none).readReg 0 = some (2 ^ 64 - 1) ∧
    2 ^ 64 - 1 < BETA ^ (small (some (2 ^ 64 - 1)) none none none).L ∧
    (∃ t, exec (.st 0) (small (some (2 ^ 64 - 1)) none none none) = .next t ∧ t.rlen.toNat ≤ (2 : BitVec 12).toNat) ∧
    (2 : BitVec 12).toNat ≤ (small (some (2 ^ 64 - 1)) none none none).L :=
  ⟨by decide, by decide, ⟨_, rfl, by decide⟩, by decide⟩

/-- Three operands whose sums fit, in both orders, and the zero of the identity law. -/
theorem witness_AdderLaws :
    (3 : Reg) ∉ [(0 : Reg), 1, 2] ∧ (small (some 1) (some 2) (some 3) none).err = none ∧
    (∃ t u, exec (.add 3 0 1) (small (some 1) (some 2) (some 3) none) = .next t ∧ exec (.add 3 3 2) t = .next u ∧
      u.err = none) ∧
    (∃ t u, exec (.add 3 1 2) (small (some 1) (some 2) (some 3) none) = .next t ∧ exec (.add 3 0 3) t = .next u ∧
      u.err = none) ∧
    (small (some 18537) (some (2 ^ 64 - 1)) (some 0) (some 1)).Inv ∧
    (small (some 18537) (some (2 ^ 64 - 1)) (some 0) (some 1)).readReg 2 = some 0 ∧
    (3 : Reg) ≠ 1 ∧ (small (some 1) (some 2) (some 3) none).readReg 0 = some 1 :=
  ⟨by decide, rfl, ⟨_, _, rfl, rfl, by decide⟩, ⟨_, _, rfl, rfl, by decide⟩, small_inv, by decide, by decide, by decide⟩

theorem witness_MultiplierLaws :
    (small (some 18537) (some (2 ^ 64 - 1)) (some 0) (some 1)).Inv ∧
    (small (some 18537) (some (2 ^ 64 - 1)) (some 0) (some 1)).readReg 3 = some 1 ∧
    (small (some 18537) (some (2 ^ 64 - 1)) (some 0) (some 1)).readReg 0 = some 18537 ∧
    (small (some 18537) (some (2 ^ 64 - 1)) (some 0) (some 1)).readReg 2 = some 0 :=
  ⟨small_inv, by decide, by decide, by decide⟩

/-- The greatest dividend by 1. -/
theorem witness_DivmodCheckedByTheCore :
    (small (some 18537) (some (2 ^ 64 - 1)) (some 0) (some 1)).Inv ∧
    (small (some 18537) (some (2 ^ 64 - 1)) (some 0) (some 1)).err = none ∧
    (small (some 18537) (some (2 ^ 64 - 1)) (some 0) (some 1)).readReg 1 = some (2 ^ 64 - 1) ∧
    (small (some 18537) (some (2 ^ 64 - 1)) (some 0) (some 1)).readReg 3 = some 1 ∧ (1 : Nat) ≠ 0 ∧
    (4 : Reg) ≠ 5 ∧ (4 : Reg) ≠ 3 ∧ (5 : Reg) ≠ 3 ∧ (6 : Reg) ≠ 5 ∧ (6 : Reg) ≠ 3 :=
  ⟨small_inv, rfl, by decide, by decide, by decide, by decide, by decide, by decide, by decide, by decide⟩

/-- The greatest operands of one limb. -/
theorem witness_CarryChainAddsExactly : 1 ≤ 1 ∧ 2 ^ 32 - 1 < BETA ^ 1 := by decide

theorem witness_SchoolbookMultipliesExactly : 1 ≤ 1 ∧ BETA - 1 < BETA := by decide

/-- The greatest running remainder for a divisor of 3. -/
theorem witness_LongDivisionDividesExactly : 0 < 3 ∧ 3 * BETA - 1 < 3 * BETA := by decide

/-- Modulus 1, with the greatest exponent of 5 rounds. -/
theorem witness_SquareAndMultiplyIsPower : 0 < 1 ∧ 0 < 1 ∧ 31 < 2 ^ 5 ∧ 1 < BETA ^ 1 ∧ 2 ^ 32 - 1 < BETA ^ 1 := by decide

end Sys2Proof.Tests
end

section
/-! PROOFS. The state family (10_state.md): CMPF, RLEN, PEND and the words STATUS and CAP. First the words the host reads, then
what a transaction, a command and a step can do to these fields, then the statements. -/

namespace Sys2Proof.Machine

variable (s : State)

/-! ## The words the host reads (10_state.md R31, R33, R34) -/

theorem CmpFlag.code_le (c : CmpFlag) : c.code ≤ 3 := by cases c <;> decide

theorem State.errCode_le : s.errCode ≤ 5 := by
  unfold State.errCode
  split
  · decide
  · next f _ => cases f <;> decide

/-- No field of STATUS runs into the next: the sum of 10_state.md R31 fits in the word. -/
theorem State.statusWord_toNat :
    s.statusWord.toNat = s.pend.toNat + 2 * s.err.isSome.toNat + 4 * s.cmpf.code + 16 * s.errCode := by
  have hp := s.pend.toNat_le
  have hf := s.err.isSome.toNat_le
  have hc := s.cmpf.code_le
  have he := s.errCode_le
  rw [State.statusWord, BitVec.toNat_ofNat]
  exact Nat.mod_eq_of_lt (by omega)

/-- STATUS, field by field (10_state.md R31). -/
theorem State.statusWord_fields :
    field s.statusWord 0 0 = s.pend.toNat ∧ field s.statusWord 1 1 = s.err.isSome.toNat ∧
      field s.statusWord 3 2 = s.cmpf.code ∧ field s.statusWord 7 4 = s.errCode ∧ field s.statusWord 31 8 = 0 := by
  have hp := s.pend.toNat_le
  have hf := s.err.isSome.toNat_le
  have hc := s.cmpf.code_le
  have he := s.errCode_le
  simp only [field, s.statusWord_toNat]
  omega

/-- The sum of 10_state.md R33 fits in the word, since `L <= 1024`. -/
theorem State.capWord_toNat : s.capWord.toNat = 32 + 256 * s.L + 8 * 2 ^ 20 := by
  have hL : s.L ≤ 1024 := s.cap.property.2
  rw [State.capWord, BitVec.toNat_ofNat]
  exact Nat.mod_eq_of_lt (by omega)

/-- CAP, field by field (10_state.md R33). -/
theorem State.capWord_fields :
    field s.capWord 7 0 = 32 ∧ field s.capWord 19 8 = s.L ∧ field s.capWord 23 20 = 8 ∧ field s.capWord 31 24 = 0 := by
  have hL : s.L ≤ 1024 := s.cap.property.2
  simp only [field, s.capWord_toNat]
  omega

/-- RLEN is read in bits 10:0, with zeros above (10_state.md R34). -/
theorem State.rlenWord_fields : field s.rlenWord 10 0 = s.rlen.toNat ∧ field s.rlenWord 31 11 = 0 := by
  have hr : s.rlen.toNat < 2 ^ 11 := s.rlen.isLt
  have hw : s.rlenWord.toNat = s.rlen.toNat := BitVec.toNat_setWidth_of_le (by decide)
  simp only [field, hw]
  omega

/-! ## What a transaction can do -/

/-- Only a word access writes (20_memory.md R55). -/
theorem State.busWrite_width (width : Width) (off : BitVec 13) (w : Word) (t : State)
    (h : s.busWrite width off w = some t) : width = .word := by
  cases hx : s.accessTarget width off with
  | none => simp [State.busWrite, hx] at h
  | some x => exact (accessTarget_eq_some s width off x hx).1

/-- Where each register and each word of OPBUF stands (10_state.md R29). -/
def Target.offset : Target → Nat
  | .cmd => 0x0000
  | .status => 0x0004
  | .ctrl => 0x0008
  | .cap => 0x000C
  | .rlen => 0x0010
  | .opbuf i => 0x1000 + 4 * i

/-- A target is found at its own offset alone. -/
theorem eq_offset_of_target (L off : Nat) (x : Target) (h : target L off = some x) : off = x.offset := by
  unfold target at h
  split_ifs at h with hcmd hstatus hctrl hcap hrlen hopbuf
  · cases h; exact hcmd
  · cases h; exact hstatus
  · cases h; exact hctrl
  · cases h; exact hcap
  · cases h; exact hrlen
  · cases h; simp only [Target.offset]; omega

@[simp] theorem State.busRead_status : s.busRead .word 0x0004 = .okData s.statusWord := rfl

@[simp] theorem State.busRead_cap : s.busRead .word 0x000C = .okData s.capWord := rfl

@[simp] theorem State.busRead_rlen :
    s.busRead .word 0x0010 = if s.pend then .busError else .okData s.rlenWord := rfl

/-- An idle core without a fault accepts a CMD write (10_state.md R30). -/
theorem State.hostStep_accepts (w : Word) (hp : s.pend = false) (he : s.err = none) :
    s.hostStep (.write .word 0x0000 w) = (s.accept w).answering (some .ok) :=
  s.hostStep_write_of_some _ _ _ _ (if_pos ⟨hp, he⟩)

/-- STATUS, CAP and RLEN are read-only (20_memory.md R57). -/
theorem State.busWrite_of_readOnly (width : Width) (off : BitVec 13) (w : Word) (x : Target)
    (hx : x ∈ [Target.status, .cap, .rlen]) (ht : target s.L off.toNat = some x) : s.busWrite width off w = none := by
  cases h : s.busWrite width off w with
  | none => rfl
  | some t =>
    rcases s.busWrite_cases width off w t h with ⟨h', _⟩ | ⟨h', _⟩ | ⟨h', _⟩ | ⟨i, h', _⟩
    all_goals
      rw [ht, Option.some.injEq] at h'
      simp [h'] at hx

/-- The write of 1 to CTRL is the soft reset, idle, busy or faulted (70_reset_and_hazards.md R231). -/
theorem State.hostStep_softReset : s.hostStep (.write .word 0x0008 1) = s.softReset.answering (some .ok) := rfl

/-- `HostAction.resets` of a write, as its three conditions. -/
theorem HostAction.resets_write (width : Width) (off : BitVec 13) (w : Word) :
    (HostAction.write width off w).resets = true ↔ width = .word ∧ off = 0x0008 ∧ w = 1 := decide_eq_true_iff

/-- What a host action does, by whether it resets the core: a reset is one of the two; any other action changes the answer
alone, is an accepted CMD write, or writes a word of OPBUF while the core is idle. -/
theorem State.hostStep_effect (a : HostAction) :
    (a.resets = true ∧ ∃ x, s.hostStep a = s.hardReset.answering x ∨ s.hostStep a = s.softReset.answering x) ∨
      (a.resets = false ∧
        ((∃ x, s.hostStep a = s.answering x) ∨
          (∃ w, a = .write .word 0x0000 w ∧ s.pend = false ∧ s.err = none ∧
            s.hostStep a = (s.accept w).answering (some .ok)) ∨
          (∃ i w, s.pend = false ∧ s.hostStep a = (s.writeOpbufWord i w).answering (some .ok)))) := by
  cases a with
  | reset => exact .inl ⟨rfl, _, .inl rfl⟩
  | read width off => exact .inr ⟨rfl, .inl ⟨_, rfl⟩⟩
  | write width off w =>
    cases hr : (HostAction.write width off w).resets with
    | true =>
      obtain ⟨rfl, rfl, rfl⟩ := (HostAction.resets_write width off w).mp hr
      exact .inl ⟨rfl, _, .inr s.hostStep_softReset⟩
    | false =>
      refine .inr ⟨rfl, ?_⟩
      cases h : s.busWrite width off w with
      | none => exact .inl ⟨_, s.hostStep_write_of_none width off w h⟩
      | some t =>
        have e := s.hostStep_write_of_some width off w t h
        have hword : width = .word := s.busWrite_width width off w t h
        rcases s.busWrite_cases width off w t h with
          ⟨ht, hp, he, rfl⟩ | ⟨ht, hw, rfl⟩ | ⟨-, -, rfl⟩ | ⟨i, -, -, hp, rfl⟩
        · have hoff : off = 0x0000 := BitVec.eq_of_toNat_eq (eq_offset_of_target _ _ _ ht)
          exact .inr (.inl ⟨w, by rw [hword, hoff], hp, he, e⟩)
        · have hoff : off = 0x0008 := BitVec.eq_of_toNat_eq (eq_offset_of_target _ _ _ ht)
          rw [(HostAction.resets_write width off w).mpr ⟨hword, hoff, hw⟩] at hr
          cases hr
        · exact .inl ⟨_, e⟩
        · exact .inr (.inr ⟨i, w, hp, e⟩)

/-! ## What a command can do -/

theorem State.source_eq_ok (r : Reg) (v : Nat) : s.source r = .ok v ↔ s.readReg r = some v := by
  rcases s.source_cases r with ⟨u, hu, e⟩ | ⟨hu, e⟩
  · simp [e, hu]
  · simp [e, hu]

/-- The writes of phase 4, command by command where they are not to a register: RLEN is ST's, and CMPF is CMP's
(10_state.md R25, R28, R34). -/
inductive Completed (s : State) : Instr → State → Prop where
  | registers (i : Instr) (regs : Vector (Option Nat) 8) : Completed s i { s with regs := regs }
  | store (ra : Reg) (v : Nat) (source : s.readReg ra = some v) :
      Completed s (.st ra) ((s.writeOpbufValue v).writeRlen (nlimbs v))
  | compare (ra rb : Reg) (a b : Nat) (sourceA : s.readReg ra = some a) (sourceB : s.readReg rb = some b) :
      Completed s (.cmp ra rb) (s.writeCmpf (compareFlag a b))

/-- A command that gets to phase 4 has made the writes that are its own. -/
def CompletesAs (s : State) (i : Instr) (r : Except FaultCode State) : Prop := ∀ u, r = .ok u → Completed s i u

theorem CompletesAs.ok (i : Instr) (u : State) (h : Completed s i u) : CompletesAs s i (.ok u) := by
  intro t ht
  cases ht
  exact h

/-- A phase raises, or hands its result to the rest of the command. -/
theorem CompletesAs.phase {α : Type} (i : Instr) (x : Except FaultCode α) (k : α → Except FaultCode State)
    (h : ∀ a, x = .ok a → CompletesAs s i (k a)) : CompletesAs s i (x >>= k) := by
  cases x with
  | ok a => exact h a rfl
  | error f => intro u hu; cases hu

theorem exec_completesAs (i : Instr) : ∃ r, exec i s = s.conclude r ∧ CompletesAs s i r := by
  cases i with
  | nop => exact ⟨_, rfl, .ok s _ _ (.registers _ s.regs)⟩
  | ldi rd imm16 => exact ⟨_, rfl, .ok s _ _ (.registers _ _)⟩
  | ld rd n => exact ⟨_, rfl, .phase s _ _ _ fun _ _ => .ok s _ _ (.registers _ _)⟩
  | st ra =>
    exact ⟨_, rfl, .phase s _ _ _ fun v hv => .ok s _ _ (.store ra v ((s.source_eq_ok ra v).mp hv))⟩
  | mov rd ra => exact ⟨_, rfl, .phase s _ _ _ fun _ _ => .ok s _ _ (.registers _ _)⟩
  | add rd ra rb | sub rd ra rb | mul rd ra rb =>
    exact ⟨_, rfl, .phase s _ _ _ fun _ _ => .phase s _ _ _ fun _ _ => .phase s _ _ _ fun _ _ =>
      .ok s _ _ (.registers _ _)⟩
  | divmod rq rr ra rb =>
    exact ⟨_, rfl, .phase s _ _ _ fun _ _ => .phase s _ _ _ fun _ _ => .phase s _ _ _ fun _ _ =>
      .phase s _ _ _ fun _ _ => .ok s _ _ (.registers _ _)⟩
  | cmp ra rb =>
    exact ⟨_, rfl, .phase s _ _ _ fun a ha => .phase s _ _ _ fun b hb =>
      .ok s _ _ (.compare ra rb a b ((s.source_eq_ok ra a).mp ha) ((s.source_eq_ok rb b).mp hb))⟩
  | modexp rd ra rb rc =>
    exact ⟨_, rfl, .phase s _ _ _ fun _ _ => .phase s _ _ _ fun _ _ => .phase s _ _ _ fun _ _ =>
      .phase s _ _ _ fun _ _ => .ok s _ _ (.registers _ _)⟩

/-- Everything a command can do, with the command that does it. -/
theorem exec_effect (i : Instr) (t : State) (h : exec i s = .next t) :
    (∃ u, Completed s i u ∧ t = u.retire) ∨ ∃ f, t = s.raise f := by
  obtain ⟨r, hr, hc⟩ := exec_completesAs s i
  rw [hr, s.conclude_eq_next] at h
  rcases h with ⟨u, e, ht⟩ | ⟨f, _, ht⟩
  · exact .inl ⟨u, hc u e, ht⟩
  · exact .inr ⟨f, ht⟩

/-- ST of a valid register (46_data_movement.md R163). -/
theorem exec_st_of_valid (ra : Reg) (v : Nat) (h : s.readReg ra = some v) :
    exec (.st ra) s = .next ((s.writeOpbufValue v).writeRlen (nlimbs v)).retire := by
  simp only [exec, execSt, s.source_of_some ra v h, phase_ok, phase_pure, State.conclude_ok]

/-! ## No command reads CMPF (10_state.md R28) -/

/-- The same end of a command, up to the flags it leaves. -/
def SameUpToFlags (r r' : Except FaultCode State) : Prop := ∃ d, r' = r.map (·.writeCmpf d)

theorem SameUpToFlags.ok (u : State) (d : CmpFlag) : SameUpToFlags (.ok u) (.ok (u.writeCmpf d)) := ⟨d, rfl⟩

theorem SameUpToFlags.phase {α : Type} (x : Except FaultCode α) (k k' : α → Except FaultCode State)
    (h : ∀ a, SameUpToFlags (k a) (k' a)) : SameUpToFlags (x >>= k) (x >>= k') := by
  cases x with
  | ok a => exact h a
  | error f => exact ⟨.none, rfl⟩

theorem SameUpToFlags.conclude (r r' : Except FaultCode State) (h : SameUpToFlags r r') (c : CmpFlag) (t : State)
    (ht : s.conclude r = .next t) : ∃ d, (s.writeCmpf c).conclude r' = .next (t.writeCmpf d) := by
  obtain ⟨d, rfl⟩ := h
  rcases (s.conclude_eq_next r t).mp ht with ⟨u, rfl, rfl⟩ | ⟨f, rfl, rfl⟩
  · exact ⟨d, rfl⟩
  · exact ⟨c, rfl⟩

theorem exec_sameUpToFlags (i : Instr) (c : CmpFlag) : ∃ r r', exec i s = s.conclude r ∧
    exec i (s.writeCmpf c) = (s.writeCmpf c).conclude r' ∧ SameUpToFlags r r' := by
  cases i with
  | nop => exact ⟨_, _, rfl, rfl, .ok _ c⟩
  | ldi rd imm16 => exact ⟨_, _, rfl, rfl, .ok _ c⟩
  | ld rd n => exact ⟨_, _, rfl, rfl, .phase _ _ _ fun _ => .ok _ c⟩
  | st ra => exact ⟨_, _, rfl, rfl, .phase _ _ _ fun _ => .ok _ c⟩
  | mov rd ra => exact ⟨_, _, rfl, rfl, .phase _ _ _ fun _ => .ok _ c⟩
  | add rd ra rb | sub rd ra rb | mul rd ra rb =>
    exact ⟨_, _, rfl, rfl, .phase _ _ _ fun _ => .phase _ _ _ fun _ => .phase _ _ _ fun _ => .ok _ c⟩
  | divmod rq rr ra rb =>
    exact ⟨_, _, rfl, rfl, .phase _ _ _ fun _ => .phase _ _ _ fun _ => .phase _ _ _ fun _ => .phase _ _ _ fun _ =>
      .ok _ c⟩
  | cmp ra rb =>
    exact ⟨_, _, rfl, rfl, .phase _ _ _ fun a => .phase _ _ _ fun b => .ok _ (compareFlag a b)⟩
  | modexp rd ra rb rc =>
    exact ⟨_, _, rfl, rfl, .phase _ _ _ fun _ => .phase _ _ _ fun _ => .phase _ _ _ fun _ => .phase _ _ _ fun _ =>
      .ok _ c⟩

/-- With other flags in the state, a command does the same, up to the flags it leaves. -/
theorem exec_writeCmpf (i : Instr) (t : State) (c : CmpFlag) (h : exec i s = .next t) :
    ∃ d, exec i (s.writeCmpf c) = .next (t.writeCmpf d) := by
  obtain ⟨r, r', hr, hr', hs⟩ := exec_sameUpToFlags s i c
  rw [hr] at h
  rw [hr']
  exact hs.conclude s r r' c t h

/-! ## What a step can do -/

/-- The core's turn with a command pending that decodes (70_reset_and_hazards.md R236). -/
theorem step_of_pending (i : Instr) (rest : List Move) (hm : s.moves = .core :: rest) (hp : s.pend = true)
    (hd : decode s.L s.cmdr = .ok i) : step s = exec i (s.withMoves rest) := by
  have hd' : (s.withMoves rest).pendingCommand = .ok i := hd
  rw [step_of_core s rest hm, (s.withMoves rest).coreMove_of_pend hp, State.coreStep, hd']

theorem step_of_read (width : Width) (off : BitVec 13) (rest : List Move)
    (h : s.moves = .host (.read width off) :: rest) :
    step s = .next { s with answer := some (s.busRead width off), moves := rest } := by
  rw [step_of_host s _ rest h]
  rfl

/-- A write of any width to a read-only register changes nothing (20_memory.md R57, 60_exceptions.md R214). -/
theorem step_of_readOnly_write (width : Width) (off : BitVec 13) (w : Word) (rest : List Move) (x : Target)
    (hx : x ∈ [Target.status, .cap, .rlen]) (ht : target s.L off.toNat = some x)
    (h : s.moves = .host (.write width off w) :: rest) :
    step s = .next { s with answer := some .busError, moves := rest } := by
  have hn : (s.withMoves rest).busWrite width off w = none :=
    (s.withMoves rest).busWrite_of_readOnly width off w x hx ht
  rw [step_of_host s _ rest h, State.hostStep_write_of_none _ _ _ _ hn]
  rfl

/-- Everything a step can do to CMPF and RLEN: nothing, the reset's zeros, CMP's flag, or ST's length. -/
theorem step_cmpf_rlen (t : State) (h : step s = .next t) :
    (t.cmpf = s.cmpf ∧ t.rlen = s.rlen) ∨
      (∃ a rest, s.moves = .host a :: rest ∧ a.resets = true ∧ t.cmpf = .none ∧ t.rlen = 0) ∨
      (∃ ra rb a b, s.pend = true ∧ decode s.L s.cmdr = .ok (.cmp ra rb) ∧ s.readReg ra = some a ∧
        s.readReg rb = some b ∧ t.err = s.err ∧ t.rlen = s.rlen) ∨
      (∃ ra v, s.pend = true ∧ decode s.L s.cmdr = .ok (.st ra) ∧ s.readReg ra = some v ∧
        t.rlen = BitVec.ofNat 11 (nlimbs v) ∧ t.cmpf = s.cmpf) := by
  rcases step_cases s t h with ⟨a, rest, hm, rfl⟩ | ⟨ms, -, ⟨-, rfl⟩ | ⟨i, hp, hd, he⟩ | ⟨-, -, -, rfl⟩⟩
  · rcases (s.withMoves rest).hostStep_effect a with
      ⟨hr, x, e | e⟩ | ⟨-, ⟨x, e⟩ | ⟨w, -, -, -, e⟩ | ⟨j, w, -, e⟩⟩
    · exact .inr (.inl ⟨a, rest, hm, hr, by rw [e]; exact ⟨rfl, rfl⟩⟩)
    · exact .inr (.inl ⟨a, rest, hm, hr, by rw [e]; exact ⟨rfl, rfl⟩⟩)
    · exact .inl (by rw [e]; exact ⟨rfl, rfl⟩)
    · exact .inl (by rw [e]; exact ⟨rfl, rfl⟩)
    · exact .inl (by rw [e]; exact ⟨rfl, rfl⟩)
  · exact .inl ⟨rfl, rfl⟩
  · rcases exec_effect (s.withMoves ms) i t he with ⟨u, hc, rfl⟩ | ⟨f, rfl⟩
    · cases hc with
      | registers => exact .inl ⟨rfl, rfl⟩
      | store ra v hv => exact .inr (.inr (.inr ⟨ra, v, hp, hd, hv, rfl, rfl⟩))
      | compare ra rb a b ha hb => exact .inr (.inr (.inl ⟨ra, rb, a, b, hp, hd, ha, hb, rfl, rfl⟩))
    · exact .inl ⟨rfl, rfl⟩
  · exact .inl ⟨rfl, rfl⟩

/-- No step changes the capacity (92_eei_decisions.md D28). -/
theorem step_cap (t : State) (h : step s = .next t) : t.cap = s.cap := by
  rcases step_cases s t h with ⟨a, rest, hm, rfl⟩ | ⟨ms, -, ⟨-, rfl⟩ | ⟨i, -, -, he⟩ | ⟨-, -, -, rfl⟩⟩
  · rcases (s.withMoves rest).hostStep_effect a with
      ⟨-, x, e | e⟩ | ⟨-, ⟨x, e⟩ | ⟨w, -, -, -, e⟩ | ⟨j, w, -, e⟩⟩
    all_goals
      rw [e]
      rfl
  · rfl
  · rcases exec_effect (s.withMoves ms) i t he with ⟨u, hc, rfl⟩ | ⟨f, rfl⟩
    · cases hc <;> rfl
    · rfl
  · rfl

theorem exec_pend (i : Instr) (t : State) (h : exec i s = .next t) : t.pend = false := by
  rcases exec_effect s i t h with ⟨u, -, rfl⟩ | ⟨f, rfl⟩
  · rfl
  · rfl

/-- The core's turn leaves no command pending, whether there was one or not, and whether it completed or faulted. -/
theorem coreMove_pend (t : State) (h : s.coreMove = .next t) : t.pend = false := by
  cases hp : s.pend with
  | false =>
    rw [s.coreMove_of_idle hp] at h
    cases h
    exact hp
  | true =>
    rw [s.coreMove_of_pend hp] at h
    rcases s.coreStep_cases with ⟨i, -, e⟩ | ⟨-, -, e⟩
    · exact exec_pend s i t (e ▸ h)
    · rw [e] at h
      cases h
      rfl

theorem hostStep_reset_pend (a : HostAction) (hr : a.resets = true) : (s.hostStep a).pend = false := by
  rcases s.hostStep_effect a with ⟨-, x, e | e⟩ | ⟨hn, -⟩
  · rw [e]; rfl
  · rw [e]; rfl
  · rw [hr] at hn; cases hn

/-- While a command is pending a host action that is no reset changes the answer alone (20_memory.md R61, R65). -/
theorem hostStep_of_busy (a : HostAction) (hn : a.resets = false) (hp : s.pend = true) :
    ∃ x, s.hostStep a = s.answering x := by
  rcases s.hostStep_effect a with ⟨hr, -⟩ | ⟨-, ⟨x, e⟩ | ⟨w, -, hi, -⟩ | ⟨i, w, hi, -⟩⟩
  · rw [hn] at hr; cases hr
  · exact ⟨x, e⟩
  · rw [hp] at hi; cases hi
  · rw [hp] at hi; cases hi

/-- From an idle core, only an accepted CMD write leaves a command pending. -/
theorem hostStep_sets_pend (a : HostAction) (hp : s.pend = false) (ht : (s.hostStep a).pend = true) :
    ∃ w, a = .write .word 0x0000 w ∧ s.err = none ∧ (s.hostStep a).cmdr = w := by
  rcases s.hostStep_effect a with ⟨hr, -⟩ | ⟨-, ⟨x, e⟩ | ⟨w, ha, -, he, e⟩ | ⟨i, w, -, e⟩⟩
  · rw [hostStep_reset_pend s a hr] at ht; cases ht
  · rw [e, State.answering_pend, hp] at ht; cases ht
  · exact ⟨w, ha, he, by rw [e]; rfl⟩
  · rw [e, State.answering_pend, State.writeOpbufWord_pend, hp] at ht; cases ht

/-- The host's move, when the step is known to be one. -/
theorem eq_hostStep_of_step (t : State) (a : HostAction) (rest : List Move) (hm : s.moves = .host a :: rest)
    (h : step s = .next t) : t = (s.withMoves rest).hostStep a := by
  rw [step_of_host s a rest hm] at h
  cases h
  rfl

theorem step_sets_pend (t : State) (h : step s = .next t) (hp : s.pend = false) (ht : t.pend = true) :
    ∃ w rest, s.moves = .host (.write .word 0x0000 w) :: rest ∧ s.err = none ∧ t.cmdr = w := by
  cases hm : s.moves with
  | nil =>
    rw [step_of_no_moves s hm] at h
    rw [coreMove_pend s t h] at ht
    cases ht
  | cons m rest =>
    cases m with
    | core =>
      rw [step_of_core s rest hm] at h
      rw [coreMove_pend _ t h] at ht
      cases ht
    | host a =>
      obtain rfl := eq_hostStep_of_step s t a rest hm h
      obtain ⟨w, rfl, he, hc⟩ := hostStep_sets_pend (s.withMoves rest) a hp ht
      exact ⟨w, rest, rfl, he, hc⟩

/-- The length of a value in range fits in RLEN's 11 bits, since it is at most `L` (10_state.md R34). -/
theorem rlen_toNat_of_fits (v : Nat) (hv : v < BETA ^ s.L) :
    nlimbs v ≤ s.L ∧ (BitVec.ofNat 11 (nlimbs v)).toNat = nlimbs v := by
  have hle : nlimbs v ≤ s.L := (nlimbs_le_iff v s.L s.cap.property.1).mpr hv
  have hL : s.L ≤ 1024 := s.cap.property.2
  exact ⟨hle, by rw [BitVec.toNat_ofNat]; exact Nat.mod_eq_of_lt (by omega)⟩

/-- RLEN stays in `0..L` (10_state.md R34). -/
theorem step_rlen_le (t : State) (hi : s.Inv) (h : step s = .next t) : t.rlen.toNat ≤ t.L := by
  have hL : t.L = s.L := congrArg Subtype.val (step_cap s t h)
  rw [hL]
  rcases step_cmpf_rlen s t h with ⟨-, hr⟩ | ⟨-, -, -, -, -, hr⟩ | ⟨-, -, -, -, -, -, -, -, -, hr⟩ |
    ⟨ra, v, -, -, hv, hr, -⟩
  · exact hr ▸ hi.rlenLe
  · exact hr ▸ Nat.zero_le _
  · exact hr ▸ hi.rlenLe
  · obtain ⟨hle, hn⟩ := rlen_toNat_of_fits s v (hi.regsFit ra v hv)
    rw [hr, hn]
    exact hle

end Sys2Proof.Machine

/-! ## The statements -/

namespace Sys2Proof.Proofs

open Sys2Proof.Machine

/-- Settles O43: each field of STATUS from the sum of 10_state.md R31, whose terms do not overlap. -/
theorem statusRegisterFields : Obligations.StatusRegisterFields := by
  intro s rest
  obtain ⟨hpend, hfault, hcmpf, herr, hhigh⟩ := s.statusWord_fields
  refine ⟨fun hm => ⟨s.statusWord, ?_, hpend, hfault, hcmpf, ?_, hhigh, s.statusWord_toNat⟩, fun width v hm => ?_⟩
  · rw [step_of_read s _ _ rest hm, s.busRead_status]
  · rw [herr, State.errCode]
    cases s.err with
    | none => rfl
    | some f => cases f <;> rfl
  · exact step_of_readOnly_write s width 0x0004 v rest .status (by decide) (target_status s.L) hm

/-- Settles O44: each field of CAP from the sum of 10_state.md R33, whose terms do not overlap. -/
theorem capRegisterFields : Obligations.CapRegisterFields := by
  intro s rest
  obtain ⟨hbits, hcap, hregs, hhigh⟩ := s.capWord_fields
  refine ⟨fun hm => ⟨s.capWord, ?_, hbits, hcap, hregs, hhigh, s.capWord_toNat, s.cap.property⟩, fun width v hm => ?_⟩
  · rw [step_of_read s _ _ rest hm, s.busRead_cap]
  · exact step_of_readOnly_write s width 0x000C v rest .cap (by decide) (target_cap s.L) hm

/-- Settles O30: `step_cmpf_rlen` says who writes CMPF, `exec_writeCmpf` that no command reads it. -/
theorem flagsWrittenOnlyByCompare : Obligations.FlagsWrittenOnlyByCompare := by
  refine ⟨fun s t h hne => ?_, fun i s t c h => exec_writeCmpf s i t c h, fun s => ?_⟩
  · rcases step_cmpf_rlen s t h with ⟨hc, -⟩ | ⟨a, rest, hm, hr, hc, -⟩ |
      ⟨ra, rb, a, b, hp, hd, ha, hb, he, -⟩ | ⟨-, -, -, -, -, -, hc⟩
    · exact absurd hc hne
    · exact .inr ⟨a, rest, hm, hr, hc⟩
    · exact .inl ⟨ra, rb, a, b, hp, hd, ha, hb, he⟩
    · exact absurd hc hne
  · obtain ⟨-, -, hcmpf, -, -⟩ := s.statusWord_fields
    rw [hcmpf]
    cases s.cmpf <;> rfl

/-- Settles O31: `step_cmpf_rlen` says who writes RLEN, and a value in range has at most `L` limbs. -/
theorem lengthWrittenOnlyByStore : Obligations.LengthWrittenOnlyByStore := by
  intro s t hi h
  refine ⟨step_rlen_le s t hi h, fun hne => ?_, fun ra v rest hm hp hd hv => ?_, fun rest hm => ?_,
    fun width w rest hm => ?_⟩
  · rcases step_cmpf_rlen s t h with ⟨-, hr⟩ | ⟨a, rest, hm, hr, -, h0⟩ | ⟨-, -, -, -, -, -, -, -, -, hr⟩ |
      ⟨ra, v, hp, hd, hv, hr, -⟩
    · exact absurd hr hne
    · exact .inr ⟨a, rest, hm, hr, h0⟩
    · exact absurd hr hne
    · have hn : t.rlen.toNat = nlimbs v := hr ▸ (rlen_toNat_of_fits s v (hi.regsFit ra v hv)).2
      exact .inl ⟨ra, v, hp, hd, hv, hn, hn ▸ nlimbs_pos v⟩
  · rw [step_of_pending s _ rest hm hp hd, exec_st_of_valid (s.withMoves rest) ra v hv] at h
    cases h
    exact (rlen_toNat_of_fits s v (hi.regsFit ra v hv)).2
  · rw [step_of_read s _ _ rest hm, s.busRead_rlen] at h
    cases h
    exact ⟨fun hp => by rw [hp]; rfl, fun hp => ⟨s.rlenWord, by rw [hp]; rfl, s.rlenWord_fields⟩⟩
  · rw [step_of_readOnly_write s width 0x0010 w rest .rlen (by decide) (target_rlen s.L) hm] at h
    cases h
    rfl

/-- Settles O32: PEND and CMDR after a move of the core, a reset, and any other host action, idle and busy. -/
theorem pendLifecycle : Obligations.PendLifecycle := by
  intro s t h
  refine ⟨s.statusWord_fields.1, fun w rest hm hp he => ?_, step_sets_pend s t h, fun rest hm => ?_,
    fun a rest hm hr => ?_, fun a rest hm hn hp => ?_⟩
  · rw [eq_hostStep_of_step s t _ rest hm h, (s.withMoves rest).hostStep_accepts w hp he]
    exact ⟨rfl, rfl⟩
  · exact coreMove_pend _ t (step_of_core s rest hm ▸ h)
  · rw [eq_hostStep_of_step s t a rest hm h]
    exact hostStep_reset_pend _ a hr
  · obtain ⟨x, e⟩ := hostStep_of_busy (s.withMoves rest) a hn hp
    rw [eq_hostStep_of_step s t a rest hm h, e]
    exact ⟨hp, rfl⟩

end Sys2Proof.Proofs
end

section
/-! PROOFS. The memory family (20_memory.md): every transaction of the host. First which accesses stand at a target, then what the
bus answers at each target, then the two shapes of a write's step, then the statements. -/

namespace Sys2Proof.Machine

variable (s : State)

/-! ## Which accesses stand at a target (10_state.md R29, 20_memory.md R55) -/

/-- `eq_offset_of_target` on the bus's 13-bit offsets. -/
theorem eq_ofNat_offset_of_target (L : Nat) (off : BitVec 13) (x : Target) (h : target L off.toNat = some x) :
    off = BitVec.ofNat 13 x.offset := by
  rw [← eq_offset_of_target L off.toNat x h, BitVec.ofNat_toNat, BitVec.setWidth_eq]

/-- Only a word access at a register's offset or in OPBUF's `L` words has a target. -/
theorem mapped_of_accessTarget (width : Width) (off : BitVec 13) (x : Target) (h : s.accessTarget width off = some x) :
    width = .word ∧
      (off ∈ [0x0000, 0x0004, 0x0008, 0x000C, 0x0010] ∨ ∃ i, i < s.L ∧ off.toNat = 0x1000 + 4 * i) := by
  obtain ⟨hword, ht⟩ := accessTarget_eq_some s width off x h
  refine ⟨hword, ?_⟩
  cases x with
  | opbuf i => exact .inr ⟨i, target_eq_opbuf _ _ _ ht⟩
  | cmd | status | ctrl | cap | rlen =>
    rw [eq_ofNat_offset_of_target s.L off _ ht]
    exact .inl (by decide)

theorem accessTarget_eq_none (width : Width) (off : BitVec 13)
    (h : width ≠ .word ∨
      off ∉ [0x0000, 0x0004, 0x0008, 0x000C, 0x0010] ∧ ∀ i, i < s.L → off.toNat ≠ 0x1000 + 4 * i) :
    s.accessTarget width off = none := by
  cases hx : s.accessTarget width off with
  | none => rfl
  | some x =>
    obtain ⟨hword, hreg | ⟨i, hi, hoff⟩⟩ := mapped_of_accessTarget s width off x hx
    all_goals rcases h with hwidth | ⟨hnoreg, hnobuf⟩
    · exact absurd hword hwidth
    · exact absurd hreg hnoreg
    · exact absurd hword hwidth
    · exact absurd hoff (hnobuf i hi)

/-- A register's offset is a multiple of 4 below the reserved range. -/
theorem register_offset_bounds (off : BitVec 13) (h : off ∈ [0x0000, 0x0004, 0x0008, 0x000C, 0x0010]) :
    off.toNat % 4 = 0 ∧ off.toNat < 0x0014 := by
  revert h off
  decide

/-- What 20_memory.md R55 refuses has no target: everything mapped is a word at a multiple of 4 outside the reserved ranges. -/
theorem accessTarget_of_not_aligned_word (width : Width) (off : BitVec 13)
    (h : width ≠ .word ∨ off.toNat % 4 ≠ 0 ∨ (0x0014 ≤ off.toNat ∧ off.toNat < 0x1000) ∨
      0x1000 + 4 * s.L ≤ off.toNat) : s.accessTarget width off = none := by
  refine accessTarget_eq_none s width off (h.imp_right fun hoff => ⟨fun hreg => ?_, fun i hi hbuf => ?_⟩)
  · obtain ⟨halign, hlow⟩ := register_offset_bounds off hreg
    omega
  · omega

/-- An OPBUF word stands at its own offset (10_state.md R29). -/
theorem accessTarget_opbuf (off : BitVec 13) (i : Nat) (hoff : off.toNat = 0x1000 + 4 * i) (hi : i < s.L) :
    s.accessTarget .word off = some (.opbuf i) := by
  rw [accessTarget_word, hoff, target_opbuf s.L i hi]

/-! ## What the bus answers (20_memory.md R57) -/

@[simp] theorem State.busRead_cmd : s.busRead .word 0x0000 = .okData s.cmdr := rfl

@[simp] theorem State.busRead_ctrl : s.busRead .word 0x0008 = .okData 0 := rfl

theorem State.busRead_opbuf (off : BitVec 13) (i : Nat) (hoff : off.toNat = 0x1000 + 4 * i) (hi : i < s.L) :
    s.busRead .word off = if s.pend then .busError else .okData (s.opbufWord i) := by
  rw [State.busRead, accessTarget_opbuf s off i hoff hi]

theorem State.busRead_of_no_target (width : Width) (off : BitVec 13) (h : s.accessTarget width off = none) :
    s.busRead width off = .busError := by
  rw [State.busRead, h]

theorem State.busWrite_cmd (w : Word) :
    s.busWrite .word 0x0000 w = if s.pend = false ∧ s.err = none then some (s.accept w) else none := rfl

theorem State.busWrite_ctrl (w : Word) :
    s.busWrite .word 0x0008 w = if w = 1 then some s.softReset else if w = 0 then some s else none := rfl

theorem State.busWrite_opbuf (off : BitVec 13) (i : Nat) (w : Word) (hoff : off.toNat = 0x1000 + 4 * i) (hi : i < s.L) :
    s.busWrite .word off w = if s.pend then none else some (s.writeOpbufWord i w) := by
  rw [State.busWrite, accessTarget_opbuf s off i hoff hi]

theorem State.busWrite_of_no_target (width : Width) (off : BitVec 13) (w : Word) (h : s.accessTarget width off = none) :
    s.busWrite width off w = none := by
  rw [State.busWrite, h]

/-- CMD, CTRL and OPBUF are all that can be written. -/
theorem State.busWrite_eq_none (width : Width) (off : BitVec 13) (w : Word)
    (h : width ≠ .word ∨ off ∉ [0x0000, 0x0008] ∧ ∀ i, i < s.L → off.toNat ≠ 0x1000 + 4 * i) :
    s.busWrite width off w = none := by
  cases hw : s.busWrite width off w with
  | none => rfl
  | some t =>
    rcases h with hwidth | ⟨hnoreg, hnobuf⟩
    · exact absurd (s.busWrite_width width off w t hw) hwidth
    · rcases s.busWrite_cases width off w t hw with ⟨hcmd, -⟩ | ⟨hctrl, -⟩ | ⟨hctrl, -⟩ | ⟨i, hbuf, -⟩
      · exact absurd (by rw [eq_ofNat_offset_of_target _ _ _ hcmd]; decide) hnoreg
      · exact absurd (by rw [eq_ofNat_offset_of_target _ _ _ hctrl]; decide) hnoreg
      · exact absurd (by rw [eq_ofNat_offset_of_target _ _ _ hctrl]; decide) hnoreg
      · obtain ⟨hi, hoff⟩ := target_eq_opbuf _ _ _ hbuf
        exact absurd hoff (hnobuf i hi)

/-! ## The step of a write: permitted or refused -/

/-- The step of a write that is not permitted (60_exceptions.md R214). -/
theorem step_of_refused_write (width : Width) (off : BitVec 13) (w : Word) (rest : List Move)
    (hm : s.moves = .host (.write width off w) :: rest) (hn : (s.withMoves rest).busWrite width off w = none) :
    step s = .next { s with answer := some .busError, moves := rest } := by
  rw [step_of_host s _ rest hm, State.hostStep_write_of_none _ _ _ _ hn]
  rfl

/-- The step of a write that is permitted: what it writes, and the answer `ok`. -/
theorem step_of_permitted_write (width : Width) (off : BitVec 13) (w : Word) (rest : List Move) (t : State)
    (hm : s.moves = .host (.write width off w) :: rest) (ht : (s.withMoves rest).busWrite width off w = some t) :
    step s = .next (t.answering (some .ok)) := by
  rw [step_of_host s _ rest hm, State.hostStep_write_of_some _ _ _ _ _ ht]

/-- The step of a write to CTRL (10_state.md R32). -/
theorem step_of_ctrl_write (w : Word) (rest : List Move) (hm : s.moves = .host (.write .word 0x0008 w) :: rest) :
    step s = .next
      (if w = 1 then
        { s with
          regs := State.reset.regs, rlen := 0, cmdr := 0, pend := false, err := none, cmpf := .none
          answer := some .ok, moves := rest }
      else if w = 0 then { s with answer := some .ok, moves := rest }
      else { s with answer := some .busError, moves := rest }) := by
  have hw := (s.withMoves rest).busWrite_ctrl w
  split_ifs at hw ⊢ with hone hzero
  · exact step_of_permitted_write s _ _ w rest _ hm hw
  · exact step_of_permitted_write s _ _ w rest _ hm hw
  · exact step_of_refused_write s _ _ w rest hm hw

/-- The step of a write to CMD (10_state.md R30). -/
theorem step_of_cmd_write (w : Word) (rest : List Move) (hm : s.moves = .host (.write .word 0x0000 w) :: rest) :
    step s = .next
      (if s.pend = false ∧ s.err = none then { s with cmdr := w, pend := true, answer := some .ok, moves := rest }
      else { s with answer := some .busError, moves := rest }) := by
  have hw := (s.withMoves rest).busWrite_cmd w
  rw [State.withMoves_pend, State.withMoves_err] at hw
  split_ifs at hw ⊢ with hidle
  · exact step_of_permitted_write s _ _ w rest _ hm hw
  · exact step_of_refused_write s _ _ w rest hm hw

/-- The step of a write to `OPBUF[i]`: refused while busy, else the word is stored and every other byte kept. -/
theorem step_of_opbuf_write (off : BitVec 13) (i : Nat) (w : Word) (rest : List Move)
    (hoff : off.toNat = 0x1000 + 4 * i) (hi : i < s.L) (hm : s.moves = .host (.write .word off w) :: rest) :
    (s.pend = true → step s = .next { s with answer := some .busError, moves := rest }) ∧
      (s.pend = false → ∃ t, step s = .next t ∧ t.opbufWord i = w ∧
        (∀ a, a < 0x1000 + 4 * i ∨ 0x1000 + 4 * i + 4 ≤ a → t.opbufByte a = s.opbufByte a) ∧
        t = { s with mem := t.mem, answer := some .ok, moves := rest }) := by
  have hw := (s.withMoves rest).busWrite_opbuf off i w hoff hi
  rw [State.withMoves_pend] at hw
  refine ⟨fun hp => ?_, fun hp => ?_⟩
  · rw [hp] at hw
    exact step_of_refused_write s _ off w rest hm hw
  · rw [hp] at hw
    have hword := (s.withMoves rest).opbufWord_writeOpbufWord_self i w
    refine ⟨_, step_of_permitted_write s _ off w rest _ hm hw, hword, fun a ha => ?_, rfl⟩
    have hout : ¬(opbufOffset i ≤ a ∧ a < opbufOffset i + 4) := by simp only [opbufOffset]; omega
    exact ((s.withMoves rest).opbufByte_writeOpbufWord i w a).trans (if_neg hout)

end Sys2Proof.Machine

/-! ## The statements -/

namespace Sys2Proof.Proofs

open Sys2Proof.Machine

/-- Settles O42: the cells of 20_memory.md R57, each from what the bus answers at that target. -/
theorem hostStepEffects : Obligations.HostStepEffects := by
  intro s rest
  refine ⟨fun w hm => step_of_ctrl_write s w rest hm, fun w hm => step_of_cmd_write s w rest hm,
    fun off i w hoff hi hm => step_of_opbuf_write s off i w rest hoff hi hm,
    fun hm => ?cmd, fun hm => ?status, fun hm => ?ctrl, fun hm => ?cap, fun hm => ?rlen,
    fun off i hoff hi hm => ?opbuf, fun width off hm h => ?unmappedRead,
    fun width off w hm h => ?unmappedWrite⟩
  case cmd => rw [step_of_read s _ _ rest hm, s.busRead_cmd]
  case status => rw [step_of_read s _ _ rest hm, s.busRead_status]
  case ctrl => rw [step_of_read s _ _ rest hm, s.busRead_ctrl]
  case cap => rw [step_of_read s _ _ rest hm, s.busRead_cap]
  case rlen => rw [step_of_read s _ _ rest hm, s.busRead_rlen, State.rlenWord]
  case opbuf => rw [step_of_read s _ off rest hm, s.busRead_opbuf off i hoff hi]
  case unmappedRead =>
    rw [step_of_read s width off rest hm, s.busRead_of_no_target width off (accessTarget_eq_none s width off h)]
  case unmappedWrite =>
    exact step_of_refused_write s width off w rest hm ((s.withMoves rest).busWrite_eq_none width off w h)

/-- Settles O45: such an access has no target, and without a target neither a read nor a write is permitted. -/
theorem onlyAlignedWordAccesses : Obligations.OnlyAlignedWordAccesses := by
  intro s rest width off w h
  have hn : s.accessTarget width off = none := accessTarget_of_not_aligned_word s width off h
  refine ⟨fun hm => ?_, fun hm => ?_⟩
  · rw [step_of_read s width off rest hm, s.busRead_of_no_target width off hn]
  · exact step_of_refused_write s width off w rest hm ((s.withMoves rest).busWrite_of_no_target width off w hn)

end Sys2Proof.Proofs
end

section
/-! PROOFS. The encoding family (30_encoding.md): the opcode map and the illegal commands. First masks as fields, then the
bits each format checks, then the rows of the map against the decoder, then the statements. -/

namespace Sys2Proof

/-! ## Masks as fields (00_scope.md R8) -/

/-- The word whose ones stand in `hi:lo`. -/
def fieldMask (hi lo : Nat) : Word := BitVec.ofNat 32 ((2 ^ (hi - lo + 1) - 1) * 2 ^ lo)

/-- Masking with a field's mask keeps the field, in its place. -/
theorem and_fieldMask_toNat (w : Word) (hi lo : Nat) (hlo : lo ≤ hi) (hhi : hi < 32) :
    (w &&& fieldMask hi lo).toNat = field w hi lo * 2 ^ lo := by
  have hfit : (2 ^ (hi - lo + 1) - 1) * 2 ^ lo < 2 ^ 32 := by
    calc (2 ^ (hi - lo + 1) - 1) * 2 ^ lo
        < 2 ^ (hi - lo + 1) * 2 ^ lo :=
          Nat.mul_lt_mul_of_pos_right (Nat.sub_lt (Nat.two_pow_pos _) Nat.one_pos) (Nat.two_pow_pos lo)
      _ = 2 ^ (hi + 1) := by rw [← Nat.pow_add]; congr 1; omega
      _ ≤ 2 ^ 32 := Nat.pow_le_pow_right (by decide) (by omega)
  rw [BitVec.toNat_and, fieldMask, BitVec.toNat_ofNat, Nat.mod_eq_of_lt hfit, field]
  refine Nat.eq_of_testBit_eq fun k => ?_
  simp only [Nat.testBit_and, Nat.testBit_mul_two_pow, Nat.testBit_two_pow_sub_one, Nat.testBit_mod_two_pow,
    Nat.testBit_div_two_pow]
  by_cases hk : lo ≤ k
  · rw [Nat.sub_add_cancel hk]
    simp [hk, Bool.and_comm]
  · simp [hk]

/-- Two words agree under a field's mask exactly when the field is the same in both. -/
theorem and_fieldMask_eq_iff (w p : Word) (hi lo : Nat) (hlo : lo ≤ hi) (hhi : hi < 32) :
    w &&& fieldMask hi lo = p &&& fieldMask hi lo ↔ field w hi lo = field p hi lo := by
  rw [← BitVec.toNat_inj, and_fieldMask_toNat w hi lo hlo hhi, and_fieldMask_toNat p hi lo hlo hhi]
  exact Nat.mul_left_inj (Nat.two_pow_pos lo).ne'

theorem and_fieldMask_eq_zero (w : Word) (hi lo : Nat) (hlo : lo ≤ hi) (hhi : hi < 32) :
    w &&& fieldMask hi lo = 0#32 ↔ field w hi lo = 0 := by
  have h0 : field 0#32 hi lo = 0 := by simp [field]
  have h := and_fieldMask_eq_iff w 0#32 hi lo hlo hhi
  rwa [h0, BitVec.zero_and] at h

/-- Two words agree under the union of two masks exactly when they agree under each. -/
theorem and_or_eq_iff (w p a b : Word) :
    w &&& (a ||| b) = p &&& (a ||| b) ↔ w &&& a = p &&& a ∧ w &&& b = p &&& b := by
  have ha : (a ||| b) &&& a = a := by
    ext k hk
    rw [BitVec.getElem_and, BitVec.getElem_or]
    exact inf_eq_right.mpr le_sup_left
  have hb : (a ||| b) &&& b = b := by
    ext k hk
    rw [BitVec.getElem_and, BitVec.getElem_or]
    exact inf_eq_right.mpr le_sup_right
  constructor
  · intro h
    have agree (m : Word) (hm : (a ||| b) &&& m = m) : w &&& m = p &&& m := by
      rw [← hm, ← BitVec.and_assoc, h, BitVec.and_assoc]
    exact ⟨agree a ha, agree b hb⟩
  · rintro ⟨ha, hb⟩
    rw [BitVec.and_or_distrib_left, BitVec.and_or_distrib_left, ha, hb]

theorem and_or_eq_zero (w a b : Word) : w &&& (a ||| b) = 0#32 ↔ w &&& a = 0#32 ∧ w &&& b = 0#32 := by
  rw [BitVec.and_or_distrib_left, BitVec.or_eq_zero_iff]

/-- A 4-bit field holds a register index exactly when its top bit is 0 (30_encoding.md R82). -/
theorem field_lt_eight_iff (w : Word) (hi lo : Nat) (h : hi = lo + 3) : field w hi lo < 8 ↔ field w hi hi = 0 := by
  subst h
  have hdiv : w.toNat / 2 ^ (lo + 3) = w.toNat / 2 ^ lo / 8 := by rw [Nat.div_div_eq_div_mul, Nat.pow_add]
  simp only [field, hdiv, Nat.add_sub_cancel_left, Nat.sub_self]
  omega

theorem exists_reg_iff (w : Word) (hi lo : Nat) (h : hi = lo + 3) :
    (∃ r : Reg, field w hi lo = r.val) ↔ field w hi hi = 0 := by
  rw [← field_lt_eight_iff w hi lo h]
  exact ⟨fun ⟨r, hr⟩ => hr ▸ r.isLt, fun hlt => ⟨⟨_, hlt⟩, rfl⟩⟩

/-! ## The bits each format checks below the opcode (30_encoding.md R81) -/

theorem formatZ_legal (j : Instr) (w : Word) : (∃ i, formatZ j w = .ok i) ↔ w &&& 0x00FFFFFF = 0#32 := by
  rw [show (0x00FFFFFF : Word) = fieldMask 23 0 by decide]
  simp [formatZ_eq_ok, and_fieldMask_eq_zero]

theorem formatI_legal (make : Reg → BitVec 16 → Instr) (w : Word) :
    (∃ i, formatI make w = .ok i) ↔ w &&& 0x008F0000 = 0#32 := by
  rw [show (0x008F0000 : Word) = fieldMask 19 16 ||| fieldMask 23 23 by decide]
  simp [formatI_eq_ok, and_or_eq_zero, and_fieldMask_eq_zero, exists_reg_iff]

theorem exists_limbCount_iff (L : Nat) (w : Word) :
    (∃ n : BitVec 12, (1 ≤ n.toNat ∧ n.toNat ≤ L) ∧ field w 11 0 = n.toNat) ↔
      1 ≤ field w 11 0 ∧ field w 11 0 ≤ L := by
  constructor
  · rintro ⟨n, hn, e⟩
    exact e ▸ hn
  · intro hn
    have e : (BitVec.ofNat 12 (field w 11 0)).toNat = field w 11 0 := Nat.mod_eq_of_lt (Nat.mod_lt _ (by decide))
    exact ⟨BitVec.ofNat 12 (field w 11 0), by rwa [e], e.symm⟩

theorem formatL_legal (L : Nat) (make : Reg → BitVec 12 → Instr) (w : Word) :
    (∃ i, formatL L make w = .ok i) ↔ w &&& 0x008FF000 = 0#32 ∧ 1 ≤ field w 11 0 ∧ field w 11 0 ≤ L := by
  rw [show (0x008FF000 : Word) = fieldMask 19 12 ||| fieldMask 23 23 by decide, ← exists_limbCount_iff]
  simp [formatL_eq_ok, and_or_eq_zero, and_fieldMask_eq_zero, exists_reg_iff, and_assoc]

theorem formatS_legal (make : Reg → Instr) (w : Word) :
    (∃ i, formatS make w = .ok i) ↔ w &&& 0x00F8FFFF = 0#32 := by
  rw [show (0x00F8FFFF : Word) = fieldMask 23 20 ||| (fieldMask 15 0 ||| fieldMask 19 19) by decide]
  simp [formatS_eq_ok, and_or_eq_zero, and_fieldMask_eq_zero, exists_reg_iff]

theorem formatR2_legal (make : Reg → Reg → Instr) (w : Word) :
    (∃ i, formatR2 make w = .ok i) ↔ w &&& 0x0088FFFF = 0#32 := by
  rw [show (0x0088FFFF : Word) = fieldMask 15 0 ||| (fieldMask 23 23 ||| fieldMask 19 19) by decide]
  simp [formatR2_eq_ok, and_or_eq_zero, and_fieldMask_eq_zero, exists_reg_iff]

theorem formatC_legal (make : Reg → Reg → Instr) (w : Word) :
    (∃ i, formatC make w = .ok i) ↔ w &&& 0x00F88FFF = 0#32 := by
  rw [show (0x00F88FFF : Word) =
    fieldMask 23 20 ||| (fieldMask 11 0 ||| (fieldMask 19 19 ||| fieldMask 15 15)) by decide]
  simp [formatC_eq_ok, and_or_eq_zero, and_fieldMask_eq_zero, exists_reg_iff]

theorem formatR3_legal (make : Reg → Reg → Reg → Instr) (w : Word) :
    (∃ i, formatR3 make w = .ok i) ↔ w &&& 0x00888FFF = 0#32 := by
  rw [show (0x00888FFF : Word) =
    fieldMask 11 0 ||| (fieldMask 23 23 ||| (fieldMask 19 19 ||| fieldMask 15 15)) by decide]
  simp [formatR3_eq_ok, and_or_eq_zero, and_fieldMask_eq_zero, exists_reg_iff]

theorem formatR4_legal (make : Reg → Reg → Reg → Reg → Instr) (w : Word) :
    (∃ i, formatR4 make w = .ok i) ↔ w &&& 0x008888FF = 0#32 := by
  rw [show (0x008888FF : Word) =
    fieldMask 7 0 ||| (fieldMask 23 23 ||| (fieldMask 19 19 ||| (fieldMask 15 15 ||| fieldMask 11 11))) by decide]
  simp [formatR4_eq_ok, and_or_eq_zero, and_fieldMask_eq_zero, exists_reg_iff]

/-- Format R4 with distinct destinations is format R4 and that constraint. -/
theorem formatR4Distinct_legal (make : Reg → Reg → Reg → Reg → Instr) (w : Word) :
    (∃ i, formatR4Distinct make w = .ok i) ↔ w &&& 0x008888FF = 0#32 ∧ field w 23 20 ≠ field w 19 16 := by
  rw [← formatR4_legal make w]
  simp only [formatR4Distinct_eq_ok, formatR4_eq_ok]
  constructor
  · rintro ⟨i, h0, f1, h1, f2, h2, f3, h3, f4, h4, hne, hi⟩
    exact ⟨⟨i, h0, f1, h1, f2, h2, f3, h3, f4, h4, hi⟩, by rwa [h1, h2, Fin.val_ne_iff]⟩
  · rintro ⟨⟨i, h0, f1, h1, f2, h2, f3, h3, f4, h4, hi⟩, hne⟩
    exact ⟨i, h0, f1, h1, f2, h2, f3, h3, f4, h4, by rwa [h1, h2, Fin.val_ne_iff] at hne, hi⟩

/-! ## The opcode chooses the format (30_encoding.md R86) -/

theorem decode_of_opcode_nop (L : Nat) (w : Word) (h : field w 31 24 = 0x00) : decode L w = formatZ .nop w := by
  simp [decode, h]

theorem decode_of_opcode_ldi (L : Nat) (w : Word) (h : field w 31 24 = 0x01) : decode L w = formatI .ldi w := by
  simp [decode, h]

theorem decode_of_opcode_ld (L : Nat) (w : Word) (h : field w 31 24 = 0x02) : decode L w = formatL L .ld w := by
  simp [decode, h]

theorem decode_of_opcode_st (L : Nat) (w : Word) (h : field w 31 24 = 0x03) : decode L w = formatS .st w := by
  simp [decode, h]

theorem decode_of_opcode_mov (L : Nat) (w : Word) (h : field w 31 24 = 0x04) : decode L w = formatR2 .mov w := by
  simp [decode, h]

theorem decode_of_opcode_add (L : Nat) (w : Word) (h : field w 31 24 = 0x10) : decode L w = formatR3 .add w := by
  simp [decode, h]

theorem decode_of_opcode_sub (L : Nat) (w : Word) (h : field w 31 24 = 0x11) : decode L w = formatR3 .sub w := by
  simp [decode, h]

theorem decode_of_opcode_mul (L : Nat) (w : Word) (h : field w 31 24 = 0x12) : decode L w = formatR3 .mul w := by
  simp [decode, h]

theorem decode_of_opcode_divmod (L : Nat) (w : Word) (h : field w 31 24 = 0x13) :
    decode L w = formatR4Distinct .divmod w := by
  simp [decode, h]

theorem decode_of_opcode_cmp (L : Nat) (w : Word) (h : field w 31 24 = 0x14) : decode L w = formatC .cmp w := by
  simp [decode, h]

theorem decode_of_opcode_modexp (L : Nat) (w : Word) (h : field w 31 24 = 0x20) : decode L w = formatR4 .modexp w := by
  simp [decode, h]

/-- The opcode of a word that decodes is its command's. -/
theorem opcode_of_decode (L : Nat) (w : Word) (i : Instr) (h : decode L w = .ok i) :
    field w 31 24 = Laws.OpcodeField.opcodeOf i := by
  unfold decode at h
  rcases ite_eq_iff.mp h with ⟨hop, h⟩ | ⟨-, h⟩
  · obtain ⟨-, rfl⟩ := (formatZ_eq_ok _ w i).mp h
    exact hop
  rcases ite_eq_iff.mp h with ⟨hop, h⟩ | ⟨-, h⟩
  · obtain ⟨-, rd, -, rfl⟩ := (formatI_eq_ok _ w i).mp h
    exact hop
  rcases ite_eq_iff.mp h with ⟨hop, h⟩ | ⟨-, h⟩
  · obtain ⟨-, rd, -, n, -, rfl⟩ := (formatL_eq_ok L _ w i).mp h
    exact hop
  rcases ite_eq_iff.mp h with ⟨hop, h⟩ | ⟨-, h⟩
  · obtain ⟨-, -, ra, -, rfl⟩ := (formatS_eq_ok _ w i).mp h
    exact hop
  rcases ite_eq_iff.mp h with ⟨hop, h⟩ | ⟨-, h⟩
  · obtain ⟨-, rd, -, ra, -, rfl⟩ := (formatR2_eq_ok _ w i).mp h
    exact hop
  rcases ite_eq_iff.mp h with ⟨hop, h⟩ | ⟨-, h⟩
  · obtain ⟨-, rd, -, ra, -, rb, -, rfl⟩ := (formatR3_eq_ok _ w i).mp h
    exact hop
  rcases ite_eq_iff.mp h with ⟨hop, h⟩ | ⟨-, h⟩
  · obtain ⟨-, rd, -, ra, -, rb, -, rfl⟩ := (formatR3_eq_ok _ w i).mp h
    exact hop
  rcases ite_eq_iff.mp h with ⟨hop, h⟩ | ⟨-, h⟩
  · obtain ⟨-, rd, -, ra, -, rb, -, rfl⟩ := (formatR3_eq_ok _ w i).mp h
    exact hop
  rcases ite_eq_iff.mp h with ⟨hop, h⟩ | ⟨-, h⟩
  · obtain ⟨-, rq, -, rr, -, ra, -, rb, -, -, rfl⟩ := (formatR4Distinct_eq_ok _ w i).mp h
    exact hop
  rcases ite_eq_iff.mp h with ⟨hop, h⟩ | ⟨-, h⟩
  · obtain ⟨-, -, ra, -, rb, -, rfl⟩ := (formatC_eq_ok _ w i).mp h
    exact hop
  rcases ite_eq_iff.mp h with ⟨hop, h⟩ | ⟨-, h⟩
  · obtain ⟨-, rd, -, ra, -, rb, -, rc, -, rfl⟩ := (formatR4_eq_ok _ w i).mp h
    exact hop
  cases h

/-! ## The rows of the opcode map (30_encoding.md R84) -/

/-- The opcode of a row: bits 31:24 of its `match` column. -/
def OpcodeRow.opcode (row : OpcodeRow) : Nat := field row.pattern 31 24

/-- A row's mask is the opcode and some bits below it, and its pattern has no ones below the opcode. -/
theorem opcodeTable_masks : ∀ row ∈ opcodeTable,
    row.mask = fieldMask 31 24 ||| (row.mask &&& 0x00FFFFFF) ∧ row.pattern = row.pattern &&& row.mask ∧
      row.pattern &&& (row.mask &&& 0x00FFFFFF) = 0#32 := by decide

/-- Selecting a row, taken apart: its opcode, the bits it checks below the opcode, and its extra constraint. -/
theorem selects_iff (L : Nat) (w : Word) (row : OpcodeRow) (hrow : row ∈ opcodeTable) :
    row.selects L w = true ↔
      field w 31 24 = row.opcode ∧ w &&& (row.mask &&& 0x00FFFFFF) = 0#32 ∧ row.extra.holds L w = true := by
  obtain ⟨hmask, hpattern, hlow⟩ := opcodeTable_masks row hrow
  have hmatch : w &&& row.mask = row.pattern ↔
      field w 31 24 = row.opcode ∧ w &&& (row.mask &&& 0x00FFFFFF) = 0#32 := by
    have h := and_or_eq_iff w row.pattern (fieldMask 31 24) (row.mask &&& 0x00FFFFFF)
    rwa [← hmask, ← hpattern, hlow, and_fieldMask_eq_iff w row.pattern 31 24 (by decide) (by decide)] at h
  rw [OpcodeRow.selects, Bool.and_eq_true, beq_iff_eq, hmatch, and_assoc]

/-- A row with no extra constraint checks its format's bits alone. -/
theorem decodes_iff_of_unconstrained (L : Nat) (w : Word) (row : OpcodeRow) (x : Except DecodeError Instr)
    (hdecode : decode L w = x) (hextra : row.extra = .none)
    (hlegal : (∃ i, x = .ok i) ↔ w &&& (row.mask &&& 0x00FFFFFF) = 0#32) :
    (∃ i, decode L w = .ok i) ↔ w &&& (row.mask &&& 0x00FFFFFF) = 0#32 ∧ row.extra.holds L w = true := by
  rw [hdecode, hlegal, hextra]
  exact (and_iff_left rfl).symm

/-- A word with a row's opcode is a command exactly when it meets the row's other checks: the eleven formats of `decode`
against the eleven rows. -/
theorem decodes_iff_of_opcode (L : Nat) (w : Word) (row : OpcodeRow) (hrow : row ∈ opcodeTable)
    (hop : field w 31 24 = row.opcode) :
    (∃ i, decode L w = .ok i) ↔ w &&& (row.mask &&& 0x00FFFFFF) = 0#32 ∧ row.extra.holds L w = true := by
  simp only [opcodeTable, List.mem_cons, List.not_mem_nil, or_false] at hrow
  rcases hrow with rfl | rfl | rfl | rfl | rfl | rfl | rfl | rfl | rfl | rfl | rfl
  · exact decodes_iff_of_unconstrained L w _ _ (decode_of_opcode_nop L w hop) rfl (formatZ_legal _ w)
  · exact decodes_iff_of_unconstrained L w _ _ (decode_of_opcode_ldi L w hop) rfl (formatI_legal _ w)
  · rw [decode_of_opcode_ld L w hop, RowConstraint.holds, decide_eq_true_iff]
    exact formatL_legal L _ w
  · exact decodes_iff_of_unconstrained L w _ _ (decode_of_opcode_st L w hop) rfl (formatS_legal _ w)
  · exact decodes_iff_of_unconstrained L w _ _ (decode_of_opcode_mov L w hop) rfl (formatR2_legal _ w)
  · exact decodes_iff_of_unconstrained L w _ _ (decode_of_opcode_add L w hop) rfl (formatR3_legal _ w)
  · exact decodes_iff_of_unconstrained L w _ _ (decode_of_opcode_sub L w hop) rfl (formatR3_legal _ w)
  · exact decodes_iff_of_unconstrained L w _ _ (decode_of_opcode_mul L w hop) rfl (formatR3_legal _ w)
  · rw [decode_of_opcode_divmod L w hop, RowConstraint.holds, decide_eq_true_iff]
    exact formatR4Distinct_legal _ w
  · exact decodes_iff_of_unconstrained L w _ _ (decode_of_opcode_cmp L w hop) rfl (formatC_legal _ w)
  · exact decodes_iff_of_unconstrained L w _ _ (decode_of_opcode_modexp L w hop) rfl (formatR4_legal _ w)

/-- Row and command have the same opcode exactly when they have the same mnemonic. -/
theorem opcode_eq_iff_mnemonic_eq (i : Instr) : ∀ row ∈ opcodeTable,
    Laws.OpcodeField.opcodeOf i = row.opcode ↔ i.mnemonic = row.mnemonic := by
  cases i
  all_goals
    simp only [Laws.OpcodeField.opcodeOf, Instr.mnemonic]
    decide

/-- A word selects a row exactly when it decodes to a command of the row's mnemonic. -/
theorem selects_iff_decodes (L : Nat) (w : Word) (row : OpcodeRow) (hrow : row ∈ opcodeTable) :
    row.selects L w = true ↔ ∃ i, decode L w = .ok i ∧ i.mnemonic = row.mnemonic := by
  rw [selects_iff L w row hrow]
  constructor
  · rintro ⟨hop, hchecks⟩
    obtain ⟨i, hi⟩ := (decodes_iff_of_opcode L w row hrow hop).mpr hchecks
    exact ⟨i, hi, (opcode_eq_iff_mnemonic_eq i row hrow).mp (opcode_of_decode L w i hi ▸ hop)⟩
  · rintro ⟨i, hi, hname⟩
    have hop : field w 31 24 = row.opcode :=
      (opcode_of_decode L w i hi).trans ((opcode_eq_iff_mnemonic_eq i row hrow).mpr hname)
    exact ⟨hop, (decodes_iff_of_opcode L w row hrow hop).mp ⟨i, hi⟩⟩

theorem exists_row_of_mnemonic (i : Instr) : ∃ row ∈ opcodeTable, row.mnemonic = i.mnemonic := by
  cases i
  all_goals
    simp only [Instr.mnemonic]
    decide

theorem row_eq_of_mnemonic_eq :
    ∀ row ∈ opcodeTable, ∀ row' ∈ opcodeTable, row.mnemonic = row'.mnemonic → row = row' := by decide

/-! ## Illegal words (30_encoding.md R85) -/

/-- Exactly the words that select no row are illegal. -/
theorem illegal_iff (L : Nat) (w : Word) :
    (∃ e, decode L w = .error e) ↔ ∀ row ∈ opcodeTable, row.selects L w = false := by
  constructor
  · rintro ⟨e, he⟩ row hrow
    refine Bool.eq_false_iff.mpr fun hs => ?_
    obtain ⟨i, hi, -⟩ := (selects_iff_decodes L w row hrow).mp hs
    rw [hi] at he
    cases he
  · intro hnone
    cases hd : decode L w with
    | error e => exact ⟨e, rfl⟩
    | ok i =>
      obtain ⟨row, hrow, hname⟩ := exists_row_of_mnemonic i
      have hs := (selects_iff_decodes L w row hrow).mpr ⟨i, hd, hname.symm⟩
      rw [hnone row hrow] at hs
      cases hs

/-- A word is illegal when each row of its opcode refuses it. -/
theorem illegal_of_rows_refuse (L : Nat) (w : Word)
    (h : ∀ row ∈ opcodeTable, field w 31 24 = row.opcode → ¬ row.selects L w = true) : ∃ e, decode L w = .error e := by
  refine (illegal_iff L w).mpr fun row hrow => Bool.eq_false_iff.mpr fun hs => ?_
  obtain ⟨hop, -, -⟩ := (selects_iff L w row hrow).mp hs
  exact h row hrow hop hs

/-- Whether a row asks every bit of `hi:lo` to be 0. -/
def OpcodeRow.reserves (row : OpcodeRow) (hi lo : Nat) : Bool :=
  row.mask &&& fieldMask hi lo == fieldMask hi lo && row.pattern &&& fieldMask hi lo == 0#32

theorem field_eq_zero_of_reserves (L : Nat) (w : Word) (row : OpcodeRow) (hi lo : Nat) (hlo : lo ≤ hi) (hhi : hi < 32)
    (hr : row.reserves hi lo = true) (hs : row.selects L w = true) : field w hi lo = 0 := by
  rw [OpcodeRow.reserves, Bool.and_eq_true, beq_iff_eq, beq_iff_eq] at hr
  rw [OpcodeRow.selects, Bool.and_eq_true, beq_iff_eq] at hs
  obtain ⟨hmask, hpattern⟩ := hr
  obtain ⟨hmatch, -⟩ := hs
  rw [← and_fieldMask_eq_zero w hi lo hlo hhi, ← hmask, ← BitVec.and_assoc, hmatch, hpattern]

/-- A non-zero bit that every row of the word's opcode reserves makes the word illegal. -/
theorem illegal_of_reserved_bits (L : Nat) (w : Word) (hi lo : Nat) (hbounds : lo ≤ hi ∧ hi < 32) (ops : List Nat)
    (hrows : ∀ row ∈ opcodeTable, row.opcode ∈ ops → row.reserves hi lo = true) (hop : field w 31 24 ∈ ops)
    (hne : field w hi lo ≠ 0) : ∃ e, decode L w = .error e := by
  refine illegal_of_rows_refuse L w fun row hrow he hs => hne ?_
  exact field_eq_zero_of_reserves L w row hi lo hbounds.1 hbounds.2 (hrows row hrow (he ▸ hop)) hs

/-- A register field of 8 to 15 makes the word illegal: its top bit is reserved (30_encoding.md R82). -/
theorem illegal_of_register_index (L : Nat) (w : Word) (hi lo : Nat) (hbounds : hi = lo + 3 ∧ hi < 32) (ops : List Nat)
    (hrows : ∀ row ∈ opcodeTable, row.opcode ∈ ops → row.reserves hi hi = true) (hop : field w 31 24 ∈ ops)
    (h8 : 8 ≤ field w hi lo) : ∃ e, decode L w = .error e := by
  refine illegal_of_reserved_bits L w hi hi ⟨le_rfl, hbounds.2⟩ ops hrows hop fun h0 => ?_
  exact absurd ((field_lt_eight_iff w hi lo hbounds.1).mpr h0) (Nat.not_lt.mpr h8)

/-- A word that breaks the extra constraint of every row of its opcode is illegal. -/
theorem illegal_of_constraint (L : Nat) (w : Word) (op : Nat) (c : RowConstraint)
    (hrows : ∀ row ∈ opcodeTable, row.opcode = op → row.extra = c) (hop : field w 31 24 = op)
    (hc : ¬ c.holds L w = true) : ∃ e, decode L w = .error e := by
  refine illegal_of_rows_refuse L w fun row hrow he hs => hc ?_
  obtain ⟨-, -, hextra⟩ := (selects_iff L w row hrow).mp hs
  rwa [hrows row hrow (he.symm.trans hop)] at hextra

end Sys2Proof

namespace Sys2Proof.Machine

/-- The core's turn with a word pending that does not decode (60_exceptions.md R205). -/
theorem step_of_illegal (s : State) (e : DecodeError) (rest : List Move) (hm : s.moves = .core :: rest)
    (hp : s.pend = true) (hd : decode s.L s.cmdr = .error e) :
    step s = .next ((s.withMoves rest).raise .illegalCommand) := by
  have hd' : (s.withMoves rest).pendingCommand = .error e := hd
  rw [step_of_core s rest hm, (s.withMoves rest).coreMove_of_pend hp, State.coreStep, hd']

end Sys2Proof.Machine

/-! ## The statements -/

namespace Sys2Proof.Proofs

open Sys2Proof.Machine

/-- Settles O4: `selects_iff_decodes`, and the rows' mnemonics differ. -/
theorem decoderFollowsOpcodeMap : Obligations.DecoderFollowsOpcodeMap := by
  intro L w
  refine ⟨fun i hi => ?_, fun row hrow hs => (selects_iff_decodes L w row hrow).mp hs,
    fun row hrow row' hrow' hs hs' => ?_⟩
  · obtain ⟨row, hrow, hname⟩ := exists_row_of_mnemonic i
    exact ⟨row, hrow, hname, (selects_iff_decodes L w row hrow).mpr ⟨i, hi, hname.symm⟩⟩
  · obtain ⟨i, hi, hname⟩ := (selects_iff_decodes L w row hrow).mp hs
    obtain ⟨i', hi', hname'⟩ := (selects_iff_decodes L w row' hrow').mp hs'
    obtain rfl : i = i' := Except.ok.inj (hi.symm.trans hi')
    exact row_eq_of_mnemonic_eq row hrow row' hrow' (hname.symm.trans hname')

/-- Settles O6: each kind is a check that every row of the word's opcode makes and the word fails; the two steps are an
accepted CMD write and the core's turn with that word pending. -/
theorem illegalCommandsFault : Obligations.IllegalCommandsFault := by
  intro s w
  refine ⟨illegal_iff s.L w, fun hop => ?unknownOpcode, ?reservedBits, ?registerIndex, ?limbCount, ?sameDestination,
    fun e rest hd hp he hm => ?steps⟩
  case unknownOpcode =>
    have hops : ∀ row ∈ opcodeTable,
        row.opcode ∈ [0x00, 0x01, 0x02, 0x03, 0x04, 0x10, 0x11, 0x12, 0x13, 0x14, 0x20] := by decide
    exact illegal_of_rows_refuse s.L w fun row hrow hrowOp _ => hop (hrowOp ▸ hops row hrow)
  case reservedBits =>
    rintro (⟨hop, h⟩ | ⟨hop, h⟩ | ⟨hop, h⟩ | ⟨hop, h | h⟩ | ⟨hop, h⟩ | ⟨hop, h⟩ | ⟨hop, h | h⟩ | ⟨hop, h⟩)
    · exact illegal_of_reserved_bits s.L w 23 0 (by decide) [0x00] (by decide) (List.mem_singleton.mpr hop) h
    · exact illegal_of_reserved_bits s.L w 19 16 (by decide) [0x01] (by decide) (List.mem_singleton.mpr hop) h
    · exact illegal_of_reserved_bits s.L w 19 12 (by decide) [0x02] (by decide) (List.mem_singleton.mpr hop) h
    · exact illegal_of_reserved_bits s.L w 23 20 (by decide) [0x03] (by decide) (List.mem_singleton.mpr hop) h
    · exact illegal_of_reserved_bits s.L w 15 0 (by decide) [0x03] (by decide) (List.mem_singleton.mpr hop) h
    · exact illegal_of_reserved_bits s.L w 15 0 (by decide) [0x04] (by decide) (List.mem_singleton.mpr hop) h
    · exact illegal_of_reserved_bits s.L w 11 0 (by decide) _ (by decide) hop h
    · exact illegal_of_reserved_bits s.L w 23 20 (by decide) [0x14] (by decide) (List.mem_singleton.mpr hop) h
    · exact illegal_of_reserved_bits s.L w 11 0 (by decide) [0x14] (by decide) (List.mem_singleton.mpr hop) h
    · exact illegal_of_reserved_bits s.L w 7 0 (by decide) _ (by decide) hop h
  case registerIndex =>
    rintro (⟨hop, h⟩ | ⟨hop, h⟩ | ⟨hop, h⟩ | ⟨hop, h⟩)
    · exact illegal_of_register_index s.L w 23 20 (by decide) _ (by decide) hop h
    · exact illegal_of_register_index s.L w 19 16 (by decide) _ (by decide) hop h
    · exact illegal_of_register_index s.L w 15 12 (by decide) _ (by decide) hop h
    · exact illegal_of_register_index s.L w 11 8 (by decide) _ (by decide) hop h
  case limbCount =>
    rintro ⟨hop, hn⟩
    refine illegal_of_constraint s.L w 0x02 .limbCount (by decide) hop fun hc => ?_
    rw [RowConstraint.holds, decide_eq_true_iff] at hc
    omega
  case sameDestination =>
    rintro ⟨hop, heq⟩
    refine illegal_of_constraint s.L w 0x13 .distinctDests (by decide) hop fun hc => ?_
    rw [RowConstraint.holds, decide_eq_true_iff] at hc
    exact hc heq
  case steps =>
    have hwrite := step_of_cmd_write s w (.core :: rest) hm
    rw [if_pos ⟨hp, he⟩] at hwrite
    exact ⟨_, hwrite, rfl, step_of_illegal _ e rest rfl rfl hd⟩

end Sys2Proof.Proofs
end

section
/-! PROOFS. The adder (40_adder.md): the word of ADD and its three outcomes. First the words of format R3 and a pair of
sources, which the other commands of two operands share, then ADD, then the statement. -/

namespace Sys2Proof

/-! ## The words of format R3 (30_encoding.md R81) -/

theorem opcode_of_toNat_R3 (w : Word) (op : Nat) (rd ra rb : Reg)
    (h : w.toNat = op * 2 ^ 24 + rd.val * 2 ^ 20 + ra.val * 2 ^ 16 + rb.val * 2 ^ 12) : field w 31 24 = op := by
  have hw : w.toNat < 2 ^ 32 := w.isLt
  rw [field_eq _ _ _ 8 rfl]
  omega

theorem formatR3_of_toNat (make : Reg → Reg → Reg → Instr) (w : Word) (op : Nat) (rd ra rb : Reg)
    (h : w.toNat = op * 2 ^ 24 + rd.val * 2 ^ 20 + ra.val * 2 ^ 16 + rb.val * 2 ^ 12) :
    formatR3 make w = .ok (make rd ra rb) := by
  have hlow : field w 11 0 = 0 := by rw [field_eq _ _ _ 12 rfl]; omega
  have hrd : field w 23 20 = rd.val := by rw [field_eq _ _ _ 4 rfl]; omega
  have hra : field w 19 16 = ra.val := by rw [field_eq _ _ _ 4 rfl]; omega
  have hrb : field w 15 12 = rb.val := by rw [field_eq _ _ _ 4 rfl]; omega
  exact (formatR3_eq_ok make w _).mpr ⟨hlow, rd, hrd, ra, hra, rb, hrb, rfl⟩

theorem decode_add_of_toNat (L : Nat) (w : Word) (rd ra rb : Reg)
    (h : w.toNat = 0x10 * 2 ^ 24 + rd.val * 2 ^ 20 + ra.val * 2 ^ 16 + rb.val * 2 ^ 12) :
    decode L w = .ok (.add rd ra rb) := by
  rw [decode_of_opcode_add L w (opcode_of_toNat_R3 w _ rd ra rb h), formatR3_of_toNat .add w _ rd ra rb h]

end Sys2Proof

namespace Sys2Proof.Machine

variable (s : State)

/-! ## A pair of sources (60_exceptions.md R206) -/

/-- Whichever of two sources is invalid, the command raises `UnwrittenOperand`. -/
theorem State.sources_of_none {α : Type} (ra rb : Reg) (k : Nat → Nat → Except FaultCode α)
    (h : s.readReg ra = none ∨ s.readReg rb = none) :
    (do let a ← s.source ra; let b ← s.source rb; k a b) = .error .unwrittenOperand := by
  rcases s.source_cases ra with ⟨a, ha, ea⟩ | ⟨-, ea⟩
  · have hb : s.readReg rb = none := h.resolve_left (by simp [ha])
    rw [ea, phase_ok, s.source_of_none rb hb, phase_error]
  · rw [ea, phase_error]

theorem State.sources_of_some {α : Type} (ra rb : Reg) (a b : Nat) (k : Nat → Nat → Except FaultCode α)
    (ha : s.readReg ra = some a) (hb : s.readReg rb = some b) :
    (do let a ← s.source ra; let b ← s.source rb; k a b) = k a b := by
  rw [s.source_of_some ra a ha, phase_ok, s.source_of_some rb b hb, phase_ok]

/-! ## ADD (40_adder.md R100) -/

variable (rd ra rb : Reg)

theorem exec_add_of_none (h : s.readReg ra = none ∨ s.readReg rb = none) :
    exec (.add rd ra rb) s = .next (s.raise .unwrittenOperand) := by
  rw [exec, execAdd, s.sources_of_none ra rb _ h, State.conclude_error]

theorem exec_add_of_overflow (a b : Nat) (ha : s.readReg ra = some a) (hb : s.readReg rb = some b)
    (h : BETA ^ s.L ≤ a + b) : exec (.add rd ra rb) s = .next (s.raise .capacityOverflow) := by
  rw [exec, execAdd, s.sources_of_some ra rb a b _ ha hb, failIf_decide_of _ _ h, phase_error, State.conclude_error]

theorem exec_add_of_fits (a b : Nat) (ha : s.readReg ra = some a) (hb : s.readReg rb = some b)
    (h : a + b < BETA ^ s.L) : exec (.add rd ra rb) s = .next (s.writeReg rd (a + b)).retire := by
  rw [exec, execAdd, s.sources_of_some ra rb a b _ ha hb, failIf_decide_of_not _ _ (Nat.not_le.mpr h), phase_ok,
    phase_pure, State.conclude_ok]

end Sys2Proof.Machine

namespace Sys2Proof.Proofs

open Sys2Proof.Machine

/-- Settles O15: the fields of the word, and ADD's three outcomes; `State.raise` and `State.retire` after `State.writeReg` are
the states it writes out. -/
theorem addRule : Obligations.AddRule := by
  intro s rd ra rb
  refine ⟨fun w hw => decode_add_of_toNat s.L w rd ra rb hw, exec_add_of_none s rd ra rb, fun a b ha hb => ⟨?_, ?_⟩⟩
  · exact exec_add_of_overflow s rd ra rb a b ha hb
  · exact exec_add_of_fits s rd ra rb a b ha hb

end Sys2Proof.Proofs
end

section
/-! PROOFS. The subtractor (41_subtractor.md): the word of SUB and its three outcomes, then the statement. -/

namespace Sys2Proof

theorem decode_sub_of_toNat (L : Nat) (w : Word) (rd ra rb : Reg)
    (h : w.toNat = 0x11 * 2 ^ 24 + rd.val * 2 ^ 20 + ra.val * 2 ^ 16 + rb.val * 2 ^ 12) :
    decode L w = .ok (.sub rd ra rb) := by
  rw [decode_of_opcode_sub L w (opcode_of_toNat_R3 w _ rd ra rb h), formatR3_of_toNat .sub w _ rd ra rb h]

end Sys2Proof

namespace Sys2Proof.Machine

variable (s : State) (rd ra rb : Reg)

/-! ## SUB (41_subtractor.md R110, R111) -/

theorem exec_sub_of_none (h : s.readReg ra = none ∨ s.readReg rb = none) :
    exec (.sub rd ra rb) s = .next (s.raise .unwrittenOperand) := by
  rw [exec, execSub, s.sources_of_none ra rb _ h, State.conclude_error]

theorem exec_sub_of_lt (a b : Nat) (ha : s.readReg ra = some a) (hb : s.readReg rb = some b) (h : a < b) :
    exec (.sub rd ra rb) s = .next (s.raise .arithmeticUnderflow) := by
  rw [exec, execSub, s.sources_of_some ra rb a b _ ha hb, failIf_decide_of _ _ h, phase_error, State.conclude_error]

/-- A source that is the other plus `c` leaves exactly `c`: no bound on `c` is asked, so SUB has no `CapacityOverflow`. -/
theorem exec_sub_of_eq_add (a b c : Nat) (ha : s.readReg ra = some a) (hb : s.readReg rb = some b) (h : a = b + c) :
    exec (.sub rd ra rb) s = .next (s.writeReg rd c).retire := by
  have hle : ¬a < b := Nat.not_lt.mpr (h ▸ Nat.le_add_right b c)
  have hdiff : a - b = c := Nat.sub_eq_of_eq_add' h
  rw [exec, execSub, s.sources_of_some ra rb a b _ ha hb, failIf_decide_of_not _ _ hle, phase_ok, phase_pure,
    State.conclude_ok, hdiff]

end Sys2Proof.Machine

namespace Sys2Proof.Proofs

open Sys2Proof.Machine

/-- Settles O16: the fields of the word, and SUB's three outcomes, split at `a < b`; `State.raise` and `State.retire` after
`State.writeReg` are the states it writes out. -/
theorem subRule : Obligations.SubRule := by
  intro s rd ra rb
  refine ⟨fun w hw => decode_sub_of_toNat s.L w rd ra rb hw, exec_sub_of_none s rd ra rb, fun a b ha hb => ⟨?_, ?_⟩⟩
  · exact exec_sub_of_lt s rd ra rb a b ha hb
  · exact fun c => exec_sub_of_eq_add s rd ra rb a b c ha hb

end Sys2Proof.Proofs
end

section
/-! PROOFS. The multiplier (42_multiplier.md): the word of MUL, the length of a product and MUL's three outcomes, then the
statement. -/

namespace Sys2Proof

theorem decode_mul_of_toNat (L : Nat) (w : Word) (rd ra rb : Reg)
    (h : w.toNat = 0x12 * 2 ^ 24 + rd.val * 2 ^ 20 + ra.val * 2 ^ 16 + rb.val * 2 ^ 12) :
    decode L w = .ok (.mul rd ra rb) := by
  rw [decode_of_opcode_mul L w (opcode_of_toNat_R3 w _ rd ra rb h), formatR3_of_toNat .mul w _ rd ra rb h]

end Sys2Proof

namespace Sys2Proof.Machine

/-! ## The length of a product (42_multiplier.md R120) -/

theorem nlimbs_mul_le (a b : Nat) : nlimbs (a * b) ≤ nlimbs a + nlimbs b := by
  rw [nlimbs_le_iff _ _ (Nat.le_add_right_of_le (nlimbs_pos a)), Nat.pow_add]
  exact Nat.mul_lt_mul'' (lt_pow_nlimbs a) (lt_pow_nlimbs b)

/-- The leading limbs alone bound the product from below by a power of `BETA`, whose length is one more than its
exponent. -/
theorem le_nlimbs_mul (a b : Nat) (ha : 0 < a) (hb : 0 < b) : nlimbs a + nlimbs b - 1 ≤ nlimbs (a * b) := by
  have hpow : BETA ^ (nlimbs a - 1 + (nlimbs b - 1)) < BETA ^ nlimbs (a * b) :=
    calc BETA ^ (nlimbs a - 1 + (nlimbs b - 1))
        = BETA ^ (nlimbs a - 1) * BETA ^ (nlimbs b - 1) := Nat.pow_add ..
      _ ≤ a * b := Nat.mul_le_mul (pow_le_of_nlimbs a ha.ne') (pow_le_of_nlimbs b hb.ne')
      _ < BETA ^ nlimbs (a * b) := lt_pow_nlimbs (a * b)
  have hexp : nlimbs a - 1 + (nlimbs b - 1) < nlimbs (a * b) := (Nat.pow_lt_pow_iff_right one_lt_BETA).mp hpow
  have hla := nlimbs_pos a
  have hlb := nlimbs_pos b
  omega

theorem nlimbs_mul (a b : Nat) (ha : 0 < a) (hb : 0 < b) :
    nlimbs (a * b) = nlimbs a + nlimbs b ∨ nlimbs (a * b) = nlimbs a + nlimbs b - 1 := by
  have hupper := nlimbs_mul_le a b
  have hlower := le_nlimbs_mul a b ha hb
  omega

variable (s : State) (rd ra rb : Reg)

/-! ## MUL (42_multiplier.md R120) -/

theorem exec_mul_of_none (h : s.readReg ra = none ∨ s.readReg rb = none) :
    exec (.mul rd ra rb) s = .next (s.raise .unwrittenOperand) := by
  rw [exec, execMul, s.sources_of_none ra rb _ h, State.conclude_error]

theorem exec_mul_of_overflow (a b : Nat) (ha : s.readReg ra = some a) (hb : s.readReg rb = some b)
    (h : BETA ^ s.L ≤ a * b) : exec (.mul rd ra rb) s = .next (s.raise .capacityOverflow) := by
  rw [exec, execMul, s.sources_of_some ra rb a b _ ha hb, failIf_decide_of _ _ h, phase_error, State.conclude_error]

theorem exec_mul_of_fits (a b : Nat) (ha : s.readReg ra = some a) (hb : s.readReg rb = some b)
    (h : a * b < BETA ^ s.L) : exec (.mul rd ra rb) s = .next (s.writeReg rd (a * b)).retire := by
  rw [exec, execMul, s.sources_of_some ra rb a b _ ha hb, failIf_decide_of_not _ _ (Nat.not_le.mpr h), phase_ok,
    phase_pure, State.conclude_ok]

end Sys2Proof.Machine

namespace Sys2Proof.Proofs

open Sys2Proof.Machine

/-- Settles O17: the fields of the word, MUL's three outcomes, split at `BETA ^ L ≤ a * b`, and the length of the product;
`State.raise` and `State.retire` after `State.writeReg` are the states it writes out. -/
theorem mulRule : Obligations.MulRule := by
  intro s rd ra rb
  refine ⟨fun w hw => decode_mul_of_toNat s.L w rd ra rb hw, exec_mul_of_none s rd ra rb, fun a b ha hb => ⟨?_, ?_, ?_⟩⟩
  · exact exec_mul_of_overflow s rd ra rb a b ha hb
  · exact exec_mul_of_fits s rd ra rb a b ha hb
  · exact nlimbs_mul a b

end Sys2Proof.Proofs
end

section
/-! PROOFS. The divider (43_divider.md): the words of format R4, the word of DIVMOD and its outcomes, then the statement. -/

namespace Sys2Proof

/-! ## The words of format R4 (30_encoding.md R81) -/

/-- The six fields of a word of format R4 are the summands it was built from. -/
theorem fields_of_toNat_R4 (w : Word) (op : Nat) (f1 f2 f3 f4 : Reg)
    (h : w.toNat = op * 2 ^ 24 + f1.val * 2 ^ 20 + f2.val * 2 ^ 16 + f3.val * 2 ^ 12 + f4.val * 2 ^ 8) :
    field w 31 24 = op ∧ field w 7 0 = 0 ∧ field w 23 20 = f1.val ∧ field w 19 16 = f2.val ∧
      field w 15 12 = f3.val ∧ field w 11 8 = f4.val := by
  have hw : w.toNat < 2 ^ 32 := w.isLt
  rw [field_eq _ 31 24 8 rfl, field_eq _ 7 0 8 rfl, field_eq _ 23 20 4 rfl, field_eq _ 19 16 4 rfl,
    field_eq _ 15 12 4 rfl, field_eq _ 11 8 4 rfl]
  omega

/-! ## The word of DIVMOD (43_divider.md R130) -/

theorem decode_divmod_of_toNat (L : Nat) (w : Word) (rq rr ra rb : Reg)
    (h : w.toNat = 0x13 * 2 ^ 24 + rq.val * 2 ^ 20 + rr.val * 2 ^ 16 + ra.val * 2 ^ 12 + rb.val * 2 ^ 8)
    (hne : rq ≠ rr) : decode L w = .ok (.divmod rq rr ra rb) := by
  obtain ⟨hop, hlow, hrq, hrr, hra, hrb⟩ := fields_of_toNat_R4 w _ rq rr ra rb h
  rw [decode_of_opcode_divmod L w hop]
  exact (formatR4Distinct_eq_ok .divmod w _).mpr ⟨hlow, rq, hrq, rr, hrr, ra, hra, rb, hrb, hne, rfl⟩

theorem illegal_divmod_of_toNat (L : Nat) (w : Word) (rq rr ra rb : Reg)
    (h : w.toNat = 0x13 * 2 ^ 24 + rq.val * 2 ^ 20 + rr.val * 2 ^ 16 + ra.val * 2 ^ 12 + rb.val * 2 ^ 8)
    (heq : rq = rr) : ∃ e, decode L w = .error e := by
  obtain ⟨hop, -, hrq, hrr, -, -⟩ := fields_of_toNat_R4 w _ rq rr ra rb h
  refine illegal_of_constraint L w 0x13 .distinctDests (by decide) hop fun hc => ?_
  rw [RowConstraint.holds, decide_eq_true_iff, hrq, hrr, heq] at hc
  exact hc rfl

end Sys2Proof

namespace Sys2Proof.Machine

variable (s : State) (rq rr ra rb : Reg)

/-! ## DIVMOD (43_divider.md R130, R133) -/

theorem exec_divmod_of_none (hne : rq ≠ rr) (h : s.readReg ra = none ∨ s.readReg rb = none) :
    exec (.divmod rq rr ra rb) s = .next (s.raise .unwrittenOperand) := by
  rw [exec, execDivmod, distinct_of_ne rq rr hne, phase_ok, s.sources_of_none ra rb _ h, State.conclude_error]

theorem exec_divmod_of_zero (hne : rq ≠ rr) (a b : Nat) (ha : s.readReg ra = some a) (hb : s.readReg rb = some b)
    (h : b = 0) : exec (.divmod rq rr ra rb) s = .next (s.raise .divisionByZero) := by
  rw [exec, execDivmod, distinct_of_ne rq rr hne, phase_ok, s.sources_of_some ra rb a b _ ha hb, failIf_decide_of _ _ h,
    phase_error, State.conclude_error]

theorem exec_divmod_of_ne_zero (hne : rq ≠ rr) (a b : Nat) (ha : s.readReg ra = some a) (hb : s.readReg rb = some b)
    (h : b ≠ 0) :
    exec (.divmod rq rr ra rb) s = .next ((s.writeReg rq (a / b)).writeReg rr (a % b)).retire := by
  rw [exec, execDivmod, distinct_of_ne rq rr hne, phase_ok, s.sources_of_some ra rb a b _ ha hb,
    failIf_decide_of_not _ _ h, phase_ok, phase_pure, State.conclude_ok]

end Sys2Proof.Machine

namespace Sys2Proof.Proofs

open Sys2Proof.Machine

/-- Settles O18: the fields of the word, and DIVMOD's three outcomes, split at `b = 0`; the pair is `a / b` and `a % b`, unique
by `Nat.div_mod_unique`. `State.raise` and `State.retire` after `State.writeReg` are the states it writes out. -/
theorem divmodRule : Obligations.DivmodRule := by
  intro s rq rr ra rb
  refine ⟨fun w hw => ⟨decode_divmod_of_toNat s.L w rq rr ra rb hw, illegal_divmod_of_toNat s.L w rq rr ra rb hw⟩,
    fun hne => ⟨exec_divmod_of_none s rq rr ra rb hne, fun a b ha hb => ⟨?_, fun h0 => ?_⟩⟩⟩
  · exact exec_divmod_of_zero s rq rr ra rb hne a b ha hb
  · have hpos : 0 < b := Nat.pos_of_ne_zero h0
    refine ⟨a / b, a % b, (Nat.div_add_mod' a b).symm, Nat.mod_lt a hpos, fun q' r' hsum hlt => ?_,
      exec_divmod_of_ne_zero s rq rr ra rb hne a b ha hb h0⟩
    have hsum' : r' + b * q' = a := by rw [hsum, Nat.mul_comm, Nat.add_comm]
    obtain ⟨hq, hr⟩ := (Nat.div_mod_unique hpos).mpr ⟨hsum', hlt⟩
    exact ⟨hq.symm, hr.symm⟩

end Sys2Proof.Proofs
end

section
/-! PROOFS. The comparator (44_compare.md): the word of CMP, the flag as the natural-number order, and CMP's outcomes, then the
statement. -/

namespace Sys2Proof

/-- A word of format C is one of format R3 with a zero in the place of the destination (30_encoding.md R81). -/
theorem decode_cmp_of_toNat (L : Nat) (w : Word) (ra rb : Reg)
    (h : w.toNat = 0x14 * 2 ^ 24 + ra.val * 2 ^ 16 + rb.val * 2 ^ 12) : decode L w = .ok (.cmp ra rb) := by
  have hop : field w 31 24 = 0x14 := opcode_of_toNat_R3 w 0x14 0 ra rb h
  have hdest : field w 23 20 = 0 := by rw [field_eq _ _ _ 4 rfl]; omega
  have hlow : field w 11 0 = 0 := by rw [field_eq _ _ _ 12 rfl]; omega
  have hra : field w 19 16 = ra.val := by rw [field_eq _ _ _ 4 rfl]; omega
  have hrb : field w 15 12 = rb.val := by rw [field_eq _ _ _ 4 rfl]; omega
  rw [decode_of_opcode_cmp L w hop]
  exact (formatC_eq_ok .cmp w _).mpr ⟨hdest, hlow, ra, hra, rb, hrb, rfl⟩

end Sys2Proof

namespace Sys2Proof.Machine

/-! ## The flag of a comparison (44_compare.md R140) -/

theorem compareFlag_of_lt (a b : Nat) (h : a < b) : compareFlag a b = .lt := if_pos h

theorem compareFlag_of_eq (a b : Nat) (h : a = b) : compareFlag a b = .eq := by
  rw [compareFlag, if_neg h.not_lt, if_pos h]

theorem compareFlag_of_gt (a b : Nat) (h : b < a) : compareFlag a b = .gt := by
  rw [compareFlag, if_neg h.not_gt, if_neg h.ne']

variable (s : State) (ra rb : Reg)

/-! ## CMP (44_compare.md R140) -/

theorem exec_cmp_of_none (h : s.readReg ra = none ∨ s.readReg rb = none) :
    exec (.cmp ra rb) s = .next (s.raise .unwrittenOperand) := by
  rw [exec, execCmp, s.sources_of_none ra rb _ h, State.conclude_error]

theorem exec_cmp_of_some (a b : Nat) (ha : s.readReg ra = some a) (hb : s.readReg rb = some b) :
    exec (.cmp ra rb) s = .next (s.writeCmpf (compareFlag a b)).retire := by
  rw [exec, execCmp, s.sources_of_some ra rb a b _ ha hb, phase_pure, State.conclude_ok]

end Sys2Proof.Machine

namespace Sys2Proof.Proofs

open Sys2Proof.Machine

/-- Settles O19: the fields of the word, the fault of an invalid source, and CMP of two valid ones with the flag of each of the
three orders; `State.raise` and `State.retire` after `State.writeCmpf` are the states it writes out. -/
theorem cmpRule : Obligations.CmpRule := by
  intro s ra rb
  refine ⟨fun w hw => decode_cmp_of_toNat s.L w ra rb hw, exec_cmp_of_none s ra rb, fun a b ha hb => ?_⟩
  have hexec := exec_cmp_of_some s ra rb a b ha hb
  refine ⟨fun hlt => ?_, fun heq => ?_, fun hgt => ?_⟩
  · rw [hexec, compareFlag_of_lt a b hlt]; rfl
  · rw [hexec, compareFlag_of_eq a b heq]; rfl
  · rw [hexec, compareFlag_of_gt a b hgt]; rfl

end Sys2Proof.Proofs
end

section
/-! PROOFS. The modular exponentiation engine (45_modexp.md): the word of MODEXP, square-and-multiply as a power, and MODEXP's
outcomes, then the statement. -/

namespace Sys2Proof

theorem decode_modexp_of_toNat (L : Nat) (w : Word) (rd ra rb rc : Reg)
    (h : w.toNat = 0x20 * 2 ^ 24 + rd.val * 2 ^ 20 + ra.val * 2 ^ 16 + rb.val * 2 ^ 12 + rc.val * 2 ^ 8) :
    decode L w = .ok (.modexp rd ra rb rc) := by
  obtain ⟨hop, hlow, hrd, hra, hrb, hrc⟩ := fields_of_toNat_R4 w _ rd ra rb rc h
  rw [decode_of_opcode_modexp L w hop]
  exact (formatR4_eq_ok .modexp w _).mpr ⟨hlow, rd, hrd, ra, hra, rb, hrb, rc, hrc, rfl⟩

end Sys2Proof

namespace Sys2Proof.Machine

/-! ## Square-and-multiply (45_modexp.md R151) -/

/-- One round keeps `result * base ^ e` modulo `m`: the lowest bit of the exponent goes into the result, the other bits into
the squared base. -/
theorem modPowRound_modEq (m result base e : Nat) :
    (if e % 2 = 1 then result * base % m else result) * (base * base % m) ^ (e / 2) ≡ result * base ^ e [MOD m] := by
  have hsquare : (base * base % m) ^ (e / 2) ≡ base ^ (2 * (e / 2)) [MOD m] := by
    rw [Nat.pow_mul, Nat.pow_two]
    exact (Nat.mod_modEq (base * base) m).pow (e / 2)
  rcases Nat.mod_two_eq_zero_or_one e with heven | hodd
  · have he : 2 * (e / 2) = e := by omega
    rw [he] at hsquare
    rw [if_neg (by omega)]
    exact hsquare.mul_left result
  · have hpow : result * base ^ e = result * base * base ^ (2 * (e / 2)) := by
      rw [Nat.mul_assoc, ← Nat.pow_add_one', Nat.two_mul_div_two_add_one_of_odd (Nat.odd_iff.mpr hodd)]
    rw [if_pos hodd, hpow]
    exact (Nat.mod_modEq (result * base) m).mul hsquare

/-- `fuel` rounds are enough for an exponent of `fuel` bits. -/
theorem modPowLoop_eq (m fuel result base e : Nat) (hres : result < m) (he : e < 2 ^ fuel) :
    modPowLoop m fuel result base e = result * base ^ e % m := by
  have hm : 0 < m := Nat.zero_lt_of_lt hres
  induction fuel generalizing result base e with
  | zero =>
    have he0 : e = 0 := Nat.lt_one_iff.mp he
    rw [modPowLoop, he0, Nat.pow_zero, Nat.mul_one, Nat.mod_eq_of_lt hres]
  | succ fuel ih =>
    rw [modPowLoop]
    split
    next he0 => rw [he0, Nat.pow_zero, Nat.mul_one, Nat.mod_eq_of_lt hres]
    next =>
      have hnext : (if e % 2 = 1 then result * base % m else result) < m := by
        split
        · exact Nat.mod_lt _ hm
        · exact hres
      have hhalf : e / 2 < 2 ^ fuel := by
        rw [Nat.pow_succ] at he
        omega
      rw [ih _ _ _ hnext hhalf]
      exact modPowRound_modEq m result base e

theorem modPow_eq (a x m : Nat) (hm : 0 < m) : modPow a x m = a ^ x % m := by
  rw [modPow, modPowLoop_eq m _ _ a x (Nat.mod_lt 1 hm) Nat.lt_log2_self, Nat.mod_mul_mod, Nat.one_mul]

variable (s : State)

/-! ## Three sources (60_exceptions.md R206) -/

/-- Whichever of three sources is invalid, the command raises `UnwrittenOperand`. -/
theorem State.threeSources_of_none {α : Type} (ra rb rc : Reg) (k : Nat → Nat → Nat → Except FaultCode α)
    (h : s.readReg ra = none ∨ s.readReg rb = none ∨ s.readReg rc = none) :
    (do let a ← s.source ra; let b ← s.source rb; let c ← s.source rc; k a b c) = .error .unwrittenOperand := by
  rcases s.source_cases ra with ⟨a, ha, ea⟩ | ⟨-, ea⟩
  · rw [ea, phase_ok, s.sources_of_none rb rc _ (h.resolve_left (by simp [ha]))]
  · rw [ea, phase_error]

theorem State.threeSources_of_some {α : Type} (ra rb rc : Reg) (a b c : Nat) (k : Nat → Nat → Nat → Except FaultCode α)
    (ha : s.readReg ra = some a) (hb : s.readReg rb = some b) (hc : s.readReg rc = some c) :
    (do let a ← s.source ra; let b ← s.source rb; let c ← s.source rc; k a b c) = k a b c := by
  rw [s.source_of_some ra a ha, phase_ok, s.sources_of_some rb rc b c _ hb hc]

/-! ## MODEXP (45_modexp.md R150) -/

variable (rd ra rb rc : Reg)

theorem exec_modexp_of_none (h : s.readReg ra = none ∨ s.readReg rb = none ∨ s.readReg rc = none) :
    exec (.modexp rd ra rb rc) s = .next (s.raise .unwrittenOperand) := by
  rw [exec, execModexp, s.threeSources_of_none ra rb rc _ h, State.conclude_error]

theorem exec_modexp_of_zero (a x m : Nat) (ha : s.readReg ra = some a) (hx : s.readReg rb = some x)
    (hm : s.readReg rc = some m) (h : m = 0) :
    exec (.modexp rd ra rb rc) s = .next (s.raise .divisionByZero) := by
  rw [exec, execModexp, s.threeSources_of_some ra rb rc a x m _ ha hx hm, failIf_decide_of _ _ h, phase_error,
    State.conclude_error]

theorem exec_modexp_of_ne_zero (a x m : Nat) (ha : s.readReg ra = some a) (hx : s.readReg rb = some x)
    (hm : s.readReg rc = some m) (h : m ≠ 0) :
    exec (.modexp rd ra rb rc) s = .next (s.writeReg rd (a ^ x % m)).retire := by
  rw [exec, execModexp, s.threeSources_of_some ra rb rc a x m _ ha hx hm, failIf_decide_of_not _ _ h, phase_ok,
    phase_pure, State.conclude_ok, modPow_eq a x m (Nat.pos_of_ne_zero h)]

end Sys2Proof.Machine

namespace Sys2Proof.Proofs

open Sys2Proof.Machine

/-- Settles O20: the fields of the word, and MODEXP's three outcomes, split at `m = 0`; what the loop computes is the power, by
`modPow_eq`. `State.raise` and `State.retire` after `State.writeReg` are the states it writes out. -/
theorem modexpRule : Obligations.ModexpRule := by
  intro s rd ra rb rc
  refine ⟨fun w hw => decode_modexp_of_toNat s.L w rd ra rb rc hw, exec_modexp_of_none s rd ra rb rc,
    fun a x m ha hx hm => ⟨?_, ?_⟩⟩
  · exact exec_modexp_of_zero s rd ra rb rc a x m ha hx hm
  · exact exec_modexp_of_ne_zero s rd ra rb rc a x m ha hx hm

end Sys2Proof.Proofs
end

section
/-! PROOFS. The data movement and system commands (46_data_movement.md): the words of NOP, LDI, LD, ST and MOV, then what each
command does, then the statements. -/

namespace Sys2Proof

/-! ## The words of formats Z, I, L, S and R2 (30_encoding.md R81) -/

/-- The four fields of a word of two register fields above a halfword: formats I, S and R2, with a zero in the place of what
the format does not have. -/
theorem fields_of_toNat_R2 (w : Word) (op : Nat) (f1 f2 : Reg) (low : Nat) (hlow : low < 2 ^ 16)
    (h : w.toNat = op * 2 ^ 24 + f1.val * 2 ^ 20 + f2.val * 2 ^ 16 + low) :
    field w 31 24 = op ∧ field w 23 20 = f1.val ∧ field w 19 16 = f2.val ∧ field w 15 0 = low := by
  have hw : w.toNat < 2 ^ 32 := w.isLt
  rw [field_eq _ 31 24 8 rfl, field_eq _ 23 20 4 rfl, field_eq _ 19 16 4 rfl, field_eq _ 15 0 16 rfl]
  omega

/-- Opcode 0 and a format that assigns no bit: NOP has one word. -/
theorem eq_zero_of_fields (w : Word) (hop : field w 31 24 = 0) (hrest : field w 23 0 = 0) : w = 0 := by
  have hw : w.toNat < 2 ^ 32 := w.isLt
  rw [field_eq _ 31 24 8 rfl] at hop
  rw [field_eq _ 23 0 24 rfl] at hrest
  exact BitVec.eq_of_toNat_eq (show w.toNat = 0 by omega)

theorem decode_nop (L : Nat) : decode L 0x00000000 = .ok .nop := by
  rw [decode_of_opcode_nop L _ (by decide)]
  exact (formatZ_eq_ok .nop _ _).mpr ⟨by decide, rfl⟩

theorem illegal_of_opcode_nop (L : Nat) (w : Word) (hop : field w 31 24 = 0x00) (hne : w ≠ 0) :
    ∃ e, decode L w = .error e := by
  cases hd : decode L w with
  | error e => exact ⟨e, rfl⟩
  | ok i =>
    rw [decode_of_opcode_nop L w hop, formatZ_eq_ok] at hd
    obtain ⟨hrest, -⟩ := hd
    exact absurd (eq_zero_of_fields w hop hrest) hne

theorem decode_ldi_of_toNat (L : Nat) (w : Word) (rd : Reg) (imm16 : BitVec 16)
    (h : w.toNat = 0x01 * 2 ^ 24 + rd.val * 2 ^ 20 + imm16.toNat) : decode L w = .ok (.ldi rd imm16) := by
  obtain ⟨hop, hrd, hzero, himm⟩ := fields_of_toNat_R2 w 0x01 rd 0 imm16.toNat imm16.isLt (by simp [h])
  rw [decode_of_opcode_ldi L w hop]
  exact (formatI_eq_ok .ldi w _).mpr ⟨hzero, rd, hrd, by rw [himm, BitVec.ofNat_toNat, BitVec.setWidth_eq]⟩

/-- The fields of a word of format L: the count stands in the low 12 bits of the halfword, and the zero bits reach down to
it. -/
theorem fields_of_toNat_L (w : Word) (op : Nat) (rd : Reg) (n : BitVec 12)
    (h : w.toNat = op * 2 ^ 24 + rd.val * 2 ^ 20 + n.toNat) :
    field w 31 24 = op ∧ field w 23 20 = rd.val ∧ field w 19 12 = 0 ∧ field w 11 0 = n.toNat := by
  have hw : w.toNat < 2 ^ 32 := w.isLt
  have hn : n.toNat < 2 ^ 12 := n.isLt
  rw [field_eq _ 31 24 8 rfl, field_eq _ 23 20 4 rfl, field_eq _ 19 12 8 rfl, field_eq _ 11 0 12 rfl]
  omega

theorem decode_ld_of_toNat (L : Nat) (w : Word) (rd : Reg) (n : BitVec 12)
    (h : w.toNat = 0x02 * 2 ^ 24 + rd.val * 2 ^ 20 + n.toNat) (hlegal : 1 ≤ n.toNat ∧ n.toNat ≤ L) :
    decode L w = .ok (.ld rd n) := by
  obtain ⟨hop, hrd, hzero, hn⟩ := fields_of_toNat_L w _ rd n h
  rw [decode_of_opcode_ld L w hop]
  exact (formatL_eq_ok L .ld w _).mpr ⟨hzero, rd, hrd, n, ⟨hlegal, hn⟩, rfl⟩

theorem illegal_ld_of_toNat (L : Nat) (w : Word) (rd : Reg) (n : BitVec 12)
    (h : w.toNat = 0x02 * 2 ^ 24 + rd.val * 2 ^ 20 + n.toNat) (hillegal : n.toNat = 0 ∨ L < n.toNat) :
    ∃ e, decode L w = .error e := by
  obtain ⟨hop, -, -, hn⟩ := fields_of_toNat_L w _ rd n h
  refine illegal_of_constraint L w 0x02 .limbCount (by decide) hop fun hc => ?_
  rw [RowConstraint.holds, decide_eq_true_iff, hn] at hc
  omega

theorem decode_st_of_toNat (L : Nat) (w : Word) (ra : Reg) (h : w.toNat = 0x03 * 2 ^ 24 + ra.val * 2 ^ 16) :
    decode L w = .ok (.st ra) := by
  obtain ⟨hop, hdest, hra, hlow⟩ := fields_of_toNat_R2 w 0x03 0 ra 0 (by decide) h
  rw [decode_of_opcode_st L w hop]
  exact (formatS_eq_ok .st w _).mpr ⟨hdest, hlow, ra, hra, rfl⟩

theorem decode_mov_of_toNat (L : Nat) (w : Word) (rd ra : Reg)
    (h : w.toNat = 0x04 * 2 ^ 24 + rd.val * 2 ^ 20 + ra.val * 2 ^ 16) : decode L w = .ok (.mov rd ra) := by
  obtain ⟨hop, hrd, hra, hlow⟩ := fields_of_toNat_R2 w 0x04 rd ra 0 (by decide) h
  rw [decode_of_opcode_mov L w hop]
  exact (formatR2_eq_ok .mov w _).mpr ⟨hlow, rd, hrd, ra, hra, rfl⟩

end Sys2Proof

namespace Sys2Proof.Machine

/-! ## Lengths (00_scope.md R9) -/

/-- `nlimbs v` is the only length whose leading limb `v` reaches and in which `v` fits. -/
theorem nlimbs_eq_of_bounds (v k : Nat) (hk : 1 ≤ k) (hle : BETA ^ (k - 1) ≤ v) (hlt : v < BETA ^ k) :
    nlimbs v = k := by
  have hupper : nlimbs v ≤ k := (nlimbs_le_iff v k hk).mpr hlt
  have hlower : k - 1 < nlimbs v :=
    (Nat.pow_lt_pow_iff_right one_lt_BETA).mp (Nat.lt_of_le_of_lt hle (lt_pow_nlimbs v))
  omega

theorem nlimbs_immediate (imm16 : BitVec 16) : nlimbs (immediate imm16) = 1 := by
  have hfits : immediate imm16 < BETA ^ 1 := Nat.lt_of_lt_of_le imm16.isLt (by decide)
  exact Nat.le_antisymm ((nlimbs_le_iff _ 1 (Nat.le_refl 1)).mpr hfits) (nlimbs_pos _)

variable (s : State)

/-! ## NOP and LDI (46_data_movement.md R160, R161): no check, so one outcome -/

theorem exec_nop : exec .nop s = .next s.retire := rfl

theorem exec_ldi (rd : Reg) (imm16 : BitVec 16) :
    exec (.ldi rd imm16) s = .next (s.writeReg rd (immediate imm16)).retire := rfl

/-! ## LD (46_data_movement.md R162) -/

/-- `val(OPBUF, n)` as the sum of R162. -/
theorem State.opbufValue_eq_sum (n : Nat) :
    s.opbufValue n = ∑ i ∈ Finset.range n, (s.opbufWord i).toNat * BETA ^ i := val_map_range s.opbufWord n

theorem State.opbufValue_lt_pow (n : Nat) : s.opbufValue n < BETA ^ n := by
  have h := val_lt ((List.range n).map s.opbufWord)
  rwa [List.length_map, List.length_range] at h

theorem exec_ld_of_legal (rd : Reg) (n : BitVec 12) (h : 1 ≤ n.toNat ∧ n.toNat ≤ s.L) :
    exec (.ld rd n) s = .next (s.writeReg rd (s.opbufValue n.toNat)).retire := by
  rw [exec, execLd, s.limbCount_of_legal n h, phase_ok, phase_pure, State.conclude_ok]

/-! ## ST (46_data_movement.md R163) -/

theorem exec_st_of_none (ra : Reg) (h : s.readReg ra = none) :
    exec (.st ra) s = .next (s.raise .unwrittenOperand) := by
  rw [exec, execSt, s.source_of_none ra h, phase_error, State.conclude_error]

/-- ST leaves alone every byte outside the window of OPBUF. -/
theorem State.opbufByte_writeOpbufValue_of_outside (v a : Nat) (h : a < 0x1000 ∨ 0x1000 + 4 * s.L ≤ a) :
    (s.writeOpbufValue v).opbufByte a = s.opbufByte a := by
  rw [State.opbufByte_writeOpbufValue, if_neg (by simp only [opbufOffset]; omega)]

/-! ## MOV (46_data_movement.md R164) -/

theorem exec_mov_of_none (rd ra : Reg) (h : s.readReg ra = none) :
    exec (.mov rd ra) s = .next (s.raise .unwrittenOperand) := by
  rw [exec, execMov, s.source_of_none ra h, phase_error, State.conclude_error]

theorem exec_mov_of_some (rd ra : Reg) (v : Nat) (h : s.readReg ra = some v) :
    exec (.mov rd ra) s = .next (s.writeReg rd v).retire := by
  rw [exec, execMov, s.source_of_some ra v h, phase_ok, phase_pure, State.conclude_ok]

end Sys2Proof.Machine

namespace Sys2Proof.Proofs

open Sys2Proof.Machine

/-- Settles O12: the fields of the word with the count in and out of `1..L`, the value as the sum of its words, and LD of a
legal count; `State.retire` after `State.writeReg` is the state it writes out. -/
theorem ldRule : Obligations.LdRule := by
  intro s rd n
  refine ⟨fun w hw => ⟨fun hpos hle => ?_, ?_⟩, fun hpos hle => ?_⟩
  · exact decode_ld_of_toNat s.L w rd n hw ⟨hpos, hle⟩
  · exact illegal_ld_of_toNat s.L w rd n hw
  · rw [← s.opbufValue_eq_sum]
    exact ⟨s.opbufValue_lt_pow n.toNat, exec_ld_of_legal s rd n ⟨hpos, hle⟩⟩

/-- Settles O13: the fields of the word, the fault of an invalid source, and ST of a valid one: the words and bytes of OPBUF by
what `State.writeOpbufValue` does to them, which RLEN and PEND do not enter, and RLEN by the bounds that fix `nlimbs v`. -/
theorem stRule : Obligations.StRule := by
  intro s ra
  refine ⟨fun w hw => decode_st_of_toNat s.L w ra hw, exec_st_of_none s ra, fun v hv =>
    ⟨_, exec_st_of_valid s ra v hv, ?words, ?bytes, ?zero, ?length, rfl⟩⟩
  case words => exact fun i hi => s.opbufWord_writeOpbufValue v i hi
  case bytes => exact fun a ha => s.opbufByte_writeOpbufValue_of_outside v a ha
  case zero =>
    rintro rfl
    exact congrArg (BitVec.ofNat 11) nlimbs_zero
  case length => exact fun k hk hle hlt => congrArg (BitVec.ofNat 11) (nlimbs_eq_of_bounds v k hk hle hlt)

/-- Settles O10: the word zero is NOP's and no other word of its opcode decodes; NOP only retires. -/
theorem nopRule : Obligations.NopRule := by
  intro s
  exact ⟨decode_nop s.L, exec_nop s, illegal_of_opcode_nop s.L⟩

/-- Settles O11: the fields of the word, the size and length of an immediate, and LDI, which asks for no source, so that
`State.retire` after `State.writeReg` is its state whatever the registers hold. -/
theorem ldiRule : Obligations.LdiRule := by
  intro s rd imm16
  exact ⟨fun w hw => decode_ldi_of_toNat s.L w rd imm16 hw, immediate_lt s imm16, nlimbs_immediate imm16,
    exec_ldi s rd imm16⟩

/-- Settles O14: the fields of the word, and MOV of an invalid and of a valid source; `rd = ra` is no case of its own.
`State.raise` and `State.retire` after `State.writeReg` are the states it writes out. -/
theorem movRule : Obligations.MovRule := by
  intro s rd ra
  exact ⟨fun w hw => decode_mov_of_toNat s.L w rd ra hw, exec_mov_of_none s rd ra, exec_mov_of_some s rd ra⟩

end Sys2Proof.Proofs
end

section
/-! PROOFS. The exceptions (60_exceptions.md). First what well-formedness a decoded word brings, then which fault a command raises
and why, then what a step does to PEND and ERR, then what the host can do to a faulted core, then the statements. -/

namespace Sys2Proof

/-- A decoded command meets its row's extra constraint (30_encoding.md R84, R86). -/
theorem wellFormed_of_decode (L : Nat) (w : Word) (i : Instr) (h : decode L w = .ok i) : i.wellFormed L = true := by
  have hop := opcode_of_decode L w i h
  cases i with
  | ld rd n =>
    rw [decode_of_opcode_ld L w hop] at h
    obtain ⟨-, rd', -, n', ⟨hn, -⟩, hi⟩ := (formatL_eq_ok L _ w _).mp h
    cases hi
    exact decide_eq_true hn
  | divmod rq rr ra rb =>
    rw [decode_of_opcode_divmod L w hop] at h
    obtain ⟨-, f1, -, f2, -, f3, -, f4, -, hne, hi⟩ := (formatR4Distinct_eq_ok _ w _).mp h
    cases hi
    exact decide_eq_true hne
  | nop | ldi | st | mov | add | sub | mul | cmp | modexp => rfl

end Sys2Proof

namespace Sys2Proof.Machine

variable (s : State)

/-! ## The fault of an invalid source (60_exceptions.md R206) -/

theorem exec_of_invalid_source (i : Instr) (hw : i.wellFormed s.L = true) (h : ∃ r ∈ i.sources, s.readReg r = none) :
    exec i s = .next (s.raise .unwrittenOperand) := by
  cases i with
  | nop | ldi | ld =>
    obtain ⟨r, hr, -⟩ := h
    cases hr
  | st ra => exact exec_st_of_none s ra (by simpa [Instr.sources] using h)
  | mov rd ra => exact exec_mov_of_none s rd ra (by simpa [Instr.sources] using h)
  | add rd ra rb => exact exec_add_of_none s rd ra rb (by simpa [Instr.sources] using h)
  | sub rd ra rb => exact exec_sub_of_none s rd ra rb (by simpa [Instr.sources] using h)
  | mul rd ra rb => exact exec_mul_of_none s rd ra rb (by simpa [Instr.sources] using h)
  | divmod rq rr ra rb =>
    exact exec_divmod_of_none s rq rr ra rb (of_decide_eq_true hw) (by simpa [Instr.sources] using h)
  | cmp ra rb => exact exec_cmp_of_none s ra rb (by simpa [Instr.sources] using h)
  | modexp rd ra rb rc => exact exec_modexp_of_none s rd ra rb rc (by simpa [Instr.sources] using h)

/-! ## Why a command raises a fault (60_exceptions.md R205 to R209) -/

/-- The condition in the state that a command's fault reports, code by code. -/
inductive FaultCause (s : State) : Instr → FaultCode → Prop where
  | illFormed (i : Instr) (refused : i.wellFormed s.L = false) : FaultCause s i .illegalCommand
  | invalidSource (i : Instr) (r : Reg) (source : r ∈ i.sources) (invalid : s.readReg r = none) :
      FaultCause s i .unwrittenOperand
  | zeroDivisor (rq rr ra rb : Reg) (sourceB : s.readReg rb = some 0) :
      FaultCause s (.divmod rq rr ra rb) .divisionByZero
  | zeroModulus (rd ra rb rc : Reg) (sourceC : s.readReg rc = some 0) :
      FaultCause s (.modexp rd ra rb rc) .divisionByZero
  | smallerMinuend (rd ra rb : Reg) (a b : Nat) (sourceA : s.readReg ra = some a) (sourceB : s.readReg rb = some b)
      (less : a < b) : FaultCause s (.sub rd ra rb) .arithmeticUnderflow
  | largeSum (rd ra rb : Reg) (a b : Nat) (sourceA : s.readReg ra = some a) (sourceB : s.readReg rb = some b)
      (large : BETA ^ s.L ≤ a + b) : FaultCause s (.add rd ra rb) .capacityOverflow
  | largeProduct (rd ra rb : Reg) (a b : Nat) (sourceA : s.readReg ra = some a) (sourceB : s.readReg rb = some b)
      (large : BETA ^ s.L ≤ a * b) : FaultCause s (.mul rd ra rb) .capacityOverflow

/-- What the phases of a command come to: a state with ERR as it was, or a fault that has its cause. -/
def RaisesWithCause (s : State) (i : Instr) : Except FaultCode State → Prop
  | .ok u => u.err = s.err
  | .error f => FaultCause s i f

theorem RaisesWithCause.source (i : Instr) (r : Reg) (k : Nat → Except FaultCode State) (hr : r ∈ i.sources)
    (h : ∀ v, s.readReg r = some v → RaisesWithCause s i (k v)) : RaisesWithCause s i (s.source r >>= k) := by
  rcases s.source_cases r with ⟨v, hv, e⟩ | ⟨hv, e⟩
  · rw [e, phase_ok]
    exact h v hv
  · rw [e, phase_error]
    exact .invalidSource i r hr hv

theorem RaisesWithCause.sources (i : Instr) (ra rb : Reg) (k : Nat → Nat → Except FaultCode State)
    (rest : List Reg) (hs : i.sources = ra :: rb :: rest)
    (h : ∀ a b, s.readReg ra = some a → s.readReg rb = some b → RaisesWithCause s i (k a b)) :
    RaisesWithCause s i (do let a ← s.source ra; let b ← s.source rb; k a b) :=
  .source s i ra _ (by simp [hs]) fun a ha => .source s i rb _ (by simp [hs]) fun b hb => h a b ha hb

theorem RaisesWithCause.failIf (i : Instr) (p : Prop) [Decidable p] (f : FaultCode) (k : Unit → Except FaultCode State)
    (hf : p → FaultCause s i f) (h : RaisesWithCause s i (k ())) :
    RaisesWithCause s i (failIf (decide p) f >>= k) := by
  by_cases hp : p
  · rw [failIf_decide_of p f hp, phase_error]
    exact hf hp
  · rw [failIf_decide_of_not p f hp, phase_ok]
    exact h

theorem exec_raisesWithCause (i : Instr) : ∃ r, exec i s = s.conclude r ∧ RaisesWithCause s i r := by
  cases i with
  | nop => exact ⟨.ok s, rfl, rfl⟩
  | ldi rd imm16 => exact ⟨.ok (s.writeReg rd (immediate imm16)), rfl, rfl⟩
  | ld rd n =>
    refine ⟨_, rfl, ?_⟩
    by_cases hn : 1 ≤ n.toNat ∧ n.toNat ≤ s.L
    · rw [s.limbCount_of_legal n hn, phase_ok]
      rfl
    · rw [s.limbCount_of_illegal n hn, phase_error]
      exact .illFormed _ (decide_eq_false hn)
  | st ra => exact ⟨_, rfl, .source s _ ra _ (by simp [Instr.sources]) fun _ _ => rfl⟩
  | mov rd ra => exact ⟨_, rfl, .source s _ ra _ (by simp [Instr.sources]) fun _ _ => rfl⟩
  | add rd ra rb =>
    refine ⟨_, rfl, .sources s _ ra rb _ _ rfl fun a b ha hb => ?_⟩
    exact .failIf s _ _ _ _ (.largeSum rd ra rb a b ha hb) rfl
  | sub rd ra rb =>
    refine ⟨_, rfl, .sources s _ ra rb _ _ rfl fun a b ha hb => ?_⟩
    exact .failIf s _ _ _ _ (.smallerMinuend rd ra rb a b ha hb) rfl
  | mul rd ra rb =>
    refine ⟨_, rfl, .sources s _ ra rb _ _ rfl fun a b ha hb => ?_⟩
    exact .failIf s _ _ _ _ (.largeProduct rd ra rb a b ha hb) rfl
  | divmod rq rr ra rb =>
    refine ⟨_, rfl, ?_⟩
    by_cases hne : rq ≠ rr
    · rw [distinct_of_ne rq rr hne, phase_ok]
      refine .sources s _ ra rb _ _ rfl fun a b ha hb => ?_
      exact .failIf s _ _ _ _ (fun h0 => .zeroDivisor rq rr ra rb (h0 ▸ hb)) rfl
    · obtain rfl := not_ne_iff.mp hne
      rw [distinct_self, phase_error]
      exact .illFormed _ (decide_eq_false hne)
  | cmp ra rb =>
    exact ⟨_, rfl, .sources s _ ra rb _ _ rfl fun _ _ _ _ => rfl⟩
  | modexp rd ra rb rc =>
    refine ⟨_, rfl, .sources s _ ra rb _ _ rfl fun a x ha hx => ?_⟩
    refine .source s _ rc _ (by simp [Instr.sources]) fun m hm => ?_
    exact .failIf s _ _ _ _ (fun h0 => .zeroModulus rd ra rb rc (h0 ▸ hm)) rfl

/-- A command leaves ERR alone, or enters a fault that has its cause (60_exceptions.md R203). -/
theorem exec_err (i : Instr) (t : State) (h : exec i s = .next t) :
    t.err = s.err ∨ ∃ f, FaultCause s i f ∧ t = s.raise f := by
  obtain ⟨r, hr, hc⟩ := exec_raisesWithCause s i
  rw [hr, s.conclude_eq_next] at h
  rcases h with ⟨u, rfl, rfl⟩ | ⟨f, rfl, rfl⟩
  · exact .inl hc
  · exact .inr ⟨f, hc, rfl⟩

/-- A fault that a command records where none was recorded has its cause. -/
theorem cause_of_exec (i : Instr) (t : State) (f : FaultCode) (h0 : s.err = none) (h : exec i s = .next t)
    (hf : t.err = some f) : FaultCause s i f := by
  rcases exec_err s i t h with he | ⟨g, hg, rfl⟩
  · rw [he, h0] at hf
    cases hf
  · cases hf
    exact hg

/-! ## PEND and ERR after a step -/

/-- The core's step leaves ERR alone, or enters a fault and does nothing else (60_exceptions.md R203). -/
theorem coreStep_err (t : State) (h : s.coreStep = .next t) : t.err = s.err ∨ ∃ f, t = s.raise f := by
  rcases s.coreStep_cases with ⟨i, -, e⟩ | ⟨-, -, e⟩
  · rcases exec_err s i t (e ▸ h) with he | ⟨f, -, ht⟩
    · exact .inl he
    · exact .inr ⟨f, ht⟩
  · rw [e] at h
    cases h
    exact .inr ⟨_, rfl⟩

/-- A step after which a command is pending left ERR alone, and either one was pending before it or ERR was 0: the move was the
host's, and no reset. -/
theorem step_leaves_pend (t : State) (h : step s = .next t) (ht : t.pend = true) :
    t.err = s.err ∧ (s.pend = true ∨ s.err = none) := by
  rcases step_cases s t h with ⟨a, rest, -, rfl⟩ | ⟨ms, -, ⟨hp, rfl⟩ | ⟨i, -, -, he⟩ | ⟨-, -, -, rfl⟩⟩
  · rcases (s.withMoves rest).hostStep_effect a with ⟨hr, -⟩ | ⟨-, ⟨x, e⟩ | ⟨w, -, -, he, e⟩ | ⟨i, w, -, e⟩⟩
    · rw [hostStep_reset_pend _ a hr] at ht
      cases ht
    · rw [e] at ht ⊢
      exact ⟨rfl, .inl ht⟩
    · rw [e]
      exact ⟨rfl, .inr he⟩
    · rw [e] at ht ⊢
      exact ⟨rfl, .inl ht⟩
  · exact ⟨rfl, .inl ht⟩
  · rw [exec_pend _ i t he] at ht
    cases ht
  · cases ht

/-! ## What the bus refuses, and what the host can do to a faulted core (60_exceptions.md R213, R214) -/

/-- Only a 32-bit write can do more than answer, resets aside (20_memory.md R55, R56). -/
theorem hostStep_of_not_word_write (a : HostAction) (hn : a.resets = false)
    (hw : ∀ off w, a ≠ .write .word off w) : ∃ x, s.hostStep a = s.answering x := by
  cases a with
  | reset => cases hn
  | read width off => exact ⟨_, rfl⟩
  | write width off w =>
    have hwidth : width ≠ .word := fun e => hw off w (e ▸ rfl)
    exact ⟨_, s.hostStep_write_of_none width off w (s.busWrite_eq_none width off w (.inl hwidth))⟩

/-- With a fault recorded, a host action that is no reset changes the answer alone, or writes a word of OPBUF. -/
theorem hostStep_of_faulted (a : HostAction) (f : FaultCode) (hf : s.err = some f) (hn : a.resets = false) :
    (∃ x, s.hostStep a = s.answering x) ∨ ∃ i w, s.hostStep a = (s.writeOpbufWord i w).answering (some .ok) := by
  rcases s.hostStep_effect a with ⟨hr, -⟩ | ⟨-, h | ⟨w, -, -, he, -⟩ | ⟨i, w, -, e⟩⟩
  · rw [hn] at hr
    cases hr
  · exact .inl h
  · rw [hf] at he
    cases he
  · exact .inr ⟨i, w, e⟩

/-- A transaction that answers `buserror` leaves only its answer. -/
theorem hostStep_of_busError (a : HostAction) (h : (s.hostStep a).answer = some .busError) :
    s.hostStep a = s.answering (some .busError) := by
  cases a with
  | reset => cases h
  | read width off =>
    have hb : some (s.busRead width off) = some .busError := h
    rw [s.hostStep_read, hb]
  | write width off w =>
    cases hw : s.busWrite width off w with
    | none => exact s.hostStep_write_of_none width off w hw
    | some t =>
      rw [s.hostStep_write_of_some width off w t hw] at h
      cases h

/-- A reset clears ERR and every register, whatever the core was doing (70_reset_and_hazards.md R230, R231). -/
theorem hostStep_of_reset (a : HostAction) (hr : a.resets = true) :
    (s.hostStep a).err = none ∧ ∀ r, (s.hostStep a).readReg r = none := by
  rcases s.hostStep_effect a with ⟨-, x, e | e⟩ | ⟨hn, -⟩
  · rw [e]
    exact ⟨rfl, s.readReg_hardReset⟩
  · rw [e]
    exact ⟨rfl, s.readReg_softReset⟩
  · rw [hr] at hn
    cases hn

/-- The steps of a faulted core other than a reset: nothing but the answer and the schedule changes, or the host writes a word of
OPBUF; the core's own turn is idle (60_exceptions.md R213, R216). -/
theorem step_of_faulted (t : State) (f : FaultCode) (hf : s.err = some f) (hp : s.pend = false) (h : step s = .next t)
    (hn : ∀ a rest, s.moves = .host a :: rest → a.resets = false) :
    (∃ x ms, t = (s.withMoves ms).answering x) ∨
      ∃ off v rest i w, s.moves = .host (.write .word off v) :: rest ∧
        t = ((s.withMoves rest).writeOpbufWord i w).answering (some .ok) := by
  rcases step_cases s t h with ⟨a, rest, hm, rfl⟩ | ⟨ms, -, ⟨-, rfl⟩ | ⟨-, hp', -⟩ | ⟨-, hp', -⟩⟩
  · by_cases hw : ∃ off v, a = .write .word off v
    · obtain ⟨off, v, rfl⟩ := hw
      rcases hostStep_of_faulted (s.withMoves rest) _ f hf (hn _ rest hm) with ⟨x, e⟩ | ⟨i, w, e⟩
      · exact .inl ⟨x, rest, e⟩
      · exact .inr ⟨off, v, rest, i, w, hm, e⟩
    · obtain ⟨x, e⟩ := hostStep_of_not_word_write (s.withMoves rest) a (hn a rest hm)
        fun off v ha => hw ⟨off, v, ha⟩
      exact .inl ⟨x, rest, e⟩
  · exact .inl ⟨s.answer, ms, rfl⟩
  · rw [hp] at hp'
    cases hp'
  · rw [hp] at hp'
    cases hp'

end Sys2Proof.Machine

/-! ## The statements -/

namespace Sys2Proof.Proofs

open Sys2Proof.Machine

/-- Settles O9: `coreStep_err` on the core's turn, `step_leaves_pend` for every step. -/
theorem faultEntryIsPrecise : Obligations.FaultEntryIsPrecise := by
  refine ⟨fun s t rest hp hm h => ?_, fun s t hi h ht => ?_, fun _ => rfl⟩
  · rw [step_of_core s rest hm] at h
    refine ⟨coreMove_pend _ t h, ?_⟩
    rw [(s.withMoves rest).coreMove_of_pend hp] at h
    exact coreStep_err (s.withMoves rest) t h
  · obtain ⟨he, hbefore⟩ := step_leaves_pend s t h ht
    rw [he]
    exact hbefore.elim hi id

/-- Settles O21: `exec_of_invalid_source`, and the one cause of the code. -/
theorem unwrittenOperandFault : Obligations.UnwrittenOperandFault := by
  refine ⟨fun i s hw h => exec_of_invalid_source s i hw h, fun i s t h0 h hf => ?_, fun _ _ _ => ⟨rfl, rfl, rfl⟩⟩
  cases cause_of_exec s i t _ h0 h hf with
  | invalidSource _ r hr hv => exact ⟨r, hr, hv⟩

/-- Settles O22: DIVMOD and MODEXP at zero, and the two causes of the code. -/
theorem divisionByZeroFault : Obligations.DivisionByZeroFault := by
  refine ⟨fun s rq rr ra rb a hne ha hb => exec_divmod_of_zero s rq rr ra rb hne a 0 ha hb rfl,
    fun s rd ra rb rc a x ha hx hm => exec_modexp_of_zero s rd ra rb rc a x 0 ha hx hm rfl, fun i s t h0 h hf => ?_⟩
  cases cause_of_exec s i t _ h0 h hf with
  | zeroDivisor rq rr ra rb hb => exact .inl ⟨rq, rr, ra, rb, rfl, hb⟩
  | zeroModulus rd ra rb rc hm => exact .inr ⟨rd, ra, rb, rc, rfl, hm⟩

/-- Settles O23: SUB with `a < b`, and the one cause of the code. -/
theorem arithmeticUnderflowFault : Obligations.ArithmeticUnderflowFault := by
  refine ⟨fun s rd ra rb a b ha hb hlt => exec_sub_of_lt s rd ra rb a b ha hb hlt, fun i s t h0 h hf => ?_⟩
  cases cause_of_exec s i t _ h0 h hf with
  | smallerMinuend rd ra rb a b ha hb hlt => exact ⟨rd, ra, rb, a, b, rfl, ha, hb, hlt⟩

/-- Settles O24: ADD and MUL at the capacity, and the two causes of the code. -/
theorem capacityOverflowFault : Obligations.CapacityOverflowFault := by
  refine ⟨fun s rd ra rb a b ha hb => ⟨exec_add_of_overflow s rd ra rb a b ha hb,
    exec_mul_of_overflow s rd ra rb a b ha hb⟩, fun i s t h0 h hf => ?_⟩
  cases cause_of_exec s i t _ h0 h hf with
  | largeSum rd ra rb a b ha hb hle => exact ⟨rd, ra, rb, a, b, ha, hb, .inl ⟨rfl, hle⟩⟩
  | largeProduct rd ra rb a b ha hb hle => exact ⟨rd, ra, rb, a, b, ha, hb, .inr ⟨rfl, hle⟩⟩

/-- Settles O25: a word that does not decode is illegal before any register is read, and a command that decodes is well-formed,
so an invalid source is its first fault. -/
theorem firstPhaseFaultWins : Obligations.FirstPhaseFaultWins := by
  intro s rest hp hm
  refine ⟨fun e hd => step_of_illegal s e rest hm hp hd, fun i r hd hr hv => ?_⟩
  rw [step_of_pending s i rest hm hp hd]
  exact exec_of_invalid_source (s.withMoves rest) i (wellFormed_of_decode s.L s.cmdr i hd) ⟨r, hr, hv⟩

/-- Settles O33: `step_of_faulted` for every step but a reset, and the host's transactions with an idle core one by one. -/
theorem faultIsStickyUntilReset : Obligations.FaultIsStickyUntilReset := by
  intro s t f hf hp h
  refine ⟨fun hn => ?frame, fun w rest hm => ?cmd, fun rest hm => ?rlen, fun rest hm => ?status,
    fun off i rest hoff hi hm => ?opbuf, fun a rest hm hr => ?reset⟩
  case frame =>
    rcases step_of_faulted s t f hf hp h hn with ⟨x, ms, rfl⟩ | ⟨off, v, rest, i, w, hm, rfl⟩
    · exact ⟨hf, hp, rfl, rfl, rfl, rfl, fun _ => ⟨rfl, rfl⟩⟩
    · exact ⟨hf, hp, rfl, rfl, rfl, rfl, fun hno => absurd hm (hno off v rest)⟩
  case cmd =>
    rw [step_of_cmd_write s w rest hm, if_neg (by simp [hf])] at h
    cases h
    rfl
  case rlen =>
    rw [step_of_read s _ _ rest hm, s.busRead_rlen, hp] at h
    cases h
    rfl
  case status =>
    rw [step_of_read s _ _ rest hm, s.busRead_status] at h
    cases h
    rfl
  case opbuf =>
    rw [step_of_read s _ off rest hm, s.busRead_opbuf off i hoff hi, hp] at h
    cases h
    rfl
  case reset =>
    rw [eq_hostStep_of_step s t a rest hm h]
    exact hostStep_of_reset _ a hr

/-- Settles O46: `hostStep_of_busError`, and a read is its answer alone. -/
theorem busErrorsAndReadsChangeNothing : Obligations.BusErrorsAndReadsChangeNothing := by
  intro s t a rest hm h
  obtain rfl := eq_hostStep_of_step s t a rest hm h
  refine ⟨hostStep_of_busError (s.withMoves rest) a, fun width off ha => ?_⟩
  rw [ha]
  rfl

end Sys2Proof.Proofs
end

section
/-! PROOFS. The encoding family (30_encoding.md), the two round trips. First the decoder as the procedure of R86, from which the
fields of a word give the word back, then the words that the encoder writes, then the statements. -/

namespace Sys2Proof

/-! ## The decoder, command by command (30_encoding.md R86) -/

/-- A command is decoded by the format of its opcode and by no other. -/
theorem decode_eq_ok_iff (L : Nat) (w : Word) (i : Instr) (op : Nat) (x : Except DecodeError Instr)
    (h : field w 31 24 = op → decode L w = x) (hi : Laws.OpcodeField.opcodeOf i = op) :
    decode L w = .ok i ↔ field w 31 24 = op ∧ x = .ok i := by
  constructor
  · intro hd
    have hop := hi ▸ opcode_of_decode L w i hd
    exact ⟨hop, h hop ▸ hd⟩
  · rintro ⟨hop, hx⟩
    rw [h hop, hx]

/-- The immediate of LDI is the 16-bit field that was read. -/
theorem ofNat_field_eq_iff (w : Word) (imm16 : BitVec 16) :
    BitVec.ofNat 16 (field w 15 0) = imm16 ↔ field w 15 0 = imm16.toNat := by
  have hlt : field w 15 0 < 2 ^ 16 := Nat.mod_lt _ (by decide)
  rw [← BitVec.toNat_inj, BitVec.toNat_ofNat, Nat.mod_eq_of_lt hlt]

variable (L : Nat) (w : Word)

theorem decode_nop_iff : decode L w = .ok .nop ↔ field w 31 24 = 0x00 ∧ field w 23 0 = 0 := by
  rw [decode_eq_ok_iff L w _ _ _ (decode_of_opcode_nop L w) rfl, formatZ_eq_ok]
  exact ⟨fun ⟨hop, hz, _⟩ => ⟨hop, hz⟩, fun ⟨hop, hz⟩ => ⟨hop, hz, rfl⟩⟩

theorem decode_ldi_iff (rd : Reg) (imm16 : BitVec 16) : decode L w = .ok (.ldi rd imm16) ↔
    field w 31 24 = 0x01 ∧ field w 23 20 = rd.val ∧ field w 19 16 = 0 ∧ field w 15 0 = imm16.toNat := by
  rw [decode_eq_ok_iff L w _ _ _ (decode_of_opcode_ldi L w) rfl, formatI_eq_ok, ← ofNat_field_eq_iff]
  exact ⟨fun ⟨hop, hz, _, hrd, e⟩ => by cases e; exact ⟨hop, hrd, hz, rfl⟩,
    fun ⟨hop, hrd, hz, himm⟩ => ⟨hop, hz, rd, hrd, by rw [himm]⟩⟩

theorem decode_ld_iff (rd : Reg) (n : BitVec 12) : decode L w = .ok (.ld rd n) ↔
    field w 31 24 = 0x02 ∧ field w 23 20 = rd.val ∧ field w 19 12 = 0 ∧ field w 11 0 = n.toNat ∧
      1 ≤ field w 11 0 ∧ field w 11 0 ≤ L := by
  rw [decode_eq_ok_iff L w _ _ _ (decode_of_opcode_ld L w) rfl, formatL_eq_ok]
  exact ⟨fun ⟨hop, hz, _, hrd, _, ⟨hlegal, hn⟩, e⟩ => by cases e; exact ⟨hop, hrd, hz, hn, hn ▸ hlegal⟩,
    fun ⟨hop, hrd, hz, hn, hlegal⟩ => ⟨hop, hz, rd, hrd, n, ⟨hn ▸ hlegal, hn⟩, rfl⟩⟩

theorem decode_st_iff (ra : Reg) : decode L w = .ok (.st ra) ↔
    field w 31 24 = 0x03 ∧ field w 23 20 = 0 ∧ field w 19 16 = ra.val ∧ field w 15 0 = 0 := by
  rw [decode_eq_ok_iff L w _ _ _ (decode_of_opcode_st L w) rfl, formatS_eq_ok]
  exact ⟨fun ⟨hop, hz, hlow, _, hra, e⟩ => by cases e; exact ⟨hop, hz, hra, hlow⟩,
    fun ⟨hop, hz, hra, hlow⟩ => ⟨hop, hz, hlow, ra, hra, rfl⟩⟩

theorem decode_mov_iff (rd ra : Reg) : decode L w = .ok (.mov rd ra) ↔
    field w 31 24 = 0x04 ∧ field w 23 20 = rd.val ∧ field w 19 16 = ra.val ∧ field w 15 0 = 0 := by
  rw [decode_eq_ok_iff L w _ _ _ (decode_of_opcode_mov L w) rfl, formatR2_eq_ok]
  exact ⟨fun ⟨hop, hz, _, hrd, _, hra, e⟩ => by cases e; exact ⟨hop, hrd, hra, hz⟩,
    fun ⟨hop, hrd, hra, hz⟩ => ⟨hop, hz, rd, hrd, ra, hra, rfl⟩⟩

/-- Format R3 reads back the registers of a command whose term names them one by one: ADD, SUB and MUL. -/
theorem formatR3_make_eq_ok (make : Reg → Reg → Reg → Instr)
    (hinj : ∀ f1 f2 f3 g1 g2 g3, make f1 f2 f3 = make g1 g2 g3 → f1 = g1 ∧ f2 = g2 ∧ f3 = g3) (rd ra rb : Reg) :
    formatR3 make w = .ok (make rd ra rb) ↔
      field w 23 20 = rd.val ∧ field w 19 16 = ra.val ∧ field w 15 12 = rb.val ∧ field w 11 0 = 0 := by
  rw [formatR3_eq_ok]
  constructor
  · rintro ⟨hz, f1, h1, f2, h2, f3, h3, e⟩
    obtain ⟨rfl, rfl, rfl⟩ := hinj _ _ _ _ _ _ e
    exact ⟨h1, h2, h3, hz⟩
  · rintro ⟨hrd, hra, hrb, hz⟩
    exact ⟨hz, rd, hrd, ra, hra, rb, hrb, rfl⟩

theorem decode_add_iff (rd ra rb : Reg) : decode L w = .ok (.add rd ra rb) ↔
    field w 31 24 = 0x10 ∧ field w 23 20 = rd.val ∧ field w 19 16 = ra.val ∧ field w 15 12 = rb.val ∧
      field w 11 0 = 0 := by
  rw [decode_eq_ok_iff L w _ _ _ (decode_of_opcode_add L w) rfl,
    formatR3_make_eq_ok w .add (fun _ _ _ _ _ _ e => Instr.add.inj e)]

theorem decode_sub_iff (rd ra rb : Reg) : decode L w = .ok (.sub rd ra rb) ↔
    field w 31 24 = 0x11 ∧ field w 23 20 = rd.val ∧ field w 19 16 = ra.val ∧ field w 15 12 = rb.val ∧
      field w 11 0 = 0 := by
  rw [decode_eq_ok_iff L w _ _ _ (decode_of_opcode_sub L w) rfl,
    formatR3_make_eq_ok w .sub (fun _ _ _ _ _ _ e => Instr.sub.inj e)]

theorem decode_mul_iff (rd ra rb : Reg) : decode L w = .ok (.mul rd ra rb) ↔
    field w 31 24 = 0x12 ∧ field w 23 20 = rd.val ∧ field w 19 16 = ra.val ∧ field w 15 12 = rb.val ∧
      field w 11 0 = 0 := by
  rw [decode_eq_ok_iff L w _ _ _ (decode_of_opcode_mul L w) rfl,
    formatR3_make_eq_ok w .mul (fun _ _ _ _ _ _ e => Instr.mul.inj e)]

theorem decode_divmod_iff (rq rr ra rb : Reg) : decode L w = .ok (.divmod rq rr ra rb) ↔
    field w 31 24 = 0x13 ∧ field w 23 20 = rq.val ∧ field w 19 16 = rr.val ∧ field w 15 12 = ra.val ∧
      field w 11 8 = rb.val ∧ field w 7 0 = 0 ∧ field w 23 20 ≠ field w 19 16 := by
  rw [decode_eq_ok_iff L w _ _ _ (decode_of_opcode_divmod L w) rfl, formatR4Distinct_eq_ok]
  constructor
  · rintro ⟨hop, hz, f1, h1, f2, h2, f3, h3, f4, h4, hne, e⟩
    cases e
    exact ⟨hop, h1, h2, h3, h4, hz, fun he => hne (Fin.ext (h1 ▸ h2 ▸ he))⟩
  · rintro ⟨hop, h1, h2, h3, h4, hz, hne⟩
    exact ⟨hop, hz, rq, h1, rr, h2, ra, h3, rb, h4, fun he => hne (by rw [h1, h2, he]), rfl⟩

theorem decode_cmp_iff (ra rb : Reg) : decode L w = .ok (.cmp ra rb) ↔
    field w 31 24 = 0x14 ∧ field w 23 20 = 0 ∧ field w 19 16 = ra.val ∧ field w 15 12 = rb.val ∧
      field w 11 0 = 0 := by
  rw [decode_eq_ok_iff L w _ _ _ (decode_of_opcode_cmp L w) rfl, formatC_eq_ok]
  exact ⟨fun ⟨hop, hz, hlow, _, hra, _, hrb, e⟩ => by cases e; exact ⟨hop, hz, hra, hrb, hlow⟩,
    fun ⟨hop, hz, hra, hrb, hlow⟩ => ⟨hop, hz, hlow, ra, hra, rb, hrb, rfl⟩⟩

theorem decode_modexp_iff (rd ra rb rc : Reg) : decode L w = .ok (.modexp rd ra rb rc) ↔
    field w 31 24 = 0x20 ∧ field w 23 20 = rd.val ∧ field w 19 16 = ra.val ∧ field w 15 12 = rb.val ∧
      field w 11 8 = rc.val ∧ field w 7 0 = 0 := by
  rw [decode_eq_ok_iff L w _ _ _ (decode_of_opcode_modexp L w) rfl, formatR4_eq_ok]
  exact ⟨fun ⟨hop, hz, _, h1, _, h2, _, h3, _, h4, e⟩ => by cases e; exact ⟨hop, h1, h2, h3, h4, hz⟩,
    fun ⟨hop, h1, h2, h3, h4, hz⟩ => ⟨hop, hz, rd, h1, ra, h2, rb, h3, rc, h4, rfl⟩⟩

/-! ## A word from its fields (30_encoding.md R80) -/

/-- The opcode and the nibbles below it leave 16 bits, in whichever fields a format reads them. -/
theorem toNat_eq_fields :
    w.toNat = field w 31 24 * 2 ^ 24 + field w 23 20 * 2 ^ 20 + field w 19 16 * 2 ^ 16 + field w 15 0 := by
  have hw : w.toNat < 2 ^ 32 := w.isLt
  simp only [field]
  omega

/-- The same 16 bits as a nibble and 12 bits. -/
theorem field_15_0_eq : field w 15 0 = field w 15 12 * 2 ^ 12 + field w 11 0 := by
  simp only [field]
  omega

/-- Those 12 bits as a nibble and a byte. -/
theorem field_11_0_eq : field w 11 0 = field w 11 8 * 2 ^ 8 + field w 7 0 := by
  simp only [field]
  omega

/-- The zero bits of LD reach into the nibble below the register fields. -/
theorem field_19_12_eq : field w 19 12 = field w 19 16 * 2 ^ 4 + field w 15 12 := by
  simp only [field]
  omega

theorem wordOf_eq_of_fields {op f1 f2 f3 f4 low : Nat} (hop : field w 31 24 = op) (h1 : field w 23 20 = f1)
    (h2 : field w 19 16 = f2) (hlow : field w 15 0 = f3 * 2 ^ 12 + f4 * 2 ^ 8 + low) :
    wordOf op f1 f2 f3 f4 low = w := by
  have hw := toNat_eq_fields w
  rw [hop, h1, h2, hlow, ← Nat.add_assoc, ← Nat.add_assoc] at hw
  rw [wordOf, ← hw, BitVec.ofNat_toNat, BitVec.setWidth_eq]

/-- No bit of a decoded word is ignored: the command's own word is the word that was decoded. -/
theorem encode_of_decode (i : Instr) (h : decode L w = .ok i) : encode i = w := by
  cases i with
  | nop =>
    obtain ⟨hop, hz⟩ := (decode_nop_iff L w).mp h
    exact (eq_zero_of_fields w hop hz).symm
  | ldi rd imm16 =>
    obtain ⟨hop, hrd, hz, himm⟩ := (decode_ldi_iff L w rd imm16).mp h
    exact wordOf_eq_of_fields w hop hrd hz (by simp [himm])
  | ld rd n =>
    obtain ⟨hop, hrd, hz, hn, -⟩ := (decode_ld_iff L w rd n).mp h
    have h8 := field_19_12_eq w
    obtain ⟨hz16, hz12⟩ : field w 19 16 = 0 ∧ field w 15 12 = 0 := by omega
    exact wordOf_eq_of_fields w hop hrd hz16 (by simp [field_15_0_eq, hz12, hn])
  | st ra =>
    obtain ⟨hop, hz, hra, hlow⟩ := (decode_st_iff L w ra).mp h
    exact wordOf_eq_of_fields w hop hz hra (by simp [hlow])
  | mov rd ra =>
    obtain ⟨hop, hrd, hra, hlow⟩ := (decode_mov_iff L w rd ra).mp h
    exact wordOf_eq_of_fields w hop hrd hra (by simp [hlow])
  | add rd ra rb =>
    obtain ⟨hop, hrd, hra, hrb, hlow⟩ := (decode_add_iff L w rd ra rb).mp h
    exact wordOf_eq_of_fields w hop hrd hra (by simp [field_15_0_eq, hrb, hlow])
  | sub rd ra rb =>
    obtain ⟨hop, hrd, hra, hrb, hlow⟩ := (decode_sub_iff L w rd ra rb).mp h
    exact wordOf_eq_of_fields w hop hrd hra (by simp [field_15_0_eq, hrb, hlow])
  | mul rd ra rb =>
    obtain ⟨hop, hrd, hra, hrb, hlow⟩ := (decode_mul_iff L w rd ra rb).mp h
    exact wordOf_eq_of_fields w hop hrd hra (by simp [field_15_0_eq, hrb, hlow])
  | divmod rq rr ra rb =>
    obtain ⟨hop, hrq, hrr, hra, hrb, hlow, -⟩ := (decode_divmod_iff L w rq rr ra rb).mp h
    exact wordOf_eq_of_fields w hop hrq hrr (by simp [field_15_0_eq, field_11_0_eq, hra, hrb, hlow])
  | cmp ra rb =>
    obtain ⟨hop, hz, hra, hrb, hlow⟩ := (decode_cmp_iff L w ra rb).mp h
    exact wordOf_eq_of_fields w hop hz hra (by simp [field_15_0_eq, hrb, hlow])
  | modexp rd ra rb rc =>
    obtain ⟨hop, hrd, hra, hrb, hrc, hlow⟩ := (decode_modexp_iff L w rd ra rb rc).mp h
    exact wordOf_eq_of_fields w hop hrd hra (by simp [field_15_0_eq, field_11_0_eq, hrb, hrc, hlow])

/-! ## The words that the encoder writes (30_encoding.md R81) -/

/-- `wordOf_toNat` with registers in all four nibbles; a format without one of them has a zero in its place. -/
theorem wordOf_regs_toNat (op : Nat) (f1 f2 f3 f4 : Reg) (hop : op < 256) :
    (wordOf op f1.val f2.val f3.val f4.val 0).toNat =
      op * 2 ^ 24 + f1.val * 2 ^ 20 + f2.val * 2 ^ 16 + f3.val * 2 ^ 12 + f4.val * 2 ^ 8 := by
  rw [wordOf_toNat op _ _ _ _ 0 hop (by omega) (by omega), Nat.add_zero]

/-- `wordOf_toNat` with one register above a number of at most 16 bits: LDI and LD. -/
theorem wordOf_low_toNat (op : Nat) (f1 : Reg) (low : Nat) (hop : op < 256) (hlow : low < 2 ^ 16) :
    (wordOf op f1.val 0 0 0 low).toNat = op * 2 ^ 24 + f1.val * 2 ^ 20 + low := by
  rw [wordOf_toNat op _ _ _ _ low hop (by omega) (by omega)]
  omega

theorem decode_encode (i : Instr) (h : i.wellFormed L = true) : decode L (encode i) = .ok i := by
  cases i with
  | nop => exact decode_nop L
  | ldi rd imm16 =>
    exact decode_ldi_of_toNat L _ rd imm16 (wordOf_low_toNat 0x01 rd _ (by decide) imm16.isLt)
  | ld rd n =>
    have hn : n.toNat < 2 ^ 16 := Nat.lt_trans n.isLt (by decide)
    exact decode_ld_of_toNat L _ rd n (wordOf_low_toNat 0x02 rd _ (by decide) hn) (of_decide_eq_true h)
  | st ra => exact decode_st_of_toNat L _ ra (wordOf_regs_toNat 0x03 0 ra 0 0 (by decide))
  | mov rd ra => exact decode_mov_of_toNat L _ rd ra (wordOf_regs_toNat 0x04 rd ra 0 0 (by decide))
  | add rd ra rb => exact decode_add_of_toNat L _ rd ra rb (wordOf_regs_toNat 0x10 rd ra rb 0 (by decide))
  | sub rd ra rb => exact decode_sub_of_toNat L _ rd ra rb (wordOf_regs_toNat 0x11 rd ra rb 0 (by decide))
  | mul rd ra rb => exact decode_mul_of_toNat L _ rd ra rb (wordOf_regs_toNat 0x12 rd ra rb 0 (by decide))
  | divmod rq rr ra rb =>
    exact decode_divmod_of_toNat L _ rq rr ra rb (wordOf_regs_toNat 0x13 rq rr ra rb (by decide)) (of_decide_eq_true h)
  | cmp ra rb => exact decode_cmp_of_toNat L _ ra rb (wordOf_regs_toNat 0x14 0 ra rb 0 (by decide))
  | modexp rd ra rb rc =>
    exact decode_modexp_of_toNat L _ rd ra rb rc (wordOf_regs_toNat 0x20 rd ra rb rc (by decide))

/-- A word that is some command's word decodes to that command. -/
theorem decode_of_encode_eq (i : Instr) (hw : encode i = w) (h : i.wellFormed L = true) : decode L w = .ok i :=
  hw ▸ decode_encode L i h

end Sys2Proof

/-! ## The statements -/

namespace Sys2Proof.Proofs

open Sys2Proof.Machine

/-- Settles O1: the encoder writes each command's fields into the places where its format reads them. -/
theorem decodeEncodeRoundTrip : Obligations.DecodeEncodeRoundTrip :=
  fun L i h => decode_encode L i h

/-- Settles O2: the fields that a format reads and those it asks to be zero make up the whole word. -/
theorem encodeDecodeRoundTrip : Obligations.EncodeDecodeRoundTrip :=
  fun L w i h => ⟨encode_of_decode L w i h, wellFormed_of_decode L w i h⟩

/-- Settles O3: one equivalence for each line of the procedure. -/
theorem decoderIsTheProcedure : Obligations.DecoderIsTheProcedure := by
  intro L w i
  cases i with
  | nop => exact decode_nop_iff L w
  | ldi rd imm16 => exact decode_ldi_iff L w rd imm16
  | ld rd n => exact decode_ld_iff L w rd n
  | st ra => exact decode_st_iff L w ra
  | mov rd ra => exact decode_mov_iff L w rd ra
  | add rd ra rb => exact decode_add_iff L w rd ra rb
  | sub rd ra rb => exact decode_sub_iff L w rd ra rb
  | mul rd ra rb => exact decode_mul_iff L w rd ra rb
  | divmod rq rr ra rb => exact decode_divmod_iff L w rq rr ra rb
  | cmp ra rb => exact decode_cmp_iff L w ra rb
  | modexp rd ra rb rc => exact decode_modexp_iff L w rd ra rb rc

/-- Settles O5: each word is the one that the encoder writes for its command. -/
theorem specWordsDecode : Obligations.SpecWordsDecode := by
  refine ⟨?_, ?_, ?_, ?_, ?_, ?_, ?_, ?_, ?_, ?_, ?_, ?_⟩
  all_goals exact decode_of_encode_eq 128 _ _ (by decide) (by decide)

end Sys2Proof.Proofs
end

section
/-! PROOFS. Resets and the step relation (70_reset_and_hazards.md), and the invariant (10_state.md R21, R34, R37). First what each
update of the state does to the invariant, then what a step of either agent can do, then the statements. -/

namespace Sys2Proof.Machine

/-! ## The invariant, update by update -/

/-- The invariant asks nothing of CMDR, CMPF and the model's own fields, and of PEND and ERR only how they go together. -/
theorem State.Inv.congr {s t : State} (hi : s.Inv) (hcap : t.cap = s.cap) (hregs : t.regs = s.regs)
    (hmem : t.mem = s.mem) (hrlen : t.rlen = s.rlen) (hpend : t.pend = true → t.err = none) : t.Inv where
  regsFit r v h := by
    rw [State.readReg_congr t s r hregs] at h
    rw [State.L, hcap]
    exact hi.regsFit r v h
  memWf := hmem ▸ hi.memWf
  memInWindow := by
    rw [State.memInWindow, State.L, hmem, hcap]
    exact hi.memInWindow
  rlenLe := by
    rw [State.L, hrlen, hcap]
    exact hi.rlenLe
  pendErr := hpend

theorem State.Inv.writeReg {s : State} (hi : s.Inv) (r : Reg) (v : Nat) (hv : v < BETA ^ s.L) : (s.writeReg r v).Inv where
  regsFit q u h := by
    by_cases hq : q = r
    · subst hq
      rw [State.readReg_writeReg_self] at h
      cases h
      exact hv
    · rw [s.readReg_writeReg_of_ne r q v hq] at h
      exact hi.regsFit q u h
  memWf := hi.memWf
  memInWindow := hi.memInWindow
  rlenLe := hi.rlenLe
  pendErr := hi.pendErr

/-- Bytes written inside the window stay there, in rising order. -/
theorem State.Inv.writeBytes {s : State} (hi : s.Inv) (base : Nat) (bs : List Byte) (hlow : 0x1000 ≤ base)
    (hhigh : base + bs.length ≤ 0x1000 + 4 * s.L) : State.Inv { s with mem := s.mem.writeBytes base bs } where
  regsFit := hi.regsFit
  memWf := Memory.wf_writeBytes _ _ _ hi.memWf
  memInWindow c hc := by
    rcases Memory.mem_writeBytes _ _ _ c hc with hold | hnew
    · exact hi.memInWindow c hold
    · show 0x1000 ≤ c.1 ∧ c.1 < 0x1000 + 4 * s.L
      omega
  rlenLe := hi.rlenLe
  pendErr := hi.pendErr

theorem State.Inv.writeOpbufWord {s : State} (hi : s.Inv) (i : Nat) (w : Word) (h : i < s.L) :
    (s.writeOpbufWord i w).Inv :=
  hi.writeBytes (opbufOffset i) (wordBytes w) (Nat.le_add_right _ _) (by
    rw [wordBytes_length, opbufOffset]
    omega)

/-- ST writes exactly the window, and the length of a value in range is at most `L`. -/
theorem State.Inv.store {s : State} (hi : s.Inv) (v : Nat) (hv : v < BETA ^ s.L) :
    ((s.writeOpbufValue v).writeRlen (nlimbs v)).Inv := by
  have hbytes := hi.writeBytes (opbufOffset 0) (valueBytes s.L v) (Nat.le_refl _)
    (by rw [valueBytes_length]; exact Nat.le_refl _)
  obtain ⟨hle, hn⟩ := rlen_toNat_of_fits s v hv
  exact ⟨hbytes.regsFit, hbytes.memWf, hbytes.memInWindow, hn.trans_le hle, hbytes.pendErr⟩

/-- A state in which no register is valid, no command is pending and RLEN is 0 meets the rest of the invariant by its memory. -/
theorem inv_of_cleared (t : State) (hregs : ∀ r, t.readReg r = none) (hwf : Memory.wf t.mem) (hwin : t.memInWindow)
    (hrlen : t.rlen = 0) (hpend : t.pend = false) : t.Inv where
  regsFit r v h := by
    rw [hregs r] at h
    cases h
  memWf := hwf
  memInWindow := hwin
  rlenLe := hrlen ▸ Nat.zero_le _
  pendErr h := by
    rw [hpend] at h
    cases h

theorem inv_reset : State.reset.Inv :=
  inv_of_cleared _ State.readReg_reset State.reset_mem_wf (fun _ h => nomatch h) rfl rfl

theorem inv_hardReset (s : State) : s.hardReset.Inv :=
  inv_of_cleared _ s.readReg_hardReset List.Pairwise.nil (fun _ h => nomatch h) rfl rfl

theorem State.Inv.softReset {s : State} (hi : s.Inv) : s.softReset.Inv :=
  inv_of_cleared _ s.readReg_softReset hi.memWf hi.memInWindow rfl rfl

/-- The writes of phase 4 keep the invariant: `Written` carries the bound on what is written. -/
theorem State.Inv.written {s u : State} (hi : s.Inv) (h : Written s u) : u.Inv := by
  cases h with
  | nothing => exact hi
  | reg r v fits => exact hi.writeReg r v (fits hi.regsFit)
  | quotient rq rr q r fits =>
    obtain ⟨hq, hr⟩ := fits hi.regsFit
    exact (hi.writeReg rq q hq).writeReg rr r hr
  | opbuf v fits => exact hi.store v (fits hi.regsFit)
  | flags c => exact hi.congr rfl rfl rfl rfl hi.pendErr

theorem State.Inv.raise {s : State} (hi : s.Inv) (f : FaultCode) : (s.raise f).Inv :=
  hi.congr rfl rfl rfl rfl (fun h => nomatch h)

theorem State.Inv.withMoves {s : State} (hi : s.Inv) (ms : List Move) : (s.withMoves ms).Inv :=
  hi.congr rfl rfl rfl rfl hi.pendErr

theorem State.Inv.answering {s : State} (hi : s.Inv) (a : Option Answer) : (s.answering a).Inv :=
  hi.congr rfl rfl rfl rfl hi.pendErr

theorem State.Inv.exec {s t : State} (hi : s.Inv) (i : Instr) (h : exec i s = .next t) : t.Inv := by
  rcases exec_cases s i t h with ⟨u, hw, rfl⟩ | ⟨f, rfl⟩
  · exact (hi.written hw).congr rfl rfl rfl rfl (fun h => nomatch h)
  · exact hi.raise f

theorem State.Inv.hostStep {s : State} (hi : s.Inv) (a : HostAction) : (s.hostStep a).Inv := by
  rcases s.hostStep_cases a with ⟨x, e⟩ | ⟨-, e⟩ | ⟨-, -, -, -, -, -, e⟩ | ⟨-, -, w, -, -, -, herr, e⟩ |
    ⟨-, -, w, i, -, hlt, -, e⟩
  · exact e ▸ hi.answering _
  · exact e ▸ (inv_hardReset s).answering _
  · exact e ▸ hi.softReset.answering _
  · have hacc : (s.accept w).Inv := hi.congr rfl rfl rfl rfl fun _ => herr
    exact e ▸ hacc.answering _
  · exact e ▸ (hi.writeOpbufWord i w hlt).answering _

variable (s : State)

/-! ## The core's turn (70_reset_and_hazards.md R236, R237) -/

theorem coreMove_of_decodes (i : Instr) (hp : s.pend = true) (hd : decode s.L s.cmdr = .ok i) :
    s.coreMove = exec i s := by
  have hd' : s.pendingCommand = .ok i := hd
  rw [s.coreMove_of_pend hp, State.coreStep, hd']

theorem exec_next (i : Instr) : ∃ t, exec i s = .next t := by
  obtain ⟨r, hr, -⟩ := exec_concludes s i
  exact hr ▸ s.conclude_next r

theorem coreMove_next : ∃ t, s.coreMove = .next t := by
  cases hp : s.pend with
  | false => exact ⟨s, s.coreMove_of_idle hp⟩
  | true =>
    rw [s.coreMove_of_pend hp]
    rcases s.coreStep_cases with ⟨i, -, e⟩ | ⟨-, -, e⟩
    · exact e ▸ exec_next s i
    · exact ⟨_, e⟩

theorem step_next : ∃ t, step s = .next t := by
  cases hm : s.moves with
  | nil => exact step_of_no_moves s hm ▸ coreMove_next s
  | cons m rest =>
    cases m with
    | core => exact step_of_core s rest hm ▸ coreMove_next _
    | host a => exact ⟨_, step_of_host s a rest hm⟩

/-- Whatever the core does on its turn, a recorded fault stays recorded or is replaced (60_exceptions.md R213, log 11). -/
theorem coreMove_err_ne_none (t : State) (he : s.err ≠ none) (h : s.coreMove = .next t) : t.err ≠ none := by
  cases hp : s.pend with
  | false =>
    rw [s.coreMove_of_idle hp] at h
    cases h
    exact he
  | true =>
    rw [s.coreMove_of_pend hp] at h
    rcases coreStep_err s t h with e | ⟨f, rfl⟩
    · exact e ▸ he
    · exact Option.some_ne_none f

/-! ## A register stays valid (10_state.md R23) -/

theorem State.writeReg_keeps_valid (r q : Reg) (v u : Nat) (h : s.readReg q = some u) :
    ∃ x, (s.writeReg r v).readReg q = some x := by
  by_cases hq : q = r
  · exact ⟨v, hq ▸ s.readReg_writeReg_self r v⟩
  · exact ⟨u, s.readReg_writeReg_of_ne r q v hq ▸ h⟩

theorem exec_keeps_valid (i : Instr) (t : State) (h : exec i s = .next t) (q : Reg) (u : Nat)
    (hq : s.readReg q = some u) : ∃ x, t.readReg q = some x := by
  rcases exec_cases s i t h with ⟨t', hw, rfl⟩ | ⟨f, rfl⟩
  · cases hw with
    | nothing | opbuf | flags => exact ⟨u, hq⟩
    | reg r v => exact s.writeReg_keeps_valid r q v u hq
    | quotient rq rr a b =>
      obtain ⟨x, hx⟩ := s.writeReg_keeps_valid rq q a u hq
      exact (s.writeReg rq a).writeReg_keeps_valid rr q b x hx
  · exact ⟨u, hq⟩

/-! ## What a host action reads and writes (20_memory.md R53) -/

theorem hostStep_regs (a : HostAction) (hn : a.resets = false) : (s.hostStep a).regs = s.regs := by
  rcases s.hostStep_effect a with ⟨hr, -⟩ | ⟨-, ⟨x, e⟩ | ⟨w, -, -, -, e⟩ | ⟨i, w, -, e⟩⟩
  · rw [hn] at hr
    cases hr
  · exact e ▸ rfl
  · exact e ▸ rfl
  · exact e ▸ rfl

/-- A write is answered by whether it is permitted. -/
theorem hostStep_write_answer (width : Width) (off : BitVec 13) (w : Word) :
    (s.hostStep (.write width off w)).answer = if (s.busWrite width off w).isSome then some .ok else some .busError := by
  cases h : s.busWrite width off w with
  | none => rw [s.hostStep_write_of_none width off w h]; rfl
  | some t => rw [s.hostStep_write_of_some width off w t h]; rfl

/-- Whether a write is permitted depends on PEND and ERR alone (20_memory.md R57). -/
theorem busWrite_isSome_regs (regs : Vector (Option Nat) 8) (width : Width) (off : BitVec 13) (w : Word) :
    (State.busWrite { s with regs := regs } width off w).isSome = (s.busWrite width off w).isSome := by
  have hx : State.accessTarget { s with regs := regs } width off = s.accessTarget width off := rfl
  simp only [State.busWrite, hx]
  cases s.accessTarget width off with
  | none => rfl
  | some x =>
    cases x with
    | status | cap | rlen => rfl
    | cmd | ctrl | opbuf => simp only []; split_ifs <;> rfl

theorem hostStep_answer_regs (regs : Vector (Option Nat) 8) (a : HostAction) :
    (State.hostStep { s with regs := regs } a).answer = (s.hostStep a).answer := by
  cases a with
  | reset | read => rfl
  | write width off w => rw [hostStep_write_answer, hostStep_write_answer, busWrite_isSome_regs]

/-! ## Resets (70_reset_and_hazards.md R230 to R232) -/

/-- The two host actions that reset the core. -/
theorem eq_of_resets (a : HostAction) (h : a.resets = true) : a = .reset ∨ a = .write .word 0x0008 1 := by
  cases a with
  | reset => exact .inl rfl
  | read width off => cases h
  | write width off w =>
    obtain ⟨rfl, rfl, rfl⟩ := (HostAction.resets_write width off w).mp h
    exact .inr rfl

/-- What a reset leaves does not depend on CMDR and PEND: a pending command is discarded. -/
theorem hostStep_of_resets_congr (a : HostAction) (h : a.resets = true) (w : Word) (p : Bool) :
    State.hostStep { s with cmdr := w, pend := p } a = s.hostStep a := by
  rcases eq_of_resets a h with rfl | rfl
  · rfl
  · rw [State.hostStep_softReset, State.hostStep_softReset]
    rfl

theorem step_of_softReset (rest : List Move) (h : s.moves = .host (.write .word 0x0008 1) :: rest) :
    step s = .next ((s.withMoves rest).softReset.answering (some .ok)) := by
  rw [step_of_host s _ rest h, State.hostStep_softReset]

/-- Only a reset clears a recorded fault. -/
theorem resets_of_hostStep_clears_err (a : HostAction) (he : s.err ≠ none) (h : (s.hostStep a).err = none) :
    a.resets = true := by
  obtain ⟨f, hf⟩ := Option.ne_none_iff_exists'.mp he
  by_contra hr
  rw [Bool.not_eq_true] at hr
  rcases hostStep_of_faulted s a f hf hr with ⟨x, e⟩ | ⟨i, w, e⟩
  · exact he (by rw [e] at h; exact h)
  · exact he (by rw [e] at h; exact h)

end Sys2Proof.Machine

/-! ## The statements -/

namespace Sys2Proof.Proofs

open Sys2Proof.Machine

/-- Settles O35: each agent's move keeps the invariant, since every update that it can make does. -/
theorem everyStepKeepsInvariant : Obligations.EveryStepKeepsInvariant := by
  intro s t hi h
  rcases step_cases s t h with ⟨a, rest, -, rfl⟩ | ⟨ms, -, ⟨-, rfl⟩ | ⟨i, -, -, he⟩ | ⟨-, -, -, rfl⟩⟩
  · exact (hi.withMoves rest).hostStep a
  · exact hi.withMoves ms
  · exact (hi.withMoves ms).exec i he
  · exact (hi.withMoves ms).raise _

/-- Settles O34: a reset leaves no valid register, no byte, RLEN 0 and PEND 0. -/
theorem resetMeetsInvariant : Obligations.ResetMeetsInvariant := inv_reset

/-- Settles O36: `step_cap`. -/
theorem capacityIsConstant : Obligations.CapacityIsConstant := fun s t h => step_cap s t h

/-- Settles O29: no command and no host action but a reset makes a register invalid. -/
theorem validRegistersStayValid : Obligations.ValidRegistersStayValid := by
  intro s t h hn r v hv
  rcases step_cases s t h with ⟨a, rest, hm, rfl⟩ | ⟨ms, -, ⟨-, rfl⟩ | ⟨i, -, -, he⟩ | ⟨-, -, -, rfl⟩⟩
  · have hregs := hostStep_regs (s.withMoves rest) a (hn a rest hm)
    exact ⟨v, (State.readReg_congr _ s r hregs).trans hv⟩
  · exact ⟨v, hv⟩
  · exact exec_keeps_valid (s.withMoves ms) i t he r v hv
  · exact ⟨v, hv⟩

/-- Settles O8: every agent's move and every command answers a next state, and PEND is 0 after a command. -/
theorem everyStepAnswersNextState : Obligations.EveryStepAnswersNextState := by
  refine ⟨step_next, fun i s => ?_⟩
  obtain ⟨t, ht⟩ := exec_next s i
  exact ⟨t, ht, exec_pend s i t ht⟩

/-- Settles O7: the core's turn with and without a command pending, from a schedule that is empty or names it. -/
theorem stepRunsPendingCommand : Obligations.StepRunsPendingCommand := by
  intro s i rest
  refine ⟨fun hp hd hm => ?_, fun hp hd hm => step_of_pending s i rest hm hp hd, fun hp hm => ?_, fun hp hm => ?_⟩
  · rw [step_of_no_moves s hm, coreMove_of_decodes s i hp hd]
  · rw [step_of_no_moves s hm, s.coreMove_of_idle hp]
  · rw [step_of_core s rest hm]
    exact (s.withMoves rest).coreMove_of_idle hp

/-- Settles O26: the count of LD and the destinations of DIVMOD are all that a term can have wrong. -/
theorem illFormedTermsAreIllegalCommands : Obligations.IllFormedTermsAreIllegalCommands := by
  intro i s h
  cases i with
  | ld rd n =>
    rw [exec, execLd, s.limbCount_of_illegal n (of_decide_eq_false h), phase_error, State.conclude_error]
    rfl
  | divmod rq rr ra rb =>
    obtain rfl := not_ne_iff.mp (of_decide_eq_false h)
    rw [exec, execDivmod, distinct_self, phase_error, State.conclude_error]
    rfl
  | nop | ldi | st | mov | add | sub | mul | cmp | modexp => cases h

/-- Settles O47: no host action but a reset writes a register, and no answer is made from one. -/
theorem hostNeverTouchesRegisters : Obligations.HostNeverTouchesRegisters := by
  refine ⟨fun s t a rest hm hn h => ?_, fun s t a rest regs hm h => ?_⟩
  · rw [eq_hostStep_of_step s t a rest hm h]
    exact hostStep_regs _ a hn
  · rw [eq_hostStep_of_step s t a rest hm h]
    exact ⟨_, step_of_host _ a rest hm, hostStep_answer_regs (s.withMoves rest) regs a⟩

/-- Settles O48: `hostStep_of_busy`. -/
theorem busyHoldsTheCoreState : Obligations.BusyHoldsTheCoreState := by
  intro s t a rest hm hn hp h
  obtain ⟨x, e⟩ := hostStep_of_busy (s.withMoves rest) a hn hp
  rw [eq_hostStep_of_step s t a rest hm h, e]
  rfl

/-- Settles O38: the fields of `State.reset`, with no byte of OPBUF written. -/
theorem resetState : Obligations.ResetState :=
  ⟨State.readReg_reset, rfl, rfl, rfl, rfl, rfl, by decide, fun _ => rfl⟩

/-- Settles O39: the fields of `State.hardReset`, with no byte of OPBUF written since. -/
theorem hardwareResetEffect : Obligations.HardwareResetEffect := by
  intro s rest hm
  refine ⟨_, step_of_host s _ rest hm, (s.withMoves rest).readReg_hardReset, rfl, rfl, rfl, rfl, rfl, rfl, ?_, fun _ => rfl,
    rfl, rfl⟩
  exact Nat.succ_ne_self s.epoch

/-- Settles O40: the fields of `State.softReset`; no move of the core and no other action of the host clears ERR. -/
theorem softResetEffect : Obligations.SoftResetEffect := by
  refine ⟨fun s rest hm => ?_, fun s t he h ht => ?_⟩
  · exact ⟨_, step_of_softReset s rest hm, (s.withMoves rest).readReg_softReset, rfl, rfl, rfl, rfl, rfl, rfl,
      fun _ => rfl, rfl, rfl⟩
  · cases hm : s.moves with
    | nil => exact absurd ht (coreMove_err_ne_none s t he (step_of_no_moves s hm ▸ h))
    | cons m rest =>
      cases m with
      | core => exact absurd ht (coreMove_err_ne_none (s.withMoves rest) t he (step_of_core s rest hm ▸ h))
      | host a =>
        obtain rfl := eq_hostStep_of_step s t a rest hm h
        rcases eq_of_resets a (resets_of_hostStep_clears_err (s.withMoves rest) a he ht) with rfl | rfl
        · exact ⟨rest, .inr rfl⟩
        · exact ⟨rest, .inl rfl⟩

/-- Settles O41: a reset writes CMDR and PEND whatever they hold and reads neither; a soft reset leaves the words that an ST
before it has written, and after a soft reset none is pending. -/
theorem resetDiscardsPendingCommand : Obligations.ResetDiscardsPendingCommand := by
  refine ⟨fun s a rest w p hr hm => ?_, fun s ra v rest hp hd hv => ⟨fun hm => ?_, fun hm => ?_⟩⟩
  · rw [step_of_host s a rest hm, step_of_host { s with cmdr := w, pend := p } a rest hm]
    exact congrArg Host.Outcome.next (hostStep_of_resets_congr (s.withMoves rest) a hr w p).symm
  · have hstore := step_of_pending s _ _ hm hp hd
    rw [exec_st_of_valid (s.withMoves (.host (.write .word 0x0008 1) :: rest)) ra v hv] at hstore
    refine ⟨_, _, hstore, step_of_softReset _ rest rfl, fun i hi => ?_⟩
    exact s.opbufWord_writeOpbufValue v i hi
  · exact ⟨_, step_of_softReset s rest hm, rfl, fun _ => rfl⟩

end Sys2Proof.Proofs
end

section
/-! PROOFS. What a command reads and writes (10_state.md R24, R25): two runs of one command side by side. First the relation that
two runs are in, then the statements. -/

namespace Sys2Proof.Machine

/-! ## Two runs of a command -/

/-- The results of command `i` completed from `s` and from `s'`: ERR as it was, the other registers as they were, and what the
command writes the same in both. -/
structure SameResults (i : Instr) (s s' u u' : State) : Prop where
  err : u.err = s.err
  err' : u'.err = s'.err
  frame : ∀ r, r ∉ i.dests → u.readReg r = s.readReg r
  dests : ∀ r ∈ i.dests, u.readReg r = u'.readReg r
  store : ∀ ra, i = .st ra → u.rlen = u'.rlen ∧
    ∀ a, 0x1000 ≤ a → a < 0x1000 + 4 * s.L → u.opbufByte a = u'.opbufByte a
  compare : ∀ ra rb, i = .cmp ra rb → u.cmpf = u'.cmpf

/-- Two runs of a command that raise the same fault, or complete with the same results. -/
def EndAlike (i : Instr) (s s' : State) : Except FaultCode State → Except FaultCode State → Prop
  | .ok u, .ok u' => SameResults i s s' u u'
  | .error f, .error f' => f = f'
  | .ok _, .error _ => False
  | .error _, .ok _ => False

section

variable {s s' : State}

/-- A phase that comes to the same in both runs raises in both, or hands the same value on. -/
theorem EndAlike.phase {i : Instr} {α : Type} {x x' : Except FaultCode α} {k k' : α → Except FaultCode State}
    (hx : x = x') (h : ∀ a, EndAlike i s s' (k a) (k' a)) : EndAlike i s s' (x >>= k) (x' >>= k') := by
  subst hx
  cases x with
  | ok a => exact h a
  | error f => exact rfl

theorem source_congr {r : Reg} (h : s.readReg r = s'.readReg r) : s.source r = s'.source r := by
  rw [State.source, State.source, h]

/-- Two sources that hold the same in both states. -/
theorem EndAlike.sources {i : Instr} {ra rb : Reg} {rest : List Reg} {k k' : Nat → Nat → Except FaultCode State}
    (hsrc : ∀ r ∈ i.sources, s.readReg r = s'.readReg r) (hi : i.sources = ra :: rb :: rest)
    (h : ∀ a b, EndAlike i s s' (k a b) (k' a b)) :
    EndAlike i s s' (do let a ← s.source ra; let b ← s.source rb; k a b)
      (do let a ← s'.source ra; let b ← s'.source rb; k' a b) :=
  .phase (source_congr (hsrc ra (by simp [hi]))) fun a => .phase (source_congr (hsrc rb (by simp [hi]))) fun b => h a b

/-- A register that is written with the same value in both states, or held the same before, holds the same after. -/
theorem readReg_writeReg_congr (r q : Reg) (v : Nat) (h : q ≠ r → s.readReg q = s'.readReg q) :
    (s.writeReg r v).readReg q = (s'.writeReg r v).readReg q := by
  by_cases hq : q = r
  · rw [hq, State.readReg_writeReg_self, State.readReg_writeReg_self]
  · rw [s.readReg_writeReg_of_ne r q v hq, s'.readReg_writeReg_of_ne r q v hq, h hq]

theorem SameResults.writeReg {i : Instr} (rd : Reg) (v : Nat) (hd : i.dests = [rd]) (hst : ∀ ra, i ≠ .st ra)
    (hcmp : ∀ ra rb, i ≠ .cmp ra rb) : SameResults i s s' (s.writeReg rd v) (s'.writeReg rd v) where
  err := rfl
  err' := rfl
  frame r hr := s.readReg_writeReg_of_ne rd r v (by simpa [hd] using hr)
  dests r hr := readReg_writeReg_congr rd r v fun hne => absurd (by simpa [hd] using hr) hne
  store ra e := absurd e (hst ra)
  compare ra rb e := absurd e (hcmp ra rb)

theorem SameResults.quotient (rq rr ra rb : Reg) (q r : Nat) : SameResults (.divmod rq rr ra rb) s s'
    ((s.writeReg rq q).writeReg rr r) ((s'.writeReg rq q).writeReg rr r) where
  err := rfl
  err' := rfl
  frame x hx := by
    obtain ⟨hxq, hxr⟩ : x ≠ rq ∧ x ≠ rr := by simpa [Instr.dests] using hx
    rw [State.readReg_writeReg_of_ne _ rr x r hxr, State.readReg_writeReg_of_ne _ rq x q hxq]
  dests x hx := readReg_writeReg_congr rr x r fun hxr => readReg_writeReg_congr rq x q fun hxq =>
    absurd hx (by simp [Instr.dests, hxq, hxr])
  store _ e := nomatch e
  compare _ _ e := nomatch e

/-- ST writes the whole window and the length from the value alone. -/
theorem SameResults.stored (ra : Reg) (v : Nat) (hL : s.L = s'.L) : SameResults (.st ra) s s'
    ((s.writeOpbufValue v).writeRlen (nlimbs v)) ((s'.writeOpbufValue v).writeRlen (nlimbs v)) where
  err := rfl
  err' := rfl
  frame _ _ := rfl
  dests _ hr := nomatch hr
  store _ _ := by
    refine ⟨rfl, fun a hlow hhigh => ?_⟩
    have hbyte := s.opbufByte_writeOpbufValue v a
    have hbyte' := s'.opbufByte_writeOpbufValue v a
    rw [if_pos ⟨hlow, hhigh⟩] at hbyte
    rw [if_pos ⟨hlow, hL ▸ hhigh⟩, ← hL] at hbyte'
    exact hbyte.trans hbyte'.symm
  compare _ _ e := nomatch e

theorem SameResults.flags (ra rb : Reg) (c : CmpFlag) :
    SameResults (.cmp ra rb) s s' (s.writeCmpf c) (s'.writeCmpf c) where
  err := rfl
  err' := rfl
  frame _ _ := rfl
  dests _ hr := nomatch hr
  store _ e := nomatch e
  compare _ _ _ := rfl

theorem SameResults.nothing : SameResults .nop s s' s s' where
  err := rfl
  err' := rfl
  frame _ _ := rfl
  dests _ hr := nomatch hr
  store _ e := nomatch e
  compare _ _ e := nomatch e

theorem opbufValue_congr_bytes (h : ∀ a, s.opbufByte a = s'.opbufByte a) (n : Nat) : s.opbufValue n = s'.opbufValue n := by
  have hw : s.opbufWord = s'.opbufWord := by
    funext i
    simp only [State.opbufWord, h]
  rw [State.opbufValue, State.opbufValue, hw]

end

/-- Two runs of a command from states that agree on its sources, and for LD on OPBUF, end alike. -/
theorem exec_endAlike (i : Instr) (s s' : State) (hcap : s.cap = s'.cap)
    (hsrc : ∀ r ∈ i.sources, s.readReg r = s'.readReg r)
    (hbuf : (∃ rd n, i = .ld rd n) → ∀ a, s.opbufByte a = s'.opbufByte a) :
    ∃ x x', exec i s = s.conclude x ∧ exec i s' = s'.conclude x' ∧ EndAlike i s s' x x' := by
  have hL : s.L = s'.L := congrArg Subtype.val hcap
  cases i with
  | nop => exact ⟨.ok s, .ok s', rfl, rfl, .nothing⟩
  | ldi rd imm16 => exact ⟨.ok _, .ok _, rfl, rfl, .writeReg rd (immediate imm16) rfl nofun nofun⟩
  | ld rd n =>
    refine ⟨_, _, rfl, rfl, .phase (by rw [State.limbCount, State.limbCount, hL]) fun k => ?_⟩
    rw [opbufValue_congr_bytes (hbuf ⟨rd, n, rfl⟩) k]
    exact SameResults.writeReg rd _ rfl nofun nofun
  | st ra =>
    exact ⟨_, _, rfl, rfl, .phase (source_congr (hsrc ra (List.mem_singleton.mpr rfl))) fun v =>
      SameResults.stored ra v hL⟩
  | mov rd ra =>
    exact ⟨_, _, rfl, rfl, .phase (source_congr (hsrc ra (List.mem_singleton.mpr rfl))) fun v =>
      SameResults.writeReg rd v rfl nofun nofun⟩
  | add rd ra rb | mul rd ra rb =>
    exact ⟨_, _, rfl, rfl, .sources hsrc rfl fun a b => .phase (by rw [hL]) fun _ =>
      SameResults.writeReg rd _ rfl nofun nofun⟩
  | sub rd ra rb =>
    exact ⟨_, _, rfl, rfl, .sources hsrc rfl fun a b => .phase rfl fun _ =>
      SameResults.writeReg rd _ rfl nofun nofun⟩
  | divmod rq rr ra rb =>
    exact ⟨_, _, rfl, rfl, .phase rfl fun _ => .sources hsrc rfl fun a b => .phase rfl fun _ =>
      SameResults.quotient rq rr ra rb _ _⟩
  | cmp ra rb =>
    exact ⟨_, _, rfl, rfl, .sources hsrc rfl fun a b => SameResults.flags ra rb _⟩
  | modexp rd ra rb rc =>
    exact ⟨_, _, rfl, rfl, .sources hsrc rfl fun a x => .phase (source_congr (hsrc rc (by simp [Instr.sources]))) fun m =>
      .phase rfl fun _ => SameResults.writeReg rd _ rfl nofun nofun⟩

/-- A register that is no destination reads as before: one run beside itself. -/
theorem exec_keeps_reg (i : Instr) (s t : State) (h : exec i s = .next t) (r : Reg) (hr : r ∉ i.dests) :
    t.readReg r = s.readReg r := by
  obtain ⟨x, x', hx, hx', halike⟩ := exec_endAlike i s s rfl (fun _ _ => rfl) (fun _ _ => rfl)
  rw [h] at hx hx'
  rcases (s.conclude_eq_next x t).mp hx.symm with ⟨u, rfl, rfl⟩ | ⟨f, -, rfl⟩
  · rcases (s.conclude_eq_next x' _).mp hx'.symm with ⟨u', rfl, -⟩ | ⟨f, rfl, -⟩
    · exact halike.frame r hr
    · exact halike.elim
  · rfl

end Sys2Proof.Machine

/-! ## The statements -/

namespace Sys2Proof.Proofs

open Sys2Proof.Machine

/-- Settles O27: `exec_keeps_reg` for the registers, and the command's other writes case by case. -/
theorem commandsWriteOnlyTheirDestinations : Obligations.CommandsWriteOnlyTheirDestinations := by
  intro i s t h
  refine ⟨exec_keeps_reg i s t h, ?_⟩
  rcases exec_effect s i t h with ⟨u, hc, rfl⟩ | ⟨f, rfl⟩
  · cases hc with
    | registers => exact ⟨fun _ => ⟨rfl, fun _ => rfl⟩, fun _ _ => rfl, fun _ => rfl, rfl, rfl, rfl, rfl, rfl⟩
    | store ra v =>
      exact ⟨fun hn => absurd rfl (hn ra), s.opbufByte_writeOpbufValue_of_outside v, fun _ => rfl, rfl, rfl, rfl, rfl, rfl⟩
    | compare ra rb =>
      exact ⟨fun _ => ⟨rfl, fun _ => rfl⟩, fun _ _ => rfl, fun hn => absurd rfl (hn ra rb), rfl, rfl, rfl, rfl, rfl⟩
  · exact ⟨fun _ => ⟨rfl, fun _ => rfl⟩, fun _ _ => rfl, fun _ => rfl, rfl, rfl, rfl, rfl, rfl⟩

/-- Settles O28: `exec_endAlike`, with the end of the command made in both states. -/
theorem commandsReadOnlyTheirSources : Obligations.CommandsReadOnlyTheirSources := by
  intro i s s' t t' hcap he he' hsrc hbuf h h'
  obtain ⟨x, x', hx, hx', halike⟩ := exec_endAlike i s s' hcap hsrc hbuf
  rw [h, eq_comm, State.conclude_eq_next] at hx
  rw [h', eq_comm, State.conclude_eq_next] at hx'
  rcases hx with ⟨u, rfl, rfl⟩ | ⟨f, rfl, rfl⟩ <;> rcases hx' with ⟨u', rfl, rfl⟩ | ⟨f', rfl, rfl⟩
  · exact ⟨halike.err.trans (he.trans (he'.symm.trans halike.err'.symm)), fun _ =>
      ⟨halike.dests, halike.store, halike.compare⟩⟩
  · exact halike.elim
  · exact halike.elim
  · exact ⟨congrArg some halike, fun hn => nomatch hn⟩

end Sys2Proof.Proofs
end

section
/-! PROOFS. OPBUF through the bus (20_memory.md R52, R54, R60) and the laws of the arithmetic commands (40_adder.md R102,
42_multiplier.md R122): runs of two and more commands. First the limbs of a value in a register, then OPBUF, then the commands one
after the other, then the statements. -/

namespace Sys2Proof.Machine

/-! ## The limbs of a value (10_state.md R21) -/

/-- The leading limb of a number of more than one limb is not zero. -/
theorem limb_top_ne_zero (v : Nat) (h : 1 < nlimbs v) : limb v (nlimbs v - 1) ≠ 0 := by
  have hv : v ≠ 0 := by
    rintro rfl
    simp at h
  have hlow : 1 ≤ v / BETA ^ (nlimbs v - 1) := (Nat.one_le_div_iff (BETA_pow_pos _)).mpr (pow_le_of_nlimbs v hv)
  have hhigh : v / BETA ^ (nlimbs v - 1) < BETA := by
    have hlt := lt_pow_nlimbs v
    rw [← Nat.sub_add_cancel (nlimbs_pos v), Nat.pow_succ'] at hlt
    exact Nat.div_lt_of_lt_mul (by rwa [Nat.mul_comm])
  rw [limb, Nat.mod_eq_of_lt hhigh]
  omega

/-- A value is the sum of its limbs. -/
theorem sum_limbs (v : Nat) : ∑ j ∈ Finset.range (nlimbs v), limb v j * BETA ^ j = v := by
  have h := val_map_range (limbWord v) (nlimbs v)
  rw [val_limbs_of_lt v _ (lt_pow_nlimbs v)] at h
  simpa using h.symm

variable (s : State)

/-! ## OPBUF (20_memory.md R54, R60) -/

/-- A permitted write to `OPBUF[i]`, as the state that it leaves. -/
theorem step_of_idle_opbuf_write (off : BitVec 13) (i : Nat) (w : Word) (rest : List Move)
    (hoff : off.toNat = 0x1000 + 4 * i) (hi : i < s.L) (hp : s.pend = false)
    (hm : s.moves = .host (.write .word off w) :: rest) :
    step s = .next (((s.withMoves rest).writeOpbufWord i w).answering (some .ok)) := by
  have hw := (s.withMoves rest).busWrite_opbuf off i w hoff hi
  rw [State.withMoves_pend, hp] at hw
  exact step_of_permitted_write s _ off w rest _ hm hw

/-- A read of `OPBUF[i]` while the core is idle. -/
theorem step_of_idle_opbuf_read (off : BitVec 13) (i : Nat) (rest : List Move) (hoff : off.toNat = 0x1000 + 4 * i)
    (hi : i < s.L) (hp : s.pend = false) (hm : s.moves = .host (.read .word off) :: rest) :
    ∃ u, step s = .next u ∧ u.answer = some (.okData (s.opbufWord i)) := by
  refine ⟨_, step_of_read s _ off rest hm, ?_⟩
  rw [s.busRead_opbuf off i hoff hi, hp]
  rfl

/-- Byte `j` of a written word carries bits `8j+7 : 8j` (20_memory.md R54). -/
theorem opbufByte_writeOpbufWord_lane (i : Nat) (w : Word) (j : Nat) (hj : j < 4) :
    (s.writeOpbufWord i w).opbufByte (0x1000 + 4 * i + j) = w.extractLsb' (8 * j) 8 := by
  have hin : opbufOffset i ≤ 0x1000 + 4 * i + j ∧ 0x1000 + 4 * i + j < opbufOffset i + 4 := by
    rw [opbufOffset]
    omega
  rw [s.opbufByte_writeOpbufWord, if_pos hin, opbufOffset, Nat.add_sub_cancel_left]
  interval_cases j <;> rfl

/-- The first `n` words that ST leaves are the value, when `n` words hold it (46_data_movement.md R163). -/
theorem opbufValue_writeOpbufValue (v n : Nat) (hn : n ≤ s.L) (hv : v < BETA ^ n) :
    (s.writeOpbufValue v).opbufValue n = v := by
  have hwords : (List.range n).map (s.writeOpbufValue v).opbufWord = (List.range n).map (limbWord v) :=
    List.map_congr_left fun i hi =>
      s.opbufWord_writeOpbufValue v i (Nat.lt_of_lt_of_le (List.mem_range.mp hi) hn)
  rw [State.opbufValue, hwords, val_limbs_of_lt v n hv]

/-! ## One command after another -/

@[simp] theorem State.readReg_retire (r : Reg) : s.retire.readReg r = s.readReg r := rfl

theorem State.writeReg_writeReg_self (r : Reg) (v u : Nat) : (s.writeReg r v).writeReg r u = s.writeReg r u := by
  simp only [State.writeReg, Vector.set_set]

/-- A register written by one command and again by the next holds what the second wrote. -/
theorem State.rewriteReg_retire (r : Reg) (v u : Nat) :
    ((s.writeReg r v).retire.writeReg r u).retire = (s.writeReg r u).retire := by
  rw [← s.writeReg_writeReg_self r v u]
  rfl

/-- Two sources can be read in either order: an invalid one raises the same fault. -/
theorem State.sources_comm {α : Type} (ra rb : Reg) (k k' : Nat → Nat → Except FaultCode α)
    (hk : ∀ a b, k a b = k' b a) :
    (do let a ← s.source ra; let b ← s.source rb; k a b) = (do let b ← s.source rb; let a ← s.source ra; k' b a) := by
  rcases s.source_cases ra with ⟨a, -, ea⟩ | ⟨-, ea⟩ <;> rcases s.source_cases rb with ⟨b, -, eb⟩ | ⟨-, eb⟩
  · simp only [ea, eb, phase_ok, hk]
  · simp only [ea, eb, phase_ok, phase_error]
  · simp only [ea, eb, phase_ok, phase_error]
  · simp only [ea, eb, phase_error]

variable (rd ra rb : Reg)

/-! ## ADD (40_adder.md R102) -/

theorem exec_add_comm : exec (.add rd ra rb) s = exec (.add rd rb ra) s :=
  congrArg s.conclude (s.sources_comm ra rb _ _ fun a b => by rw [Nat.add_comm a b])

theorem exec_add_zero (hi : s.Inv) (hb : s.readReg rb = some 0) : exec (.add rd ra rb) s = exec (.mov rd ra) s := by
  cases ha : s.readReg ra with
  | none => rw [exec_add_of_none s rd ra rb (.inl ha), exec_mov_of_none s rd ra ha]
  | some a => rw [exec_add_of_fits s rd ra rb a 0 ha hb (hi.regsFit ra a ha), exec_mov_of_some s rd ra a ha, Nat.add_zero]

/-- An ADD that leaves no fault recorded has completed. -/
theorem exec_add_completed (t : State) (h : exec (.add rd ra rb) s = .next t) (ht : t.err = none) :
    ∃ a b, s.readReg ra = some a ∧ s.readReg rb = some b ∧ t = (s.writeReg rd (a + b)).retire := by
  cases ha : s.readReg ra with
  | none =>
    rw [exec_add_of_none s rd ra rb (.inl ha)] at h
    cases h
    cases ht
  | some a =>
    cases hb : s.readReg rb with
    | none =>
      rw [exec_add_of_none s rd ra rb (.inr hb)] at h
      cases h
      cases ht
    | some b =>
      rcases Nat.lt_or_ge (a + b) (BETA ^ s.L) with hfits | hlarge
      · rw [exec_add_of_fits s rd ra rb a b ha hb hfits] at h
        cases h
        exact ⟨a, b, rfl, rfl, rfl⟩
      · rw [exec_add_of_overflow s rd ra rb a b ha hb hlarge] at h
        cases h
        cases ht

/-- No command clears a fault, so one that leaves none recorded started with none. -/
theorem err_none_of_exec (i : Instr) (t : State) (h : exec i s = .next t) (ht : t.err = none) : s.err = none := by
  rcases exec_err s i t h with he | ⟨f, -, rfl⟩
  · exact he ▸ ht
  · cases ht

/-- Two ADDs in a row into one register that the second reads first and whose other operand is another register. -/
theorem exec_add_add (rc : Reg) (hrc : rc ≠ rd) (t u : State) (h : exec (.add rd ra rb) s = .next t)
    (h' : exec (.add rd rd rc) t = .next u) (hu : u.err = none) :
    ∃ a b c, s.readReg ra = some a ∧ s.readReg rb = some b ∧ s.readReg rc = some c ∧
      u = (s.writeReg rd (a + b + c)).retire := by
  obtain ⟨a, b, ha, hb, rfl⟩ := exec_add_completed s rd ra rb t h (err_none_of_exec t _ u h' hu)
  obtain ⟨x, c, hx, hc, rfl⟩ := exec_add_completed _ rd rd rc u h' hu
  rw [State.readReg_retire, State.readReg_writeReg_self] at hx
  cases hx
  rw [State.readReg_retire, s.readReg_writeReg_of_ne rd rc (a + b) hrc] at hc
  exact ⟨a, b, c, ha, hb, hc, s.rewriteReg_retire rd _ _⟩

/-! ## MUL (42_multiplier.md R122) -/

theorem exec_mul_comm : exec (.mul rd ra rb) s = exec (.mul rd rb ra) s :=
  congrArg s.conclude (s.sources_comm ra rb _ _ fun a b => by rw [Nat.mul_comm a b])

theorem exec_mul_one (hi : s.Inv) (hb : s.readReg rb = some 1) : exec (.mul rd ra rb) s = exec (.mov rd ra) s := by
  cases ha : s.readReg ra with
  | none => rw [exec_mul_of_none s rd ra rb (.inl ha), exec_mov_of_none s rd ra ha]
  | some a =>
    have hfits : a * 1 < BETA ^ s.L := by rw [Nat.mul_one]; exact hi.regsFit ra a ha
    rw [exec_mul_of_fits s rd ra rb a 1 ha hb hfits, exec_mov_of_some s rd ra a ha, Nat.mul_one]

end Sys2Proof.Machine

/-! ## The statements -/

namespace Sys2Proof.Proofs

open Sys2Proof.Machine

/-- Settles O37: the length of a value in range, its leading limb, and the sum of its limbs. -/
theorem validRegistersAreNormalized : Obligations.ValidRegistersAreNormalized := by
  intro s hi r v hv
  refine ⟨nlimbs_pos v, (nlimbs_le_iff v s.L s.cap.property.1).mpr (hi.regsFit r v hv), limb_top_ne_zero v,
    limb_eq_zero v, ?_, sum_limbs v⟩
  rintro rfl
  exact ⟨nlimbs_zero, by simp [limb]⟩

/-- Settles O49: the two steps, the lanes of the word, and the other words by what one write does. -/
theorem opbufWriteThenRead : Obligations.OpbufWriteThenRead := by
  intro s off i w rest hoff hi hp hm
  have hwrite := step_of_idle_opbuf_write s off i w _ hoff hi hp hm
  obtain ⟨u, hread, hu⟩ := step_of_idle_opbuf_read
    (((s.withMoves (.host (.read .word off) :: rest)).writeOpbufWord i w).answering (some .ok)) off i rest hoff hi hp rfl
  refine ⟨_, u, hwrite, hread, rfl, hu.trans ?_, fun j hj => ?_, fun k hk => ?_⟩
  · exact congrArg (fun x => some (Answer.okData x)) (State.opbufWord_writeOpbufWord_self _ i w)
  · exact opbufByte_writeOpbufWord_lane (s.withMoves _) i w j hj
  · exact State.opbufWord_writeOpbufWord_of_ne (s.withMoves _) i k w hk

/-- Settles O50: ST leaves `limbWord v i` in word `i`, and PEND 0, so that the read is permitted. -/
theorem storedLimbsReadBack : Obligations.StoredLimbsReadBack := by
  intro s t ra v off i rest hv h hi hoff hm
  rw [exec_st_of_valid s ra v hv] at h
  cases h
  obtain ⟨u, hread, hu⟩ := step_of_idle_opbuf_read
    ((s.writeOpbufValue v).writeRlen (nlimbs v)).retire off i rest hoff hi rfl hm
  refine ⟨u, hread, hu.trans ?_⟩
  exact congrArg (fun x => some (Answer.okData x)) (s.opbufWord_writeOpbufValue v i hi)

/-- Settles O51: RLEN is the length of the value, so that any count from RLEN to `L` covers it. -/
theorem storeThenLoadCopies : Obligations.StoreThenLoadCopies := by
  intro s t ra rd n v hv hfits h hn hL
  rw [exec_st_of_valid s ra v hv] at h
  cases h
  obtain ⟨-, hrlen⟩ := rlen_toNat_of_fits s v hfits
  have hlen : nlimbs v ≤ n.toNat := hrlen ▸ hn
  have hpos : 1 ≤ n.toNat := (nlimbs_pos v).trans hlen
  have hvalue := opbufValue_writeOpbufValue s v n.toNat hL ((nlimbs_le_iff v _ hpos).mp hlen)
  refine ⟨_, exec_ld_of_legal _ rd n ⟨hpos, hL⟩, ?_, rfl⟩
  rw [State.readReg_retire, State.readReg_writeReg_self]
  exact congrArg some hvalue

/-- Settles O52: the laws of the sum of naturals, carried by the registers from one command to the next. -/
theorem adderLaws : Obligations.AdderLaws := by
  refine ⟨exec_add_comm, exec_add_zero, ?assoc, ?undo⟩
  case assoc =>
    intro s t u t' u' rd ra rb rc hrd hs ht hu hue ht' hu' hue'
    obtain ⟨hra, -, hrc⟩ : rd ≠ ra ∧ rd ≠ rb ∧ rd ≠ rc := by simpa using hrd
    rw [exec_add_comm] at hu'
    obtain ⟨a, b, c, ha, hb, hc, rfl⟩ := exec_add_add s rd ra rb rc hrc.symm t u ht hu hue
    obtain ⟨b', c', a', hb', hc', ha', rfl⟩ := exec_add_add s rd rb rc ra hra.symm t' u' ht' hu' hue'
    cases ha.symm.trans ha'
    cases hb.symm.trans hb'
    cases hc.symm.trans hc'
    rw [Nat.add_assoc, Nat.add_comm]
  case undo =>
    intro s t rd ra rb a hne hs ha h ht
    obtain ⟨a', b, ha', hb, rfl⟩ := exec_add_completed s rd ra rb t h ht
    cases ha.symm.trans ha'
    have hsum : (s.writeReg rd (a + b)).retire.readReg rd = some (a + b) := s.readReg_writeReg_self rd _
    have hb' : (s.writeReg rd (a + b)).retire.readReg rb = some b := (s.readReg_writeReg_of_ne rd rb _ hne.symm).trans hb
    exact ⟨_, exec_sub_of_eq_add _ rd rd rb (a + b) b a hsum hb' (Nat.add_comm a b), ht, State.readReg_writeReg_self _ rd a⟩

/-- Settles O53: the laws of the product of naturals; a product with 0 is 0 and fits. -/
theorem multiplierLaws : Obligations.MultiplierLaws := by
  refine ⟨exec_mul_comm, exec_mul_one, fun s rd ra rb a ha hb => ?_⟩
  exact exec_mul_of_fits s rd ra rb a 0 ha hb (BETA_pow_pos s.L)

/-- Settles O54: `a / b * b` and then `a` itself are no larger than the dividend, which is in range, so that neither faults. -/
theorem divmodCheckedByTheCore : Obligations.DivmodCheckedByTheCore := by
  intro s rq rr ra rb rp a b hi hs ha hb h0 hqr hqb hrb hpr hpb
  have hfits : a < BETA ^ s.L := hi.regsFit ra a ha
  have hprod : a / b * b < BETA ^ s.L := Nat.lt_of_le_of_lt (Nat.div_mul_le_self a b) hfits
  have hsum : a / b * b + a % b = a := Nat.div_add_mod' a b
  obtain ⟨t, hdiv, htq, htr, htb, hte, htL⟩ : ∃ t, exec (.divmod rq rr ra rb) s = .next t ∧
      t.readReg rq = some (a / b) ∧ t.readReg rr = some (a % b) ∧ t.readReg rb = some b ∧ t.err = none ∧ t.L = s.L :=
    ⟨_, exec_divmod_of_ne_zero s rq rr ra rb hqr a b ha hb h0, by simp [State.readReg_writeReg_of_ne, hqr], by simp,
      by simp [State.readReg_writeReg_of_ne, hqb.symm, hrb.symm, hb], hs, rfl⟩
  obtain ⟨u, hmul, hup, hur, hub, hue, huL⟩ : ∃ u, exec (.mul rp rq rb) t = .next u ∧
      u.readReg rp = some (a / b * b) ∧ u.readReg rr = some (a % b) ∧ u.readReg rb = some b ∧ u.err = none ∧ u.L = s.L :=
    ⟨_, exec_mul_of_fits t rp rq rb _ b htq htb (htL ▸ hprod), by simp, by simp [State.readReg_writeReg_of_ne, hpr.symm, htr],
      by simp [State.readReg_writeReg_of_ne, hpb.symm, htb], hte, htL⟩
  obtain ⟨v, hadd, hvp, hvr, hvb, hve⟩ : ∃ v, exec (.add rp rp rr) u = .next v ∧
      v.readReg rp = some a ∧ v.readReg rr = some (a % b) ∧ v.readReg rb = some b ∧ v.err = none :=
    ⟨_, exec_add_of_fits u rp rp rr _ _ hup hur (by rw [hsum, huL]; exact hfits), by simp [hsum],
      by simp [State.readReg_writeReg_of_ne, hpr.symm, hur], by simp [State.readReg_writeReg_of_ne, hpb.symm, hub], hue⟩
  have hlt : a % b < b := Nat.mod_lt a (Nat.pos_of_ne_zero h0)
  exact ⟨t, u, v, _, hdiv, hmul, hadd, exec_cmp_of_some v rr rb _ b hvr hvb, hvp, compareFlag_of_lt _ b hlt, hve⟩

end Sys2Proof.Proofs
end

section
/-! PROOFS. The limb-level reference procedures in one pass: ADD (40_adder.md R101), CMP (44_compare.md R141) and SUB
(41_subtractor.md R112). First limb sequences and their values, then each chain on sequences of any length, then the statements. -/

namespace Sys2Proof.Machine

/-! ## Limb sequences and their values (00_scope.md R9) -/

theorem toLimb_toNat (n : Nat) (h : n < BETA) : (toLimb n).toNat = n := by
  rw [toLimb, BitVec.toNat_ofNat]
  exact Nat.mod_eq_of_lt h

@[simp] theorem limb_zero (v : Nat) : limb v 0 = v % BETA := by simp [limb]

theorem limb_succ (v i : Nat) : limb v (i + 1) = limb (v / BETA) i := by
  rw [limb, limb, Nat.pow_succ', Nat.div_div_eq_div_mul]

/-- A sequence is the limbs of its value: representation by limbs is unique at each length. -/
theorem limbAt_eq (ds : List Word) (i : Nat) : limbAt ds i = limb (val ds) i := by
  induction ds generalizing i with
  | nil => simp [limbAt, limb]
  | cons d ds ih =>
    have hd : d.toNat < BETA := d.isLt
    cases i with
    | zero => simp [limbAt, Nat.mod_eq_of_lt hd]
    | succ i =>
      rw [limb_succ, val_cons, Nat.add_mul_div_left _ _ BETA_pos, Nat.div_eq_of_lt hd, Nat.zero_add, ← ih]
      simp [limbAt]

@[simp] theorem length_limbsOf (v : Nat) : (limbsOf v).length = nlimbs v := by simp [limbsOf]

@[simp] theorem val_limbsOf (v : Nat) : val (limbsOf v) = v := val_limbs_of_lt v _ (lt_pow_nlimbs v)

@[simp] theorem limbAt_limbsOf (v i : Nat) : limbAt (limbsOf v) i = limb v i := by rw [limbAt_eq, val_limbsOf]

/-- A sequence of the right length is the limbs of its value. -/
theorem eq_limbsOf (ds : List Word) (h : ds.length = nlimbs (val ds)) : ds = limbsOf (val ds) := by
  refine List.ext_getElem (by simp [h]) fun i hi hi' => BitVec.eq_of_toNat_eq ?_
  have hlimb := limbAt_eq ds i
  rw [limbAt, List.getElem?_eq_getElem hi] at hlimb
  simpa [limbsOf] using hlimb

theorem nlimbs_mono {a b : Nat} (h : a ≤ b) : nlimbs a ≤ nlimbs b :=
  (nlimbs_le_iff a _ (nlimbs_pos b)).mpr (Nat.lt_of_le_of_lt h (lt_pow_nlimbs b))

/-! ## Normalization (00_scope.md R9) -/

theorem stripLimbs_cons_of_nil (d : Word) (ds : List Word) (h : stripLimbs ds = []) :
    stripLimbs (d :: ds) = if d = 0 then [] else [d] := by rw [stripLimbs, h]

theorem stripLimbs_cons_of_ne_nil (d : Word) (ds : List Word) (h : stripLimbs ds ≠ []) :
    stripLimbs (d :: ds) = d :: stripLimbs ds := by
  rw [stripLimbs]
  split
  next h0 => exact absurd h0 h
  next he => rw [he]

theorem val_stripLimbs (ds : List Word) : val (stripLimbs ds) = val ds := by
  induction ds with
  | nil => rfl
  | cons d ds ih =>
    rw [val_cons, ← ih]
    by_cases h0 : stripLimbs ds = []
    · rw [stripLimbs_cons_of_nil d ds h0, h0]
      split
      next hd => simp [hd]
      next => simp
    · rw [stripLimbs_cons_of_ne_nil d ds h0, val_cons]

/-- What is left after stripping has a leading limb that is not zero. -/
theorem pow_le_val_stripLimbs (ds : List Word) (h : stripLimbs ds ≠ []) :
    BETA ^ ((stripLimbs ds).length - 1) ≤ val (stripLimbs ds) := by
  induction ds with
  | nil => exact absurd rfl h
  | cons d ds ih =>
    by_cases h0 : stripLimbs ds = []
    · rw [stripLimbs_cons_of_nil d ds h0] at h ⊢
      have hd : d ≠ 0 := fun hd => h (if_pos hd)
      have hpos : 0 < d.toNat := Nat.pos_of_ne_zero fun hz => hd (BitVec.eq_of_toNat_eq hz)
      rw [if_neg hd]
      simpa [Nat.one_le_iff_ne_zero, Nat.pos_iff_ne_zero] using hpos
    · have hlen : 0 < (stripLimbs ds).length := List.length_pos_of_ne_nil h0
      rw [stripLimbs_cons_of_ne_nil d ds h0, val_cons, List.length_cons, Nat.add_sub_cancel,
        ← Nat.sub_add_cancel hlen, Nat.pow_succ']
      exact Nat.le_add_left_of_le (Nat.mul_le_mul_left BETA (ih h0))

theorem normalize_eq (ds : List Word) : normalize ds = limbsOf (val ds) := by
  have hval := val_stripLimbs ds
  have hlow := pow_le_val_stripLimbs ds
  rw [normalize]
  split
  next h0 =>
    rw [h0] at hval
    rw [← hval]
    rfl
  next e es he =>
    rw [he] at hval hlow
    rw [← hval]
    have hlt := val_lt (e :: es)
    exact eq_limbsOf _ (nlimbs_eq_of_bounds _ _ (by simp) (hlow (by simp)) hlt).symm

/-! ## Consecutive limbs of a value -/

/-- The number that limbs `i` to `i + k - 1` of `v` make up. -/
def slice (v i k : Nat) : Nat := v / BETA ^ i % BETA ^ k

@[simp] theorem slice_zero (v i : Nat) : slice v i 0 = 0 := by rw [slice, Nat.pow_zero, Nat.mod_one]

theorem slice_succ (v i k : Nat) : slice v i (k + 1) = limb v i + BETA * slice v (i + 1) k := by
  rw [slice, Nat.pow_succ', Nat.mod_mul, Nat.div_div_eq_div_mul, ← Nat.pow_succ]
  rfl

theorem slice_all (v k : Nat) (h : v < BETA ^ k) : slice v 0 k = v := by
  rw [slice, Nat.pow_zero, Nat.div_one, Nat.mod_eq_of_lt h]

/-! ## ADD (40_adder.md R101) -/

theorem addChain_succ (a b : List Word) (k i c : Nat) :
    addChain a b (k + 1) i c =
      (toLimb ((limbAt a i + limbAt b i + c) % BETA) ::
        (addChain a b k (i + 1) ((limbAt a i + limbAt b i + c) / BETA)).1,
      (addChain a b k (i + 1) ((limbAt a i + limbAt b i + c) / BETA)).2) := rfl

/-- The carry chain: `count` result limbs and a carry of at most 1, which together are the sum of the limbs it went over. -/
theorem addChain_spec (a b : List Word) (k i c : Nat) (hc : c ≤ 1) :
    (addChain a b k i c).1.length = k ∧ (addChain a b k i c).2 ≤ 1 ∧
      val (addChain a b k i c).1 + BETA ^ k * (addChain a b k i c).2 =
        slice (val a) i k + slice (val b) i k + c := by
  induction k generalizing i c with
  | zero => simp [addChain, hc]
  | succ k ih =>
    have ha := limb_lt (val a) i
    have hb := limb_lt (val b) i
    rw [addChain_succ, limbAt_eq, limbAt_eq, slice_succ, slice_succ]
    set t := limb (val a) i + limb (val b) i + c with ht
    have hcarry : t / BETA ≤ 1 := by
      have hlt : t < 2 * BETA := by omega
      exact Nat.le_of_lt_succ (Nat.div_lt_of_lt_mul (by omega))
    obtain ⟨hlen, hlast, hval⟩ := ih (i + 1) (t / BETA) hcarry
    refine ⟨by simp [hlen], hlast, ?_⟩
    have hsplit := Nat.mod_add_div t BETA
    rw [val_cons, toLimb_toNat _ (Nat.mod_lt _ BETA_pos), Nat.pow_succ']
    have hscaled : BETA * (_ + _) = BETA * _ := congrArg (BETA * ·) hval
    linarith

theorem refAdd_eq (L : Nat) (a b : List Word) : refAdd L a b =
    if (addChain a b (max a.length b.length) 0 0).2 = 1 then
      if max a.length b.length = L then .error .capacityOverflow
      else .ok ((addChain a b (max a.length b.length) 0 0).1 ++ [toLimb 1])
    else .ok (addChain a b (max a.length b.length) 0 0).1 := rfl

/-- The chain over the longer operand leaves the limbs of the sum, of the same length with carry 0 and one longer with
carry 1. -/
theorem addChain_limbsOf (a b k : Nat) (hk : k = max (nlimbs a) (nlimbs b)) :
    ((addChain (limbsOf a) (limbsOf b) k 0 0).2 = 0 ∧ nlimbs (a + b) = k ∧
        (addChain (limbsOf a) (limbsOf b) k 0 0).1 = limbsOf (a + b)) ∨
      ((addChain (limbsOf a) (limbsOf b) k 0 0).2 = 1 ∧ nlimbs (a + b) = k + 1 ∧
        (addChain (limbsOf a) (limbsOf b) k 0 0).1 ++ [toLimb 1] = limbsOf (a + b)) := by
  obtain ⟨hlen, hcarry, hval⟩ := addChain_spec (limbsOf a) (limbsOf b) k 0 0 (Nat.zero_le 1)
  generalize addChain (limbsOf a) (limbsOf b) k 0 0 = p at hlen hcarry hval
  obtain ⟨r, c⟩ := p
  have hpos : 1 ≤ k := hk ▸ (nlimbs_pos a).trans (Nat.le_max_left _ _)
  rw [val_limbsOf, val_limbsOf, slice_all a k ((nlimbs_le_iff a k hpos).mp (hk ▸ Nat.le_max_left _ _)),
    slice_all b k ((nlimbs_le_iff b k hpos).mp (hk ▸ Nat.le_max_right _ _)), Nat.add_zero] at hval
  rcases Nat.le_one_iff_eq_zero_or_eq_one.mp hcarry with h0 | h1
  · have hsum : val r = a + b := by simpa [show c = 0 from h0] using hval
    have hn : nlimbs (a + b) = k := by
      refine Nat.le_antisymm ((nlimbs_le_iff _ k hpos).mpr ?_) (hk ▸ Nat.max_le.mpr
        ⟨nlimbs_mono (Nat.le_add_right a b), nlimbs_mono (Nat.le_add_left b a)⟩)
      rw [← hsum, ← hlen]
      exact val_lt r
    exact .inl ⟨h0, hn, hsum ▸ eq_limbsOf r (by rw [hsum, hn, ← hlen])⟩
  · have hlen' : (r ++ [toLimb 1]).length = k + 1 := by simp [← hlen]
    have hsum : val (r ++ [toLimb 1]) = a + b := by
      rw [← hval, val_append, hlen, h1]
      rfl
    have hn : nlimbs (a + b) = k + 1 := by
      refine nlimbs_eq_of_bounds _ _ (Nat.le_add_left 1 k) ?_ ?_
      · rw [← hval, h1, Nat.add_sub_cancel, Nat.mul_one]
        exact Nat.le_add_left _ _
      · rw [← hsum, ← hlen']
        exact val_lt _
    exact .inr ⟨h1, hn, hsum ▸ eq_limbsOf _ (by rw [hsum, hn, hlen'])⟩

theorem refAdd_limbsOf (L a b : Nat) (hL : 1 ≤ L) (ha : a < BETA ^ L) (hb : b < BETA ^ L) :
    refAdd L (limbsOf a) (limbsOf b) = if a + b < BETA ^ L then .ok (limbsOf (a + b)) else .error .capacityOverflow := by
  have hk : max (nlimbs a) (nlimbs b) ≤ L :=
    Nat.max_le.mpr ⟨(nlimbs_le_iff a L hL).mpr ha, (nlimbs_le_iff b L hL).mpr hb⟩
  rw [refAdd_eq, length_limbsOf, length_limbsOf]
  simp only [← nlimbs_le_iff (a + b) L hL]
  rcases addChain_limbsOf a b _ rfl with ⟨h0, hn, hr⟩ | ⟨h1, hn, hr⟩
  · rw [h0, hr, if_neg Nat.zero_ne_one, if_pos (hn ▸ hk)]
  · rw [h1, hr, hn, if_pos rfl]
    split_ifs with hfull hfits hfits
    · omega
    · rfl
    · rfl
    · omega

/-! ## CMP (44_compare.md R141) -/

/-- The low `n + 1` limbs are the low `n` limbs and the next. -/
theorem mod_pow_succ (v n : Nat) : v % BETA ^ (n + 1) = v % BETA ^ n + BETA ^ n * limb v n := by
  rw [Nat.pow_succ, Nat.mod_mul, limb]

/-- A larger leading digit decides, whatever stands below it. -/
theorem add_mul_lt_of_lt {p x y d e : Nat} (hx : x < p) (h : d < e) : x + p * d < y + p * e :=
  calc x + p * d < p + p * d := Nat.add_lt_add_right hx _
    _ = p * (d + 1) := by ring
    _ ≤ p * e := Nat.mul_le_mul_left p h
    _ ≤ y + p * e := Nat.le_add_left _ _

theorem compareDown_eq (a b : List Word) (n : Nat) :
    compareDown a b n = compareFlag (val a % BETA ^ n) (val b % BETA ^ n) := by
  induction n with
  | zero => simp [compareDown, compareFlag, Nat.mod_one]
  | succ n ih =>
    have ha : val a % BETA ^ n < BETA ^ n := Nat.mod_lt _ (BETA_pow_pos n)
    have hb : val b % BETA ^ n < BETA ^ n := Nat.mod_lt _ (BETA_pow_pos n)
    rw [compareDown, limbAt_eq, limbAt_eq, mod_pow_succ, mod_pow_succ, ih]
    split_ifs with hlt hgt
    · exact (compareFlag_of_lt _ _ (add_mul_lt_of_lt ha hlt)).symm
    · exact (compareFlag_of_gt _ _ (add_mul_lt_of_lt hb hgt)).symm
    · have heq : limb (val a) n = limb (val b) n := by omega
      simp only [compareFlag, heq, Nat.add_lt_add_iff_right, Nat.add_right_cancel_iff]

theorem refCompare_limbsOf (a b : Nat) : refCompare (limbsOf a) (limbsOf b) = compareFlag a b := by
  rw [refCompare, length_limbsOf, length_limbsOf]
  split_ifs with hlt hgt
  · have h : a < b := Nat.lt_of_not_le fun hle => Nat.not_le.mpr hlt (nlimbs_mono hle)
    exact (compareFlag_of_lt a b h).symm
  · have h : b < a := Nat.lt_of_not_le fun hle => Nat.not_le.mpr hgt (nlimbs_mono hle)
    exact (compareFlag_of_gt a b h).symm
  · have hlen : nlimbs a = nlimbs b := by omega
    rw [compareDown_eq, val_limbsOf, val_limbsOf, Nat.mod_eq_of_lt (lt_pow_nlimbs a),
      Nat.mod_eq_of_lt (hlen ▸ lt_pow_nlimbs b)]

/-! ## SUB (41_subtractor.md R112) -/

theorem subChain_succ_of_lt (a b : List Word) (k i bw : Nat) (h : limbAt a i < limbAt b i + bw) :
    subChain a b (k + 1) i bw = toLimb (limbAt a i + BETA - (limbAt b i + bw)) :: subChain a b k (i + 1) 1 := by
  have hneg : (limbAt a i : Int) - limbAt b i - bw < 0 := by omega
  have hdigit : ((limbAt a i : Int) - limbAt b i - bw + BETA).toNat = limbAt a i + BETA - (limbAt b i + bw) := by omega
  rw [subChain]
  simp only [if_pos hneg, hdigit]

theorem subChain_succ_of_ge (a b : List Word) (k i bw : Nat) (h : limbAt b i + bw ≤ limbAt a i) :
    subChain a b (k + 1) i bw = toLimb (limbAt a i - (limbAt b i + bw)) :: subChain a b k (i + 1) 0 := by
  have hpos : ¬(limbAt a i : Int) - limbAt b i - bw < 0 := by omega
  have hdigit : ((limbAt a i : Int) - limbAt b i - bw).toNat = limbAt a i - (limbAt b i + bw) := by omega
  rw [subChain]
  simp only [if_neg hpos, hdigit]

/-- One digit of a subtraction with a borrow: the rest of the minuend exceeds the rest of the subtrahend, and what the other
digits leave completes the difference. -/
theorem borrow_digit {B x y bw sa sb : Nat} (hy : y < B) (hbw : bw ≤ 1) (hlt : x < y + bw)
    (h : y + B * sb + bw ≤ x + B * sa) :
    sb + 1 ≤ sa ∧ ∀ r, r + sb + 1 = sa → x + B - (y + bw) + B * r + (y + B * sb) + bw = x + B * sa := by
  refine ⟨Nat.lt_of_mul_lt_mul_left (a := B) (by omega), fun r hr => ?_⟩
  subst hr
  rw [Nat.mul_add, Nat.mul_add]
  omega

/-- One digit of a subtraction without a borrow. -/
theorem no_borrow_digit {B x y bw sa sb : Nat} (hx : x < B) (hge : y + bw ≤ x)
    (h : y + B * sb + bw ≤ x + B * sa) :
    sb ≤ sa ∧ ∀ r, r + sb = sa → x - (y + bw) + B * r + (y + B * sb) + bw = x + B * sa := by
  refine ⟨Nat.le_of_lt_succ (Nat.lt_of_mul_lt_mul_left (a := B) (by rw [Nat.mul_succ]; omega)), fun r hr => ?_⟩
  subst hr
  rw [Nat.mul_add]
  omega

/-- The borrow chain, where the limbs it goes over are enough for those it takes away: what it leaves is the difference. -/
theorem subChain_spec (a b : List Word) (k i bw : Nat) (hbw : bw ≤ 1)
    (h : slice (val b) i k + bw ≤ slice (val a) i k) :
    val (subChain a b k i bw) + slice (val b) i k + bw = slice (val a) i k := by
  induction k generalizing i bw with
  | zero =>
    simp only [slice_zero] at h ⊢
    simp [subChain]
    omega
  | succ k ih =>
    have ha := limb_lt (val a) i
    have hb := limb_lt (val b) i
    rw [slice_succ, slice_succ] at h ⊢
    rw [← limbAt_eq, ← limbAt_eq] at h ⊢
    rw [← limbAt_eq] at ha hb
    rcases Nat.lt_or_ge (limbAt a i) (limbAt b i + bw) with hlt | hge
    · obtain ⟨hrest, hdigit⟩ := borrow_digit hb hbw hlt h
      have hfits : limbAt a i + BETA - (limbAt b i + bw) < BETA := by omega
      rw [subChain_succ_of_lt a b k i bw hlt, val_cons, toLimb_toNat _ hfits]
      exact hdigit _ (ih (i + 1) 1 (Nat.le_refl 1) hrest)
    · obtain ⟨hrest, hdigit⟩ := no_borrow_digit ha hge h
      have hfits : limbAt a i - (limbAt b i + bw) < BETA := by omega
      rw [subChain_succ_of_ge a b k i bw hge, val_cons, toLimb_toNat _ hfits]
      have hval := ih (i + 1) 0 (Nat.zero_le 1) (by rwa [Nat.add_zero])
      rw [Nat.add_zero] at hval
      exact hdigit _ hval

theorem refSub_limbsOf (a b : Nat) :
    refSub (limbsOf a) (limbsOf b) = if a < b then .error .arithmeticUnderflow else .ok (limbsOf (a - b)) := by
  rw [refSub, refCompare_limbsOf]
  by_cases hlt : a < b
  · rw [if_pos (compareFlag_of_lt a b hlt), if_pos hlt]
  · have hflag : compareFlag a b ≠ .lt := by
      rw [compareFlag, if_neg hlt]
      split <;> exact nofun
    have hle : b ≤ a := Nat.le_of_not_lt hlt
    have ha := slice_all a _ (lt_pow_nlimbs a)
    have hb := slice_all b _ (Nat.lt_of_le_of_lt hle (lt_pow_nlimbs a))
    have hspec := subChain_spec (limbsOf a) (limbsOf b) (nlimbs a) 0 0 (Nat.zero_le 1)
    rw [val_limbsOf, val_limbsOf, ha, hb] at hspec
    have hval : val (subChain (limbsOf a) (limbsOf b) (nlimbs a) 0 0) = a - b := by
      have := hspec hle
      omega
    rw [if_neg hflag, if_neg hlt, normalize_eq, length_limbsOf, hval]

end Sys2Proof.Machine

/-! ## The statements -/

namespace Sys2Proof.Proofs

open Sys2Proof.Machine

/-- Settles O55: the chain's limbs and carry are the sum, and the carry is 1 exactly when the sum is one limb longer. -/
theorem carryChainAddsExactly : Obligations.CarryChainAddsExactly := by
  refine fun L a b hL ha hb => ⟨?_, refAdd_limbsOf L a b hL ha hb⟩
  rcases addChain_limbsOf a b _ rfl with ⟨-, hn, -⟩ | ⟨-, hn, -⟩
  · exact .inl hn
  · exact .inr hn

/-- Settles O56: the comparison is the numeric one, the chain leaves a number equal to the difference, and stripping leaves its
limbs. -/
theorem borrowChainSubtractsExactly : Obligations.BorrowChainSubtractsExactly := refSub_limbsOf

/-- Settles O59: a longer number is larger, and between numbers of one length the leading digit that differs decides. -/
theorem limbCompareIsNumericOrder : Obligations.LimbCompareIsNumericOrder := refCompare_limbsOf

end Sys2Proof.Proofs
end

section
/-! PROOFS. The limb-level reference procedures in two loops: MUL (42_multiplier.md R121), DIVMOD (43_divider.md R132) and MODEXP
(45_modexp.md R151). First what storing one limb does to a value, then the loops from the inner to the outer, then the
statements. -/

namespace Sys2Proof.Machine

/-! ## Storing one limb -/

/-- Storing a limb takes the old one's share from the value and adds the new one's. -/
theorem val_set (ds : List Word) (i : Nat) (x : Word) (h : i < ds.length) :
    val (ds.set i x) + limbAt ds i * BETA ^ i = val ds + x.toNat * BETA ^ i := by
  induction ds generalizing i with
  | nil => exact absurd h (Nat.not_lt_zero i)
  | cons d ds ih =>
    cases i with
    | zero =>
      have h0 : limbAt (d :: ds) 0 = d.toNat := rfl
      rw [List.set_cons_zero, val_cons, val_cons, h0]
      ring
    | succ i =>
      have hi : limbAt (d :: ds) (i + 1) = limbAt ds i := rfl
      have hscaled : BETA * (_ + _) = BETA * (_ + _) := congrArg (BETA * ·) (ih i (Nat.lt_of_succ_lt_succ h))
      rw [List.set_cons_succ, val_cons, val_cons, hi, Nat.pow_succ]
      linarith

theorem limbAt_set_of_ne (ds : List Word) (i j : Nat) (x : Word) (h : i ≠ j) :
    limbAt (ds.set i x) j = limbAt ds j := by
  rw [limbAt, limbAt, List.getElem?_set_ne h]

theorem val_replicate_zero (n : Nat) : val (List.replicate n 0) = 0 := by
  induction n with
  | zero => rfl
  | succ n ih => rw [List.replicate_succ, val_cons, ih]; rfl

/-! ## MUL (42_multiplier.md R121) -/

/-- The bound of R121 on the inner loop's `t`. -/
theorem mulStep_lt (r a b c : Nat) (hr : r < BETA) (ha : a < BETA) (hb : b < BETA) (hc : c < BETA) :
    r + a * b + c < BETA ^ 2 := by
  have hab : a * b ≤ (BETA - 1) * (BETA - 1) := Nat.mul_le_mul (Nat.le_sub_one_of_lt ha) (Nat.le_sub_one_of_lt hb)
  have hsq : (BETA - 1) * (BETA - 1) + 2 * (BETA - 1) < BETA ^ 2 := by decide
  omega

theorem mulRow_succ (ai : Nat) (b : List Word) (i k j c : Nat) (r : List Word) :
    mulRow ai b i (k + 1) j c r =
      mulRow ai b i k (j + 1) ((limbAt r (i + j) + ai * limbAt b j + c) / BETA)
        (r.set (i + j) (toLimb ((limbAt r (i + j) + ai * limbAt b j + c) % BETA))) := rfl

/-- One row: the accumulator keeps its length and the limbs above the row, and the row's product and the carry are added at
the row's place. -/
theorem mulRow_spec (ai : Nat) (hai : ai < BETA) (b : List Word) (i k j c : Nat) (r : List Word) (hc : c < BETA)
    (hlen : i + j + k ≤ r.length) :
    (mulRow ai b i k j c r).1.length = r.length ∧ (mulRow ai b i k j c r).2 < BETA ∧
      (∀ n, i + j + k ≤ n → limbAt (mulRow ai b i k j c r).1 n = limbAt r n) ∧
      val (mulRow ai b i k j c r).1 + (mulRow ai b i k j c r).2 * BETA ^ (i + j + k) =
        val r + (ai * slice (val b) j k + c) * BETA ^ (i + j) := by
  induction k generalizing j c r with
  | zero => simp [mulRow, hc]
  | succ k ih =>
    rw [mulRow_succ]
    set t := limbAt r (i + j) + ai * limbAt b j + c with ht
    have htlt : t < BETA ^ 2 := mulStep_lt _ _ _ _ (limbAt_eq r _ ▸ limb_lt _ _) hai (limbAt_eq b _ ▸ limb_lt _ _) hc
    have hcarry : t / BETA < BETA := Nat.div_lt_of_lt_mul (Nat.pow_two BETA ▸ htlt)
    have hindex : i + (j + 1) + k = i + j + (k + 1) := by omega
    obtain ⟨hlen', hlast, hkeep, hval⟩ := ih (j + 1) (t / BETA) (r.set (i + j) (toLimb (t % BETA))) hcarry
      (by rw [List.length_set, hindex]; exact hlen)
    rw [hindex] at hkeep hval
    refine ⟨by rw [hlen', List.length_set], hlast, fun n hn => ?_, ?_⟩
    · rw [hkeep n hn, limbAt_set_of_ne _ _ _ _ (by omega)]
    · have hset := val_set r (i + j) (toLimb (t % BETA)) (by omega)
      rw [toLimb_toNat _ (Nat.mod_lt t BETA_pos)] at hset
      have hsplit : BETA ^ (i + j) * (t % BETA + BETA * (t / BETA)) =
          BETA ^ (i + j) * (limbAt r (i + j) + ai * limbAt b j + c) :=
        congrArg (BETA ^ (i + j) * ·) ((Nat.mod_add_div t BETA).trans ht)
      have hpow : BETA ^ (i + (j + 1)) = BETA ^ (i + j) * BETA := by rw [← Nat.add_assoc, Nat.pow_succ]
      rw [hpow] at hval
      rw [slice_succ, ← limbAt_eq]
      linarith

theorem mulRows_succ (a b : List Word) (k i : Nat) (r : List Word) :
    mulRows a b (k + 1) i r = mulRows a b k (i + 1)
      ((mulRow (limbAt a i) b i b.length 0 0 r).1.set (i + b.length)
        (toLimb (mulRow (limbAt a i) b i b.length 0 0 r).2)) := rfl

/-- The rows from `i` on: the accumulator, which is zero where the rows have not come yet, gains their products. -/
theorem val_mulRows (a b : List Word) (k i : Nat) (r : List Word) (hlen : i + k + b.length ≤ r.length)
    (hzero : ∀ n, i + b.length ≤ n → limbAt r n = 0) :
    val (mulRows a b k i r) = val r + slice (val a) i k * val b * BETA ^ i := by
  induction k generalizing i r with
  | zero => simp [mulRows]
  | succ k ih =>
    rw [mulRows_succ]
    obtain ⟨hlen', hlast, hkeep, hval⟩ := mulRow_spec (limbAt a i) (limbAt_eq a i ▸ limb_lt _ _) b i b.length 0 0 r
      BETA_pos (by omega)
    generalize mulRow (limbAt a i) b i b.length 0 0 r = p at hlen' hlast hkeep hval
    rw [slice_all _ _ (val_lt b)] at hval
    simp only [Nat.add_zero] at hkeep hval
    have hset := val_set p.1 (i + b.length) (toLimb p.2) (by omega)
    rw [hkeep _ (Nat.le_refl _), hzero _ (Nat.le_refl _), toLimb_toNat _ hlast] at hset
    rw [ih (i + 1) _ (by rw [List.length_set]; omega) fun n hn => ?_]
    · rw [slice_succ, ← limbAt_eq, Nat.pow_succ]
      linarith
    · rw [limbAt_set_of_ne _ _ _ _ (by omega), hkeep n (by omega), hzero n (by omega)]

theorem refMul_limbsOf (L a b : Nat) (hL : 1 ≤ L) : refMul L (limbsOf a) (limbsOf b) =
    if a * b < BETA ^ L then .ok (limbsOf (a * b)) else .error .capacityOverflow := by
  have hval : val (mulRows (limbsOf a) (limbsOf b) (nlimbs a) 0 (List.replicate (nlimbs a + nlimbs b) 0)) = a * b := by
    rw [val_mulRows _ _ _ _ _ (by simp) fun n _ => by rw [limbAt_eq, val_replicate_zero]; simp [limb],
      val_replicate_zero, val_limbsOf, val_limbsOf, slice_all a _ (lt_pow_nlimbs a)]
    simp
  rw [refMul, length_limbsOf, length_limbsOf, normalize_eq, hval]
  simp only [length_limbsOf, gt_iff_lt, ← Nat.not_le, nlimbs_le_iff _ L hL, ite_not]

/-! ## DIVMOD (43_divider.md R132) -/

/-- The search ends, within as many rounds as the interval has bits, at the largest digit whose product fits. -/
theorem digitSearch_spec (b r fuel lo hi : Nat) (hlow : lo * b ≤ r) (hhigh : r < (hi + 1) * b) (hle : lo ≤ hi)
    (hfuel : hi - lo < 2 ^ fuel) :
    digitSearch b r fuel lo hi * b ≤ r ∧ r < (digitSearch b r fuel lo hi + 1) * b := by
  induction fuel generalizing lo hi with
  | zero =>
    have heq : hi = lo := by omega
    exact ⟨hlow, heq ▸ hhigh⟩
  | succ fuel ih =>
    rw [Nat.pow_succ] at hfuel
    rw [digitSearch]
    split_ifs with hlt hmid
    · exact ih _ hi hmid hhigh (by omega) (by omega)
    · have hpred : (lo + hi + 1) / 2 - 1 + 1 = (lo + hi + 1) / 2 := by omega
      exact ih lo _ hlow (by rw [hpred]; exact Nat.lt_of_not_le hmid) (by omega) (by omega)
    · have heq : hi = lo := by omega
      exact ⟨hlow, heq ▸ hhigh⟩

/-- 32 rounds are enough for a digit (43_divider.md R132). -/
theorem digitSearch_digit (b r : Nat) (h : r < b * BETA) :
    digitSearch b r 32 0 (BETA - 1) * b ≤ r ∧ r < (digitSearch b r 32 0 (BETA - 1) + 1) * b :=
  digitSearch_spec b r 32 0 (BETA - 1) (by simp) (by rwa [Nat.sub_add_cancel BETA_pos, Nat.mul_comm]) (Nat.zero_le _)
    (by decide)

theorem divLoop_succ (b : Nat) (a : List Word) (i r : Nat) (q : List Word) :
    divLoop b a (i + 1) r q =
      divLoop b a i (r * BETA + limbAt a i - digitSearch b (r * BETA + limbAt a i) 32 0 (BETA - 1) * b)
        (toLimb (digitSearch b (r * BETA + limbAt a i) 32 0 (BETA - 1)) :: q) := rfl

/-- The loop over the low `i` limbs puts their quotient digits before those found so far, and leaves the remainder. -/
theorem divLoop_spec (b : Nat) (a : List Word) (i r : Nat) (q : List Word) (hr : r < b) :
    ∃ ds, ds.length = i ∧ (divLoop b a i r q).1 = ds ++ q ∧ (divLoop b a i r q).2 < b ∧
      val ds * b + (divLoop b a i r q).2 = r * BETA ^ i + val a % BETA ^ i := by
  induction i generalizing r q with
  | zero => exact ⟨[], rfl, rfl, hr, by simp [divLoop, Nat.mod_one]⟩
  | succ i ih =>
    rw [divLoop_succ]
    have hlimb : limbAt a i < BETA := limbAt_eq a i ▸ limb_lt _ _
    have hnext : r * BETA + limbAt a i < b * BETA :=
      calc r * BETA + limbAt a i < (r + 1) * BETA := by rw [Nat.succ_mul]; omega
        _ ≤ b * BETA := Nat.mul_le_mul_right _ hr
    obtain ⟨hle, hlt⟩ := digitSearch_digit b _ hnext
    generalize digitSearch b (r * BETA + limbAt a i) 32 0 (BETA - 1) = d at hle hlt
    have hd : d < BETA := by
      refine Nat.lt_of_mul_lt_mul_right (a := b) (Nat.lt_of_le_of_lt hle ?_)
      rwa [Nat.mul_comm BETA]
    have hrest : r * BETA + limbAt a i - d * b < b := by
      rw [Nat.succ_mul] at hlt
      omega
    obtain ⟨ds, hlen, hq, hlast, hval⟩ := ih (r * BETA + limbAt a i - d * b) (toLimb d :: q) hrest
    refine ⟨ds ++ [toLimb d], by simp [hlen], by simp [hq], hlast, ?_⟩
    have hback : BETA ^ i * (_ + _) = BETA ^ i * (_ + _) := congrArg (BETA ^ i * ·) (Nat.sub_add_cancel hle)
    rw [val_append, hlen, val_cons, val_nil, toLimb_toNat d hd, mod_pow_succ, ← limbAt_eq, Nat.pow_succ]
    linarith

theorem refDivmod_eq (a : List Word) (b : Nat) (h : b ≠ 0) :
    refDivmod a b = .ok (normalize (divLoop b a a.length 0 []).1, (divLoop b a a.length 0 []).2) := if_neg h

theorem refDivmod_limbsOf (a b : Nat) :
    refDivmod (limbsOf a) b = if b = 0 then .error .divisionByZero else .ok (limbsOf (a / b), a % b) := by
  split
  next h0 => exact if_pos h0
  next h0 =>
    have hpos : 0 < b := Nat.pos_of_ne_zero h0
    obtain ⟨ds, -, hq, hlast, hval⟩ := divLoop_spec b (limbsOf a) (nlimbs a) 0 [] hpos
    rw [refDivmod_eq _ b h0, length_limbsOf, hq, List.append_nil, normalize_eq]
    rw [Nat.zero_mul, Nat.zero_add, val_limbsOf, Nat.mod_eq_of_lt (lt_pow_nlimbs a), Nat.add_comm, Nat.mul_comm] at hval
    obtain ⟨hdiv, hmod⟩ := (Nat.div_mod_unique hpos).mpr ⟨hval, hlast⟩
    rw [hdiv, hmod]

/-! ## MODEXP (45_modexp.md R152) -/

theorem mul_lt_pow_two_mul (L x y : Nat) (hx : x < BETA ^ L) (hy : y < BETA ^ L) : x * y < BETA ^ (2 * L) := by
  rw [Nat.two_mul, Nat.pow_add]
  exact Nat.mul_lt_mul'' hx hy

end Sys2Proof.Machine

/-! ## The statements -/

namespace Sys2Proof.Proofs

open Sys2Proof.Machine

/-- Settles O57: each row adds its product at its place, and normalization leaves the limbs of the whole. -/
theorem schoolbookMultipliesExactly : Obligations.SchoolbookMultipliesExactly :=
  ⟨mulStep_lt, refMul_limbsOf⟩

/-- Settles O58: each digit leaves a remainder below the divisor, so that digits and remainder are the quotient's and the
remainder's. -/
theorem longDivisionDividesExactly : Obligations.LongDivisionDividesExactly :=
  ⟨fun b r _ h => digitSearch_digit b r h, refDivmod_limbsOf⟩

/-- Settles O60: the loop's invariant at its end, and the products of numbers below `BETA ^ L`. -/
theorem squareAndMultiplyIsPower : Obligations.SquareAndMultiplyIsPower := by
  refine ⟨fun m fuel result base e hm hres he => ?_, fun L m result base hm hres hbase => ?_, modPow_eq⟩
  · exact ⟨modPowLoop_eq m fuel result base e hres he, modPowLoop_lt m hm fuel result base e hres⟩
  · exact ⟨mul_lt_pow_two_mul L _ _ (hres.trans hm) hbase, mul_lt_pow_two_mul L _ _ hbase hbase,
      Nat.mod_lt _ (Nat.zero_lt_of_lt hres)⟩

end Sys2Proof.Proofs
end
